-- ==== Sys2Proof/Word.lean ====
section
/-! DEFINITION. The widths the block names, as plain bit vectors (spec 00_scope R9, R10, R11; 10_state R20). -/

namespace Sys2Proof

/-- One byte of the encoder's input or of the decoder's output (R9 `W_BYTE`). -/
abbrev Byte := BitVec 8

/-- One UTF-16 code unit, the item of the text ports (R18 Unit, R68). -/
abbrev CodeUnit := BitVec 16

/-- A symbol on the accumulator's side: 16 bits; an 8-bit symbol stands in the low half (R9, R107). -/
abbrev Symbol := BitVec 16

/-- A code point field, `CP_W` = 21 bits (R10). -/
abbrev CodePoint := BitVec 21

/-- One word of `DTAB`: bit 17 `hit`, bit 16 `w8`, bits 15..0 `val` (R20, R64, R142). -/
abbrev DWord := BitVec 18

/-- One command word, `CMD_W` = 32 bits (R10, R92). -/
abbrev CmdWord := BitVec 32

/-- One micro-operation word of a `UOP` port (R107). -/
abbrev UopWord := BitVec 3

end Sys2Proof
end

