-- ==== Sys2Proof/Config.lean ====
section
/-! DEFINITION. What is fixed before reset and never changed by a command: the constants of 00_scope R9 and the
configuration of R8, R10 (the two range ROMs of 20_memory R60, R61 and the line-break code point). The VALUES the
machine is reset with stand in Machine/Ranges.lean. -/

namespace Sys2Proof

/-- One entry of a range ROM: an inclusive pair `(first, last)` of code points (R17 SafeRange, R60, R61). The width tag
is which of the two lists the pair is in. -/
structure Range where
  first : CodePoint
  last : CodePoint
deriving DecidableEq, Repr

/-- How many code points an inclusive range holds (0 when `last < first`, which R135 item 1 excludes). -/
def Range.size (r : Range) : Nat := r.last.toNat + 1 - r.first.toNat

/-- Whether a code point lies in a range (closed-range test, R15). -/
def Range.has (r : Range) (c : CodePoint) : Bool := decide (r.first ≤ c) && decide (c ≤ r.last)

/-- The configuration (R8, R10): `ROM16`, `ROM8` (R60, R61) in declared order, and `WRAP_CP`. Plain data; R135 is the
check `Config.ok` of WellFormed.lean. -/
structure Config where
  ranges16 : List Range
  ranges8 : List Range
  wrapCp : CodePoint
deriving DecidableEq, Repr

/-- `N_SYM16` (R9). -/
def nSym16 : Nat := 65536

/-- `N_SYM8` (R9). -/
def nSym8 : Nat := 256

/-- `PAD_BIT`: the value of every padding bit (R9, R199). -/
def padBit : BitVec 1 := 1#1

/-- The number of indices of `DTAB`: `0 .. 0x1FFFFF` (R60, R64). -/
def dtabSize : Nat := 0x200000

end Sys2Proof
end

