-- ==== Sys2Proof/Syntax.lean ====
section
/-! DEFINITION. The instructions: nine host commands and four accumulator micro-operations (30_encoding R93, R108), one
constructor per row of spec/opcode_table.json; the words of the three ports that carry them; the assembler lines of R109
and the pseudo-instructions of R110. -/

namespace Sys2Proof

/-- The two channels, each with an accumulator of its own (00_scope R7, 10_state R21): `e` encodes, `d` decodes. -/
inductive Channel where
  | e
  | d
deriving DecidableEq, Repr

/-- The instructions. Operands have exactly the width of their field (R94 to R102, R107), so every term is encodable.
A micro-operation names the accumulator on whose `UOP` port it stands (R107: each instance has a port of its own). -/
inductive Instr where
  | encOpen (wrap : BitVec 24)
  | encByte (b : Byte)
  | encFin
  | decOpen (ig : BitVec 1)
  | decUnit (u : CodeUnit)
  | decFin
  | lkS2c16 (v : BitVec 16)
  | lkS2c8 (v : BitVec 8)
  | lkC2s (cp : CodePoint)
  | baIdle (ch : Channel) (a : BitVec 1)
  | baPush (ch : Channel) (b : BitVec 1)
  | baEmit (ch : Channel) (w : BitVec 1)
  | baClear (ch : Channel) (a : BitVec 1)
deriving DecidableEq, Repr

/-- A word at a port of the block: a command word at `CMD` (R90, R92), or a micro-operation word at the internal `UOP`
port of one accumulator (R107). -/
inductive PortWord where
  | cmd (w : CmdWord)
  | uop (ch : Channel) (w : UopWord)
deriving DecidableEq, Repr

/-- One line of assembler (R109), its operand a number as written; the ranges are checked by `AsmLine.wellFormed`. -/
inductive AsmLine where
  | encOpen (n : Nat)
  | encByte (b : Nat)
  | encFin
  | decOpen (g : Nat)
  | decUnit (u : Nat)
  | decFin
  | lkS2c16 (v : Nat)
  | lkS2c8 (v : Nat)
  | lkC2s (c : Nat)
  | baIdle
  | baPush (b : Nat)
  | baEmit (w : Nat)
  | baClear
deriving DecidableEq, Repr

/-- The pseudo-instructions of R110. `decText` holds the code points of its string. -/
inductive Pseudo where
  | encWrite (bs : List Byte)
  | decWrite (us : List CodeUnit)
  | decText (cps : List CodePoint)
  | encode (bs : List Byte)
  | decode (us : List CodeUnit) (g : BitVec 1)
deriving DecidableEq, Repr

end Sys2Proof
end

