-- ==== Sys2Proof/WellFormed.lean ====
section
/-! DEFINITION. The checks: the range parameter (40_range_table R135), the legality of a command word by the nine rows of
mask and match (30_encoding R94 to R103), and the operand ranges of assembler lines (R109). An `Instr` has no ill-formed
term: its fields have the widths of the encoding. -/

namespace Sys2Proof

/-- R135 item 1: every pair has `first ≤ last`. -/
def rangesOrdered (rs : List Range) : Bool := rs.all fun r => decide (r.first ≤ r.last)

/-- R135 item 2: `last` of each range is below `first` of the next. -/
def rangesAscend : List Range → Bool
  | [] => true
  | [_] => true
  | r :: r' :: rs => decide (r.last < r'.first) && rangesAscend (r' :: rs)

/-- How many code points a list of ranges holds. -/
def rangesTotal : List Range → Nat
  | [] => 0
  | r :: rs => r.size + rangesTotal rs

/-- R135 item 4: no code point is in both families. -/
def rangesApart (rs rs' : List Range) : Bool :=
  rs.all fun r => rs'.all fun r' => decide (r.last < r'.first) || decide (r'.last < r.first)

/-- R135 item 5: every code point of the ranges is a Unicode scalar value: at most `0x10FFFF`, no surrogate. The bounds
are general knowledge (93_implementation_defined G3). -/
def rangesScalar (rs : List Range) : Bool :=
  rs.all fun r => decide (r.last ≤ 0x10FFFF#21) && (decide (r.last < 0xD800#21) || decide (0xDFFF#21 < r.first))

/-- Whether some range holds a code point. -/
def rangesHave (rs : List Range) (c : CodePoint) : Bool := rs.any fun r => r.has c

/-- R135 item 6: `WRAP_CP` is in no range, is below `0x10000` and is no surrogate. -/
def wrapCpOk (cfg : Config) : Bool :=
  !rangesHave cfg.ranges16 cfg.wrapCp && !rangesHave cfg.ranges8 cfg.wrapCp &&
    decide (cfg.wrapCp < 0x10000#21) && (decide (cfg.wrapCp < 0xD800#21) || decide (0xDFFF#21 < cfg.wrapCp))

/-- R135, all six items. What the block does with a parameter that fails them is not defined (R135, U1). -/
def Config.ok (cfg : Config) : Bool :=
  rangesOrdered cfg.ranges16 && rangesOrdered cfg.ranges8 &&
    rangesAscend cfg.ranges16 && rangesAscend cfg.ranges8 &&
    decide (rangesTotal cfg.ranges16 = nSym16) && decide (rangesTotal cfg.ranges8 = nSym8) &&
    rangesApart cfg.ranges16 cfg.ranges8 &&
    rangesScalar cfg.ranges16 && rangesScalar cfg.ranges8 &&
    wrapCpOk cfg

/-- One row of the command table: a word belongs to it when `word & mask = pattern`. -/
structure Row where
  pattern : CmdWord
  mask : CmdWord
deriving DecidableEq, Repr

/-- Whether a word belongs to a row (R103). -/
def Row.covers (r : Row) (w : CmdWord) : Bool := (w &&& r.mask) == r.pattern

/-- The nine rows of R94 to R102, in that order. -/
def commandRows : List Row :=
  [⟨0x01000000#32, 0xFF000000#32⟩, ⟨0x02000000#32, 0xFFFFFF00#32⟩, ⟨0x03000000#32, 0xFFFFFFFF#32⟩,
    ⟨0x11000000#32, 0xFFFFFFFE#32⟩, ⟨0x12000000#32, 0xFFFF0000#32⟩, ⟨0x13000000#32, 0xFFFFFFFF#32⟩,
    ⟨0x21000000#32, 0xFFFF0000#32⟩, ⟨0x21010000#32, 0xFFFFFF00#32⟩, ⟨0x22000000#32, 0xFFE00000#32⟩]

/-- R103: a command word is legal when it belongs to one of the nine rows. -/
def legalWord (w : CmdWord) : Bool := commandRows.any fun r => r.covers w

/-- The operand ranges of R109. -/
def AsmLine.wellFormed : AsmLine → Bool
  | .encOpen n => decide (n ≤ 0xFFFFFF)
  | .encByte b => decide (b ≤ 0xFF)
  | .encFin => true
  | .decOpen g => decide (g ≤ 1)
  | .decUnit u => decide (u ≤ 0xFFFF)
  | .decFin => true
  | .lkS2c16 v => decide (v ≤ 0xFFFF)
  | .lkS2c8 v => decide (v ≤ 0xFF)
  | .lkC2s c => decide (c ≤ 0x1FFFFF)
  | .baIdle => true
  | .baPush b => decide (b ≤ 1)
  | .baEmit w => decide (w = 16 ∨ w = 8)
  | .baClear => true

end Sys2Proof
end

