-- ==== Sys2Proof/Machine/Ranges.lean ====
section
/-! DEFINITION. The values of the configuration that the machine is reset with: the default ranges of 40_range_table R137
and the line break of R10. PRESUMED: the ranges are general knowledge, not the source's (93_implementation_defined G1). -/

namespace Sys2Proof.Machine

/-- `RANGES16`, the ten ranges of R137 (PRESUMED, assumption 4). -/
def defaultRanges16 : List Range :=
  [⟨0x3400#21, 0x4CFF#21⟩, ⟨0x4E00#21, 0x9EFF#21⟩, ⟨0xA100#21, 0xA3FF#21⟩, ⟨0xA500#21, 0xA5FF#21⟩,
    ⟨0x10600#21, 0x106FF#21⟩, ⟨0x12000#21, 0x122FF#21⟩, ⟨0x13000#21, 0x133FF#21⟩, ⟨0x14400#21, 0x145FF#21⟩,
    ⟨0x16800#21, 0x169FF#21⟩, ⟨0x20000#21, 0x285FF#21⟩]

/-- `RANGES8`, the one range of R137 (PRESUMED, assumption 4). -/
def defaultRanges8 : List Range := [⟨0x1500#21, 0x15FF#21⟩]

/-- `WRAP_CP` (R10, D12, assumption 5). -/
def defaultWrapCp : CodePoint := 0x000A#21

/-- The default configuration. -/
def defaultConfig : Config := ⟨defaultRanges16, defaultRanges8, defaultWrapCp⟩

end Sys2Proof.Machine
end

