-- ==== Sys2Proof/Machine/State.lean ====
section
/-! DEFINITION. The state of the block (10_state R20), the records its ports carry (30_encoding R104, R107), the reasons a
step can stop, and the state after reset (R30). Plain data throughout. -/

namespace Sys2Proof.Machine

/-- The status of a response; exactly these seven (R105, U9). -/
inductive Status where
  | ok
  | invalidCodePoint
  | sequenceContinuedAfterFinalByte
  | paddingMismatch
  | invalidSourceText
  | illegalCommand
  | sessionInError
deriving DecidableEq, Repr

/-- The four decode errors that `D.ERR` can hold (R26, R291 codes 1 to 4). -/
inductive ErrCode where
  | invalidCodePoint
  | sequenceContinuedAfterFinalByte
  | paddingMismatch
  | invalidSourceText
deriving DecidableEq, Repr

/-- What a raise records: the code of `D.ERR` and the value of `D.INFO` (R26, R296). -/
structure DecError where
  code : ErrCode
  info : CodePoint
deriving DecidableEq, Repr

/-- One item of a response's output list, by command group (R104): a UTF-16 unit of `ENC.*`, a byte of `DEC.*`, a result
word of `LK.*`. -/
inductive Item where
  | unit (u : CodeUnit)
  | byte (b : Byte)
  | word (w : BitVec 32)
deriving DecidableEq, Repr

/-- A response record (R104). -/
structure Response where
  status : Status
  info : CodePoint
  out : List Item
deriving DecidableEq, Repr

/-- An accumulator's answer to a micro-operation (R107). -/
structure Answer where
  full : Bool
  sym : Symbol
  ovf : Bool
deriving DecidableEq, Repr

/-- A bit accumulator (R20, R21): the value `z` and the held-bit count `n`. -/
structure Acc where
  z : BitVec 16
  n : BitVec 5
deriving DecidableEq, Repr

/-- The encode channel (R20): `E.BA`; `E.PEND_V` with `E.PEND` as one optional byte (R24); `E.WRAP`; `E.COL`. -/
structure EncChan where
  ba : Acc
  pend : Option Byte
  wrap : BitVec 24
  col : BitVec 24
deriving DecidableEq, Repr

/-- The decode channel (R20): `D.BA`; `D.TERM`; `D.HS_V` with `D.HS` as one optional unit (R24); `D.IG`; `D.ERR` with
`D.INFO` as one optional record, absent when `D.ERR = 0` (R26, D25). -/
structure DecChan where
  ba : Acc
  term : Bool
  hs : Option CodeUnit
  ig : Bool
  err : Option DecError
deriving DecidableEq, Repr

/-- The three RAMs (R20, R60) as the words in which each differs from what the builder leaves there (40_range_table R134):
`(index, word)` pairs, indices strictly rising, none equal to the built word (`Memory.wf`). -/
structure Memory where
  etab16 : List (Nat × CodePoint)
  etab8 : List (Nat × CodePoint)
  dtab : List (Nat × DWord)
deriving DecidableEq, Repr

/-- What waits at the block's input ports (R90): the reset request, or a word at a port. -/
inductive Input where
  | reset
  | word (p : PortWord)
deriving DecidableEq, Repr

/-- The whole state. `cfg`, `mem`, `ready`, `e`, `d` are the block's (R8, R20, R60). The last three fields are the MODEL's
own (assumptions 1 to 3): `inp`, what the host offers, oldest first; `rsp`, the response records produced so far on `RSP`,
oldest first; `ans`, the answers of the accumulators to micro-operations presented at their `UOP` ports. -/
structure State where
  cfg : Config
  mem : Memory
  ready : Bool
  e : EncChan
  d : DecChan
  inp : List Input
  rsp : List Response
  ans : List (Channel × Answer)
deriving DecidableEq, Repr

/-- Why the block stops. No sequence of host commands reaches one under a configuration that satisfies R135. -/
inductive Fault where
  /-- Raised by a step, the builder and the two lookup ports when the range parameter breaks R135: the spec defines no
  behaviour then (U1, stuck). Safe. -/
  | malformedRanges
  /-- Raised by `ENC.BYTE` when pushing its two bytes completes no symbol, which needs an `E.BA` that was not empty before
  the command (against R28 a): "the one element of s2" of R192 does not exist then. Safe. -/
  | noSymbol
  /-- Raised by `ENC.FIN` when the accumulator is not left with 8 bits: "a leftover of 9 to 15 bits cannot occur and this
  spec gives it no meaning" (R199, U10). It needs an `E.BA` that was not empty before the command. Safe. -/
  | noTerminalSymbol
deriving DecidableEq, Repr

/-- Why a step has no meaning. -/
inductive Refusal where
  /-- Raised by `exec` for an instruction that has no meaning yet, by its mnemonic; no instruction of this block. Safe. -/
  | notModelled (mnemonic : String)
deriving DecidableEq, Repr

/-- An empty accumulator, `(z, n) = (0, 0)` (R30, R164). -/
def Acc.empty : Acc := ⟨0#16, 0#5⟩

/-- The encode channel after reset (R30). -/
def EncChan.atReset : EncChan := ⟨Acc.empty, none, 0#24, 0#24⟩

/-- The decode channel after reset (R30). -/
def DecChan.atReset : DecChan := ⟨Acc.empty, false, none, false, none⟩

/-- The RAMs as the builder leaves them: no word differs from the built one (R30, R134). -/
def Memory.built : Memory := ⟨[], [], []⟩

/-- The machine right after the reset sequence (R30), with the default configuration (R137) and nothing offered yet. -/
def State.reset : State where
  cfg := defaultConfig
  mem := Memory.built
  ready := true
  e := EncChan.atReset
  d := DecChan.atReset
  inp := []
  rsp := []
  ans := []

end Sys2Proof.Machine
end

