-- ==== Sys2Proof/Machine/Operands.lean ====
section
/-! DEFINITION. Operand forms and value conversions: the symbol byte swap (00_scope R12), the UTF-16 arithmetic (42_encoder
R195, 43_decoder R222; general knowledge, G2), the fields of a `DTAB` word (20_memory R64). -/

namespace Sys2Proof.Machine

/-- `bswap16(e) = {e[7:0], e[15:8]}` (R12). -/
def bswap16 (e : BitVec 16) : BitVec 16 := e.extractLsb' 0 8 ++ e.extractLsb' 8 8

/-- A high surrogate: a unit in `[0xD800, 0xDBFF]` (R18). -/
def isHighSurrogate (u : CodeUnit) : Bool := decide (0xD800#16 ≤ u) && decide (u ≤ 0xDBFF#16)

/-- A low surrogate: a unit in `[0xDC00, 0xDFFF]` (R18). -/
def isLowSurrogate (u : CodeUnit) : Bool := decide (0xDC00#16 ≤ u) && decide (u ≤ 0xDFFF#16)

/-- The code point of a surrogate pair: `0x10000 + ((hi - 0xD800) << 10) + (lo - 0xDC00)` (R222). -/
def combineSurrogates (hi lo : CodeUnit) : CodePoint :=
  0x10000#21 + ((hi - 0xD800#16).setWidth 21 <<< 10) + (lo - 0xDC00#16).setWidth 21

/-- `UTF16(cp)`: the units of one code point, high surrogate first (R195). -/
def utf16 (cp : CodePoint) : List CodeUnit :=
  if cp < 0x10000#21 then [cp.setWidth 16]
  else
    let c : BitVec 20 := (cp - 0x10000#21).setWidth 20
    [0xD800#16 + (c.extractLsb' 10 10).setWidth 16, 0xDC00#16 + (c.extractLsb' 0 10).setWidth 16]

/-- Builds a `DTAB` word `{hit, w8, val}` (R64). -/
def dword (hit w8 : BitVec 1) (val : BitVec 16) : DWord := hit ++ w8 ++ val

/-- `hit`, bit 17 (R64, R142). -/
def dwordHit (w : DWord) : Bool := w.getLsbD 17

/-- `w8`, bit 16 (R64, R142). -/
def dwordW8 (w : DWord) : Bool := w.getLsbD 16

/-- `val`, bits 15 to 0 (R64, R142). -/
def dwordVal (w : DWord) : BitVec 16 := w.extractLsb' 0 16

/-- The 8-bit symbol of a width-8 hit, `val[7:0]`, in the low half of a 16-bit value (R64, R223). -/
def lowByte (v : BitVec 16) : BitVec 16 := (v.extractLsb' 0 8).setWidth 16

end Sys2Proof.Machine
end

