-- ==== Sys2Proof/Machine/Flags.lean ====
section
/-! DEFINITION. The flags of 10_state R23 and the status registers of R26 as the state holds them, the two state machines
whose states they hold (44_streaming R264, R265), the numbers of the codes (30_encoding R105) and the padding test
(43_decoder R223). -/

namespace Sys2Proof.Machine

/-- `E.PEND_V` (R23). -/
def pendV (s : State) : Bool := s.e.pend.isSome

/-- `D.HS_V` (R23). -/
def hsV (s : State) : Bool := s.d.hs.isSome

/-- The states of the encoder's machine (R264). -/
inductive EncPhase where
  | empty
  | hold
deriving DecidableEq, Repr

/-- The state the encode channel is in (R264). -/
def encPhase (e : EncChan) : EncPhase := if e.pend.isSome then .hold else .empty

/-- The states of the decoder's machine (R265): `RUN`, `RUN_HS`, `END`, `END_HS`, `DEAD`. -/
inductive DecPhase where
  | run
  | runHs
  | ended
  | endedHs
  | dead
deriving DecidableEq, Repr

/-- The state the decode channel is in (R265). -/
def decPhase (d : DecChan) : DecPhase :=
  if d.err.isSome then .dead
  else if d.term then (if d.hs.isSome then .endedHs else .ended)
  else (if d.hs.isSome then .runHs else .run)

/-- The number of a status (R105). -/
def statusCode : Status → BitVec 4
  | .ok => 0
  | .invalidCodePoint => 1
  | .sequenceContinuedAfterFinalByte => 2
  | .paddingMismatch => 3
  | .invalidSourceText => 4
  | .illegalCommand => 5
  | .sessionInError => 6

/-- The number `D.ERR` holds for an error (R26, R291). -/
def errNumber : ErrCode → BitVec 3
  | .invalidCodePoint => 1
  | .sequenceContinuedAfterFinalByte => 2
  | .paddingMismatch => 3
  | .invalidSourceText => 4

/-- `D.ERR` as the 3-bit register of R26: 0 when no error is held. -/
def errRegister (d : DecChan) : BitVec 3 :=
  match d.err with
  | none => 0
  | some er => errNumber er.code

/-- The status a raise of an error answers with (R105, R296). -/
def errStatus : ErrCode → Status
  | .invalidCodePoint => .invalidCodePoint
  | .sequenceContinuedAfterFinalByte => .sequenceContinuedAfterFinalByte
  | .paddingMismatch => .paddingMismatch
  | .invalidSourceText => .invalidSourceText

/-- The padding test of R223, R294: the held bits equal `2^n - 1`. -/
def paddingHolds (a : Acc) : Bool := decide (a.z.toNat = 2 ^ a.n.toNat - 1)

end Sys2Proof.Machine
end

