-- ==== Sys2Proof/Machine/Tables.lean ====
section
/-! DEFINITION. The table unit (40_range_table): enumeration of the ranges (R131), what each RAM word holds once built (R132,
R133, R64), `MemRead` and `MemWrite` (00_scope R13), the builder `BUILD` (R134) and the read ports `S2C`, `C2S` (R139). -/

namespace Sys2Proof.Machine

/-- The code point at enumeration index `e` of a family (R131); 0 past the end, which R135 item 3 excludes. -/
def repertoire : List Range → Nat → CodePoint
  | [], _ => 0#21
  | r :: rs, e => if e < r.size then r.first + BitVec.ofNat 21 e else repertoire rs (e - r.size)

/-- The enumeration index of a code point in a family, none when no range holds it (R131). -/
def enumIndex : List Range → CodePoint → Option Nat
  | [], _ => none
  | r :: rs, c =>
    if r.has c then some (c.toNat - r.first.toNat)
    else (enumIndex rs c).map (· + r.size)

/-- The built word of `ETAB16` at index `s`: `REP16[bswap16(s)]` (R133). -/
def builtEtab16 (cfg : Config) (s : Nat) : CodePoint :=
  repertoire cfg.ranges16 (bswap16 (BitVec.ofNat 16 s)).toNat

/-- The built word of `ETAB8` at index `s`: `REP8[s]` (R132). -/
def builtEtab8 (cfg : Config) (s : Nat) : CodePoint := repertoire cfg.ranges8 s

/-- The built word of `DTAB` at index `c` (R64, R132, R133). -/
def builtDtab (cfg : Config) (c : Nat) : DWord :=
  match enumIndex cfg.ranges16 (BitVec.ofNat 21 c) with
  | some e => dword 1#1 0#1 (bswap16 (BitVec.ofNat 16 e))
  | none =>
    match enumIndex cfg.ranges8 (BitVec.ofNat 21 c) with
    | some e => dword 1#1 1#1 ((BitVec.ofNat 8 e).setWidth 16)
    | none => 0#18

/-- Reads a RAM given as its differences from `bg`: the listed word at `i`, else `bg i`. -/
def ramRead {w : Nat} (bg : Nat → BitVec w) : List (Nat × BitVec w) → Nat → BitVec w
  | [], i => bg i
  | (k, x) :: m, i => if i = k then x else ramRead bg m i

/-- Writes a RAM given as its differences from `bg`, keeping the canonical form: indices rising, no word equal to `bg`'s. -/
def ramWrite {w : Nat} (bg : Nat → BitVec w) : List (Nat × BitVec w) → Nat → BitVec w → List (Nat × BitVec w)
  | [], i, v => if v = bg i then [] else [(i, v)]
  | (k, x) :: m, i, v =>
    if i < k then (if v = bg i then (k, x) :: m else (i, v) :: (k, x) :: m)
    else if i = k then (if v = bg i then m else (i, v) :: m)
    else (k, x) :: ramWrite bg m i v

/-- The canonical form of a RAM of `size` words: indices strictly rising and below `size`, no word equal to `bg`'s. -/
def ramWf {w : Nat} (size : Nat) (bg : Nat → BitVec w) : List (Nat × BitVec w) → Bool
  | [] => true
  | [(k, x)] => decide (k < size) && decide (x ≠ bg k)
  | (k, x) :: (k', x') :: m => decide (k < k') && decide (x ≠ bg k) && ramWf size bg ((k', x') :: m)

/-- The canonical form of the three RAMs (R60 for their index spaces). -/
def Memory.wf (cfg : Config) (m : Memory) : Bool :=
  ramWf nSym16 (builtEtab16 cfg) m.etab16 && ramWf nSym8 (builtEtab8 cfg) m.etab8 && ramWf dtabSize (builtDtab cfg) m.dtab

/-- `MemRead(ETAB16, s)` (R13, R70). -/
def readEtab16 (cfg : Config) (m : Memory) (s : BitVec 16) : CodePoint := ramRead (builtEtab16 cfg) m.etab16 s.toNat

/-- `MemRead(ETAB8, s)` (R13, R70). -/
def readEtab8 (cfg : Config) (m : Memory) (s : BitVec 8) : CodePoint := ramRead (builtEtab8 cfg) m.etab8 s.toNat

/-- `MemRead(DTAB, c)` (R13, R70). -/
def readDtab (cfg : Config) (m : Memory) (c : CodePoint) : DWord := ramRead (builtDtab cfg) m.dtab c.toNat

/-- `MemWrite(ETAB16, s, cp)`, the builder's only (R13, R65). -/
def writeEtab16 (cfg : Config) (m : Memory) (s : BitVec 16) (cp : CodePoint) : Memory :=
  { m with etab16 := ramWrite (builtEtab16 cfg) m.etab16 s.toNat cp }

/-- `MemWrite(ETAB8, s, cp)`, the builder's only (R13, R65). -/
def writeEtab8 (cfg : Config) (m : Memory) (s : BitVec 8) (cp : CodePoint) : Memory :=
  { m with etab8 := ramWrite (builtEtab8 cfg) m.etab8 s.toNat cp }

/-- `MemWrite(DTAB, c, w)`, the builder's only (R13, R65). -/
def writeDtab (cfg : Config) (m : Memory) (c : CodePoint) (w : DWord) : Memory :=
  { m with dtab := ramWrite (builtDtab cfg) m.dtab c.toNat w }

/-- The first loop of `BUILD`: indices `0` to `n - 1` of `DTAB` become misses, in ascending order (R134). -/
def buildClear (cfg : Config) : Nat → Memory → Memory
  | 0, m => m
  | n + 1, m => writeDtab cfg (buildClear cfg n m) (BitVec.ofNat 21 n) (dword 0#1 0#1 0#16)

/-- The inner loop of `BUILD` over `n` code points of a 16-bit range from `cp` up, with the 17-bit counter `e` (R134). -/
def buildRange16 (cfg : Config) : Nat → CodePoint → BitVec 17 × Memory → BitVec 17 × Memory
  | 0, _, st => st
  | n + 1, cp, (e, m) =>
    let s := bswap16 (e.setWidth 16)
    let m1 := writeEtab16 cfg m s cp
    let m2 := writeDtab cfg m1 cp (dword 1#1 0#1 s)
    buildRange16 cfg n (cp + 1#21) (e + 1#17, m2)

/-- The inner loop of `BUILD` over `n` code points of an 8-bit range from `cp` up (R134). -/
def buildRange8 (cfg : Config) : Nat → CodePoint → BitVec 17 × Memory → BitVec 17 × Memory
  | 0, _, st => st
  | n + 1, cp, (e, m) =>
    let s : BitVec 8 := e.setWidth 8
    let m1 := writeEtab8 cfg m s cp
    let m2 := writeDtab cfg m1 cp (dword 1#1 1#1 (s.setWidth 16))
    buildRange8 cfg n (cp + 1#21) (e + 1#17, m2)

/-- The loop over `ROM16` (R134). -/
def buildRom16 (cfg : Config) (st : BitVec 17 × Memory) : BitVec 17 × Memory :=
  cfg.ranges16.foldl (fun st r => buildRange16 cfg r.size r.first st) st

/-- The loop over `ROM8` (R134). -/
def buildRom8 (cfg : Config) (st : BitVec 17 × Memory) : BitVec 17 × Memory :=
  cfg.ranges8.foldl (fun st r => buildRange8 cfg r.size r.first st) st

/-- `BUILD()` from any RAM contents (R134): clear `DTAB`, enumerate `ROM16`, enumerate `ROM8`. -/
def build (cfg : Config) (m : Memory) : Memory :=
  (buildRom8 cfg (0#17, (buildRom16 cfg (0#17, buildClear cfg dtabSize m)).2)).2

/-- The read port `S2C(16, v)` (R139). Total under R135; without it no behaviour is defined (U1). -/
def s2c16 (s : State) (v : BitVec 16) : Except Fault CodePoint :=
  if s.cfg.ok then .ok (readEtab16 s.cfg s.mem v) else .error .malformedRanges

/-- The read port `S2C(8, v)` (R139). -/
def s2c8 (s : State) (v : BitVec 8) : Except Fault CodePoint :=
  if s.cfg.ok then .ok (readEtab8 s.cfg s.mem v) else .error .malformedRanges

/-- The read port `C2S(c)` (R139): a miss is a value, not a failure. -/
def c2s (s : State) (c : CodePoint) : Except Fault DWord :=
  if s.cfg.ok then .ok (readDtab s.cfg s.mem c) else .error .malformedRanges

end Sys2Proof.Machine
end

