-- ==== Sys2Proof/Machine/Ops.lean ====
section
/-! DEFINITION. The shared operations: the accumulator's micro-operations and `BA_PUSHBITS` (41_bit_accumulator), responses
and answers (30_encoding R104 to R107), taking an error and leaving one (60_exceptions R296 to R301), `EMITCP` (42_encoder
R194), the reset sequence (70_reset R331). -/

namespace Sys2Proof.Machine

/-- The answer of a micro-operation for which no field is meaningful (R107). -/
def noAnswer : Answer := ⟨false, 0#16, false⟩

/-- `BA.PUSH b` on one accumulator (R162, R169): refused with `ovf` at `n = 16`. -/
def accPush (b : BitVec 1) (a : Acc) : Acc × Answer :=
  if a.n = 16#5 then (a, ⟨false, 0#16, true⟩)
  else (⟨(a.z <<< 1) + b.setWidth 16, a.n + 1#5⟩, noAnswer)

/-- The width that the operand of `BA.EMIT` selects: 0 is 16, 1 is 8 (R107, R163). -/
def emitWidth (w : BitVec 1) : BitVec 5 := if w = 0#1 then 16#5 else 8#5

/-- `BA.EMIT` at a width on one accumulator (R163): the test is equality. -/
def accEmit (width : BitVec 5) (a : Acc) : Acc × Answer :=
  if a.n = width then (Acc.empty, ⟨true, a.z, false⟩) else (a, noAnswer)

/-- `BA.CLEAR` on one accumulator (R164). -/
def accClear (_ : Acc) : Acc × Answer := (Acc.empty, noAnswer)

/-- `BA_PUSHBITS(ba, v, k, width)` (R165): the low `k` bits of `v`, most significant first, an emit after every push. -/
def pushBits (width : BitVec 5) : Nat → BitVec 16 → Acc → Acc × List Symbol
  | 0, _, a => (a, [])
  | k + 1, v, a =>
    let a1 := (accPush (BitVec.ofBool (v.getLsbD k)) a).1
    let r := accEmit width a1
    let rest := pushBits width k v r.1
    (rest.1, if r.2.full then r.2.sym :: rest.2 else rest.2)

/-- The padding loop of `ENC.FIN` (R193): ones are pushed while `n < 8`; 8 rounds of fuel reach 8 from any lower count. -/
def padTo8 : Nat → Acc → Acc
  | 0, a => a
  | k + 1, a => if a.n < 8#5 then padTo8 k (accPush padBit a).1 else a

/-- The accumulator of a channel (R21). -/
def accOf (ch : Channel) (s : State) : Acc :=
  match ch with
  | .e => s.e.ba
  | .d => s.d.ba

/-- Writes the accumulator of a channel (R21). -/
def setAcc (ch : Channel) (a : Acc) (s : State) : State :=
  match ch with
  | .e => { s with e := { s.e with ba := a } }
  | .d => { s with d := { s.d with ba := a } }

/-- A micro-operation's result at the `UOP` port of a channel: the accumulator written, the answer given (R107). -/
def answerUop (ch : Channel) (r : Acc × Answer) (s : State) : State :=
  { setAcc ch r.1 s with ans := s.ans ++ [(ch, r.2)] }

/-- A response record on `RSP` (R91, R104). -/
def respond (r : Response) (s : State) : State := { s with rsp := s.rsp ++ [r] }

/-- `return (OK, out)` (R14). -/
def returnOk (out : List Item) (s : State) : Host.Outcome State Fault Refusal := .next (respond ⟨.ok, 0#21, out⟩ s)

/-- `raise X(v)`, where `s` is the state at the START of the command, so that every write the command made is discarded:
`D.ERR` and `D.INFO` are written, the response carries the code, no output (R14, R296). -/
def raise (c : ErrCode) (info : CodePoint) (s : State) : Host.Outcome State Fault Refusal :=
  .next (respond ⟨errStatus c, info, []⟩ { s with d := { s.d with err := some ⟨c, info⟩ } })

/-- The refusal of a dead decode session: no state changes (R298). -/
def refuseDead (er : DecError) (s : State) : Host.Outcome State Fault Refusal :=
  .next (respond ⟨.sessionInError, (errNumber er.code).setWidth 21, []⟩ s)

/-- An illegal command word: no state changes (R103, R297). -/
def refuseIllegal (s : State) : Host.Outcome State Fault Refusal := .next (respond ⟨.illegalCommand, 0#21, []⟩ s)

/-- A fresh encode session with a wrap length (R191); what a pending byte held is dropped. -/
def freshEnc (wrap : BitVec 24) (e : EncChan) : EncChan := ⟨(accClear e.ba).1, none, wrap, 0#24⟩

/-- A fresh decode session (R221), the only way out of an error (R301): there is nothing to restore. -/
def freshDec (ig : Bool) (d : DecChan) : DecChan := ⟨(accClear d.ba).1, false, none, ig, none⟩

/-- `EMITCP(cp)` (R194): the units of a code point, a line break after every `E.WRAP`-th, and the new `E.COL`. -/
def emitCp (cfg : Config) (cp : CodePoint) (e : EncChan) : EncChan × List CodeUnit :=
  if e.wrap = 0#24 then (e, utf16 cp)
  else if e.col + 1#24 = e.wrap then ({ e with col := 0#24 }, utf16 cp ++ utf16 cfg.wrapCp)
  else ({ e with col := e.col + 1#24 }, utf16 cp)

/-- An item as the 32-bit word that carries it on `RSP` (R106). -/
def itemWord : Item → BitVec 32
  | .unit u => u.setWidth 32
  | .byte b => b.setWidth 32
  | .word w => w

/-- The header word of a response: status, count, zeros, info (R106). -/
def responseHeader (r : Response) : BitVec 32 :=
  statusCode r.status ++ BitVec.ofNat 2 r.out.length ++ 0#5 ++ r.info

/-- A response as the words on `RSP` (R106). -/
def responseWords (r : Response) : List (BitVec 32) := responseHeader r :: r.out.map itemWord

/-- The unit stream `TXT` of a list of responses (R104). -/
def txtOf (rs : List Response) : List CodeUnit :=
  rs.flatMap fun r => r.out.filterMap fun
    | .unit u => some u
    | _ => none

/-- The byte stream `BYT` of a list of responses (R104). -/
def bytOf (rs : List Response) : List Byte :=
  rs.flatMap fun r => r.out.filterMap fun
    | .byte b => some b
    | _ => none

/-- The assertion of `RESET`: `READY` becomes 0 (R330). -/
def assertReset (s : State) : State := { s with ready := false }

/-- The reset sequence after `RESET` is released (R331): build the tables, clear both channels, `READY`. A range parameter
that breaks R135 has no defined build (U1). -/
def resetSequence (s : State) : Host.Outcome State Fault Refusal :=
  if s.cfg.ok then
    .next { s with mem := build s.cfg s.mem, e := freshEnc 0#24 s.e, d := freshDec false s.d, ready := true }
  else .fault .malformedRanges

end Sys2Proof.Machine
end

