-- ==== Sys2Proof/Machine/Accumulator.lean ====
section
/-! DEFINITION. The micro-operations at the `UOP` port of one accumulator (41_bit_accumulator R161 to R164). -/

namespace Sys2Proof.Machine

/-- `BA.IDLE` (R161): the operand bit is ignored. -/
def execBaIdle (ch : Channel) (_ : BitVec 1) (s : State) : Host.Outcome State Fault Refusal :=
  .next (answerUop ch (accOf ch s, noAnswer) s)

/-- `BA.PUSH b` (R162, R169). -/
def execBaPush (ch : Channel) (b : BitVec 1) (s : State) : Host.Outcome State Fault Refusal :=
  .next (answerUop ch (accPush b (accOf ch s)) s)

/-- `BA.EMIT w` (R163). -/
def execBaEmit (ch : Channel) (w : BitVec 1) (s : State) : Host.Outcome State Fault Refusal :=
  .next (answerUop ch (accEmit (emitWidth w) (accOf ch s)) s)

/-- `BA.CLEAR` (R164): the operand bit is ignored. -/
def execBaClear (ch : Channel) (_ : BitVec 1) (s : State) : Host.Outcome State Fault Refusal :=
  .next (answerUop ch (accClear (accOf ch s)) s)

end Sys2Proof.Machine
end

