-- ==== Sys2Proof/Machine/Decoder.lean ====
section
/-! DEFINITION. The commands of the decode channel (43_decoder R221 to R224). -/

namespace Sys2Proof.Machine

/-- The bytes the decoder emits: each symbol at width 8 is below 256 (R167, R225). -/
def byteItems (syms : List Symbol) : List Item := syms.map fun v => .byte (v.setWidth 8)

/-- `DECODE_CP(cp)` (R223): `s` is the state at the start of the command, `d` the channel as the command has it so far. The
order of the tests is the source's (R299): miss, termination, width, padding. -/
def decodeCp (cp : CodePoint) (d : DecChan) (s : State) : Host.Outcome State Fault Refusal :=
  match c2s s cp with
  | .error f => .fault f
  | .ok w =>
    if dwordHit w = false then
      if d.ig then returnOk [] { s with d := d } else raise .invalidCodePoint cp s
    else if d.term then raise .sequenceContinuedAfterFinalByte cp s
    else if dwordW8 w = false then
      let r := pushBits 8#5 16 (dwordVal w) d.ba
      returnOk (byteItems r.2) { s with d := { d with ba := r.1 } }
    else
      let r := pushBits 8#5 8 (lowByte (dwordVal w)) d.ba
      if paddingHolds r.1 then returnOk (byteItems r.2) { s with d := { d with ba := r.1, term := true } }
      else raise .paddingMismatch cp s

/-- `DEC.OPEN ig` (R221). -/
def execDecOpen (ig : BitVec 1) (s : State) : Host.Outcome State Fault Refusal :=
  returnOk [] { s with d := freshDec (ig == 1#1) s.d }

/-- `DEC.UNIT u` (R222). -/
def execDecUnit (u : CodeUnit) (s : State) : Host.Outcome State Fault Refusal :=
  match s.d.err with
  | some er => refuseDead er s
  | none =>
    match s.d.hs with
    | some h =>
      if isLowSurrogate u then decodeCp (combineSurrogates h u) { s.d with hs := none } s
      else raise .invalidSourceText (h.setWidth 21) s
    | none =>
      if isHighSurrogate u then returnOk [] { s with d := { s.d with hs := some u } }
      else if isLowSurrogate u then raise .invalidSourceText (u.setWidth 21) s
      else decodeCp (u.setWidth 21) s.d s

/-- `DEC.FIN` (R224): the channel is left a fresh session with the same `D.IG`. -/
def execDecFin (s : State) : Host.Outcome State Fault Refusal :=
  match s.d.err with
  | some er => refuseDead er s
  | none =>
    match s.d.hs with
    | some h => raise .invalidSourceText (h.setWidth 21) s
    | none => returnOk [] { s with d := { s.d with ba := (accClear s.d.ba).1, term := false } }

end Sys2Proof.Machine
end

