-- ==== Sys2Proof/Machine/Encoder.lean ====
section
/-! DEFINITION. The commands of the encode channel (42_encoder R191 to R193). -/

namespace Sys2Proof.Machine

/-- `ENC.OPEN wrap` (R191). -/
def execEncOpen (wrap : BitVec 24) (s : State) : Host.Outcome State Fault Refusal :=
  returnOk [] { s with e := freshEnc wrap s.e }

/-- `ENC.BYTE b` (R192): the first byte of a pair waits in `E.PEND`; with the second, both are pushed at width 16 and the
symbol goes through `S2C` and `EMITCP`. -/
def execEncByte (b : Byte) (s : State) : Host.Outcome State Fault Refusal :=
  match s.e.pend with
  | none => returnOk [] { s with e := { s.e with pend := some b } }
  | some a =>
    let r1 := pushBits 16#5 8 (a.setWidth 16) s.e.ba
    let r2 := pushBits 16#5 8 (b.setWidth 16) r1.1
    match r2.2 with
    | [sym] =>
      match s2c16 s sym with
      | .error f => .fault f
      | .ok cp =>
        let r := emitCp s.cfg cp { s.e with ba := r2.1, pend := none }
        returnOk (r.2.map .unit) { s with e := r.1 }
    | _ => .fault .noSymbol

/-- `ENC.FIN` (R193): the pending byte is pushed, padded with ones to 8 bits (none are needed), emitted at width 8 and goes
through `S2C` and `EMITCP`; the channel is left a fresh session with the same `E.WRAP`. -/
def execEncFin (s : State) : Host.Outcome State Fault Refusal :=
  match s.e.pend with
  | none => returnOk [] { s with e := freshEnc s.e.wrap s.e }
  | some a =>
    let r1 := pushBits 16#5 8 (a.setWidth 16) s.e.ba
    let r2 := accEmit 8#5 (padTo8 8 r1.1)
    if r2.2.full then
      match s2c8 s (r2.2.sym.setWidth 8) with
      | .error f => .fault f
      | .ok cp =>
        let r := emitCp s.cfg cp { s.e with ba := r2.1, pend := none }
        returnOk (r.2.map .unit) { s with e := freshEnc s.e.wrap r.1 }
    else .fault .noTerminalSymbol

end Sys2Proof.Machine
end

