-- ==== Sys2Proof/Machine/Lookup.lean ====
section
/-! DEFINITION. The table read commands (40_range_table R140 to R142). They touch no channel. -/

namespace Sys2Proof.Machine

/-- `LK.S2C16 v` (R140). -/
def execLkS2c16 (v : BitVec 16) (s : State) : Host.Outcome State Fault Refusal :=
  match s2c16 s v with
  | .error f => .fault f
  | .ok cp => returnOk [.word (cp.setWidth 32)] s

/-- `LK.S2C8 v` (R141). -/
def execLkS2c8 (v : BitVec 8) (s : State) : Host.Outcome State Fault Refusal :=
  match s2c8 s v with
  | .error f => .fault f
  | .ok cp => returnOk [.word (cp.setWidth 32)] s

/-- `LK.C2S c` (R142): bit 17 `hit`, bit 16 `w8`, bits 15..0 `val`; a miss answers 0 with status OK. -/
def execLkC2s (c : CodePoint) (s : State) : Host.Outcome State Fault Refusal :=
  match c2s s c with
  | .error f => .fault f
  | .ok w => returnOk [.word (w.setWidth 32)] s

end Sys2Proof.Machine
end

