-- ==== Sys2Proof/Machine/Dispatch.lean ====
section
/-! DEFINITION. One arm per instruction. -/

namespace Sys2Proof.Machine

def exec (i : Instr) (s : State) : Host.Outcome State Fault Refusal :=
  match i with
  | .encOpen wrap => Sys2Proof.Machine.execEncOpen wrap s
  | .encByte b => Sys2Proof.Machine.execEncByte b s
  | .encFin => Sys2Proof.Machine.execEncFin s
  | .decOpen ig => Sys2Proof.Machine.execDecOpen ig s
  | .decUnit u => Sys2Proof.Machine.execDecUnit u s
  | .decFin => Sys2Proof.Machine.execDecFin s
  | .lkS2c16 v => Sys2Proof.Machine.execLkS2c16 v s
  | .lkS2c8 v => Sys2Proof.Machine.execLkS2c8 v s
  | .lkC2s cp => Sys2Proof.Machine.execLkC2s cp s
  | .baIdle ch a => Sys2Proof.Machine.execBaIdle ch a s
  | .baPush ch b => Sys2Proof.Machine.execBaPush ch b s
  | .baEmit ch w => Sys2Proof.Machine.execBaEmit ch w s
  | .baClear ch a => Sys2Proof.Machine.execBaClear ch a s

end Sys2Proof.Machine
end

