-- ==== Sys2Proof/Decode.lean ====
section
/-! DEFINITION. The decoder of the three ports (30_encoding R92 to R103, R107, R108), total and rejecting by name, and after
it the encoder, written from the same tables. -/

namespace Sys2Proof

/-- Why a command word is illegal (R103): its opcode is none of the eight, or a reserved bit of a defined one is set. -/
inductive DecodeError where
  | undefinedOpcode
  | reservedBitSet
deriving DecidableEq, Repr

/-- `opc = [31:24]` (R92). -/
def opcOf (w : CmdWord) : BitVec 8 := w.extractLsb' 24 8

/-- `arg = [23:0]` (R92). -/
def argOf (w : CmdWord) : BitVec 24 := w.extractLsb' 0 24

/-- The field of `len` bits of `arg` from bit `lo` up (R12, R92). -/
def argField (w : CmdWord) (lo len : Nat) : BitVec len := (argOf w).extractLsb' lo len

/-- Accepts `i` when the reserved field is zero (R92, R103). -/
def ifReservedZero {n : Nat} (reserved : BitVec n) (i : Instr) : Except DecodeError Instr :=
  if reserved = 0#n then .ok i else .error .reservedBitSet

/-- `0x21` carries two commands, told apart by `arg[16]` (R93, R100, R101). -/
def decodeS2c (w : CmdWord) : Except DecodeError Instr :=
  if argField w 16 1 = 0#1 then
    ifReservedZero (argField w 17 7) (.lkS2c16 (argField w 0 16))
  else
    ifReservedZero (argField w 17 7 ++ argField w 8 8) (.lkS2c8 (argField w 0 8))

/-- The command word decoder (R93 to R103). -/
def decodeCmd (w : CmdWord) : Except DecodeError Instr :=
  if opcOf w = 0x01#8 then .ok (.encOpen (argOf w))
  else if opcOf w = 0x02#8 then ifReservedZero (argField w 8 16) (.encByte (argField w 0 8))
  else if opcOf w = 0x03#8 then ifReservedZero (argOf w) .encFin
  else if opcOf w = 0x11#8 then ifReservedZero (argField w 1 23) (.decOpen (argField w 0 1))
  else if opcOf w = 0x12#8 then ifReservedZero (argField w 16 8) (.decUnit (argField w 0 16))
  else if opcOf w = 0x13#8 then ifReservedZero (argOf w) .decFin
  else if opcOf w = 0x21#8 then decodeS2c w
  else if opcOf w = 0x22#8 then ifReservedZero (argField w 21 3) (.lkC2s (argField w 0 21))
  else .error .undefinedOpcode

/-- The micro-operation decoder: all eight words are defined (R107, R108). -/
def decodeUop (ch : Channel) (w : UopWord) : Instr :=
  let op : BitVec 2 := w.extractLsb' 1 2
  let a : BitVec 1 := w.extractLsb' 0 1
  if op = 0b00#2 then .baIdle ch a
  else if op = 0b01#2 then .baPush ch a
  else if op = 0b10#2 then .baEmit ch a
  else .baClear ch a

/-- The decoder of a word at a port. -/
def decode : PortWord → Except DecodeError Instr
  | .cmd w => decodeCmd w
  | .uop ch w => .ok (decodeUop ch w)

/-- The word of an instruction at its port (R94 to R102, R108). -/
def encode : Instr → PortWord
  | .encOpen wrap => .cmd (0x01#8 ++ wrap)
  | .encByte b => .cmd (0x02#8 ++ 0#16 ++ b)
  | .encFin => .cmd 0x03000000#32
  | .decOpen ig => .cmd (0x11#8 ++ 0#23 ++ ig)
  | .decUnit u => .cmd (0x12#8 ++ 0#8 ++ u)
  | .decFin => .cmd 0x13000000#32
  | .lkS2c16 v => .cmd (0x21#8 ++ 0#7 ++ 0#1 ++ v)
  | .lkS2c8 v => .cmd (0x21#8 ++ 0#7 ++ 1#1 ++ 0#8 ++ v)
  | .lkC2s cp => .cmd (0x22#8 ++ 0#3 ++ cp)
  | .baIdle ch a => .uop ch (0b00#2 ++ a)
  | .baPush ch b => .uop ch (0b01#2 ++ b)
  | .baEmit ch w => .uop ch (0b10#2 ++ w)
  | .baClear ch a => .uop ch (0b11#2 ++ a)

/-- The port word an opcode-table row's bits stand for: a row of at most one byte is of format U (3 bits, R107), laid on
channel E's port; every other row is a 32-bit command word (R92). -/
def tableWord (nbits w : Nat) : PortWord :=
  if nbits ≤ 8 then .uop .e (BitVec.ofNat 3 w) else .cmd (BitVec.ofNat 32 w)

/-- The instruction the decoder reads from an opcode-table word; none where it refuses. -/
def decodeTableWord (nbits w : Nat) : Option Instr :=
  match decode (tableWord nbits w) with
  | .ok i => some i
  | .error _ => none

end Sys2Proof
end

