-- ==== Sys2Proof/Machine/Fetch.lean ====
section
/-! DEFINITION. What the block takes next from its ports (30_encoding R90, R91; 70_reset R330, R331, R340). -/

namespace Sys2Proof.Machine

/-- What the block does next: wait for the host; take a reset request; run the reset sequence (whether or not a
request came before it: assumption 23); run an instruction; answer an illegal command word. The state carried is the state with the input taken from the port. -/
inductive Taken where
  | nothing
  | resetRequest (s : State)
  | resetRelease
  | instr (i : Instr) (s : State)
  | illegal (s : State)
deriving DecidableEq, Repr

/-- Takes the next input. A reset request is taken at any time (R330); while `READY = 0` nothing else is, and the reset
sequence runs (R91, R331); then one word is taken and decoded (R91, R103). DESIGN CHOICE, unsafe (assumption 23): the sequence
runs in EVERY state with `READY = 0`, also in a power-up state in which `RESET` was never asserted; the spec starts it from
a `RESET` (R331, R333) and does not say what a block does that was never reset (R30, U7). -/
def takeInput (s : State) : Taken :=
  match s.inp with
  | .reset :: rest => .resetRequest { s with inp := rest }
  | [] => if s.ready then .nothing else .resetRelease
  | .word p :: rest =>
    if s.ready then
      match decode p with
      | .ok i => .instr i { s with inp := rest }
      | .error _ => .illegal { s with inp := rest }
    else .resetRelease

/-- The host offers words, behind what it has offered before (R90). -/
def offerWords (ps : List PortWord) (s : State) : State := { s with inp := s.inp ++ ps.map .word }

/-- A port word put in front of everything offered, with `READY = 1` (the port accepts words only then, R91). -/
def offerFirst (p : PortWord) (s : State) : State := { s with inp := .word p :: s.inp, ready := true }

end Sys2Proof.Machine
end

