-- ==== Sys2Proof/Machine/Step.lean ====
section
/-! DEFINITION. One step of the block: one command, micro-operation or reset event, whole (00_scope R6, 30_encoding R91). -/

namespace Sys2Proof.Machine

/-- One step. Under a range parameter that breaks R135 the block has no defined behaviour (U1): it is stuck. With nothing
offered and `READY = 1` the block waits (R305, assumption 13): the state does not change. With `READY = 0` and no reset
request at the head of the queue it runs the reset sequence, unasked (assumption 23). -/
def step (s : State) : Host.Outcome State Fault Refusal :=
  if s.cfg.ok then
    match takeInput s with
    | .nothing => .next s
    | .resetRequest t => .next (assertReset t)
    | .resetRelease => resetSequence s
    | .instr i t => exec i t
    | .illegal t => refuseIllegal t
  else .fault .malformedRanges

/-- `s` with an opcode-table word offered at its port as the next input. -/
def State.withFetchWord (s : State) (nbits w : Nat) : State := offerFirst (tableWord nbits w) s

end Sys2Proof.Machine
end

