-- ==== Sys2Proof/Machine/Assembler.lean ====
section
/-! DEFINITION. The assembler of 30_encoding R109: a line's text to an `AsmLine`, a well-formed line to its instruction. -/

namespace Sys2Proof.Machine

/-- The instruction of a line whose operand is in range (R109); a line of a micro-operation stands for the accumulator
`ch`. None is an assembly error: "an operand outside its range is an assembly error, not a word". -/
def assembleLine (ch : Channel) (l : AsmLine) : Option Instr :=
  if l.wellFormed then
    match l with
    | .encOpen n => some (.encOpen (BitVec.ofNat 24 n))
    | .encByte b => some (.encByte (BitVec.ofNat 8 b))
    | .encFin => some .encFin
    | .decOpen g => some (.decOpen (BitVec.ofNat 1 g))
    | .decUnit u => some (.decUnit (BitVec.ofNat 16 u))
    | .decFin => some .decFin
    | .lkS2c16 v => some (.lkS2c16 (BitVec.ofNat 16 v))
    | .lkS2c8 v => some (.lkS2c8 (BitVec.ofNat 8 v))
    | .lkC2s c => some (.lkC2s (BitVec.ofNat 21 c))
    | .baIdle => some (.baIdle ch 0#1)
    | .baPush b => some (.baPush ch (BitVec.ofNat 1 b))
    | .baEmit w => some (.baEmit ch (if w = 8 then 1#1 else 0#1))
    | .baClear => some (.baClear ch 0#1)
  else none

/-- A letter in lower case: mnemonics are case-insensitive (R109). -/
def lowerChar (c : Char) : Char :=
  if decide ('A'.toNat ≤ c.toNat) && decide (c.toNat ≤ 'Z'.toNat) then Char.ofNat (c.toNat + 32) else c

/-- A blank between words. -/
def isBlank (c : Char) : Bool := c == ' ' || c == '\t' || c == '\r' || c == '\n'

/-- What stands before the comment that `;` starts (R109). -/
def dropComment : List Char → List Char
  | [] => []
  | c :: cs => if c = ';' then [] else c :: dropComment cs

/-- The words of a line, in lower case: `cur` is the word being read, backwards. -/
def wordsOf : List Char → List Char → List (List Char)
  | [], cur => if cur.isEmpty then [] else [cur.reverse]
  | c :: cs, cur =>
    if isBlank c then (if cur.isEmpty then wordsOf cs [] else cur.reverse :: wordsOf cs [])
    else wordsOf cs (lowerChar c :: cur)

/-- The value of a digit, decimal or lower-case hexadecimal. -/
def digitValue (c : Char) : Option Nat :=
  if decide ('0'.toNat ≤ c.toNat) && decide (c.toNat ≤ '9'.toNat) then some (c.toNat - '0'.toNat)
  else if decide ('a'.toNat ≤ c.toNat) && decide (c.toNat ≤ 'f'.toNat) then some (c.toNat - 'a'.toNat + 10)
  else none

/-- The number that digits of a base spell after `acc`. -/
def digitsValue (base : Nat) : List Char → Nat → Option Nat
  | [], acc => some acc
  | c :: cs, acc =>
    match digitValue c with
    | some d => if d < base then digitsValue base cs (acc * base + d) else none
    | none => none

/-- An operand: decimal, or hexadecimal after `0x` (R109). -/
def numberOf : List Char → Option Nat
  | [] => none
  | ['0', 'x'] => none
  | '0' :: 'x' :: cs => digitsValue 16 cs 0
  | cs => digitsValue 10 cs 0

/-- A line without operand, by its mnemonic (R109). -/
def lineOfMnemonic (m : List Char) : Option AsmLine :=
  if m = ['e', 'n', 'c', '.', 'f', 'i', 'n'] then some .encFin
  else if m = ['d', 'e', 'c', '.', 'f', 'i', 'n'] then some .decFin
  else if m = ['b', 'a', '.', 'i', 'd', 'l', 'e'] then some .baIdle
  else if m = ['b', 'a', '.', 'c', 'l', 'e', 'a', 'r'] then some .baClear
  else none

/-- A line with one operand, by its mnemonic (R109). -/
def lineOfOperand (m : List Char) (n : Nat) : Option AsmLine :=
  if m = ['e', 'n', 'c', '.', 'o', 'p', 'e', 'n'] then some (.encOpen n)
  else if m = ['e', 'n', 'c', '.', 'b', 'y', 't', 'e'] then some (.encByte n)
  else if m = ['d', 'e', 'c', '.', 'o', 'p', 'e', 'n'] then some (.decOpen n)
  else if m = ['d', 'e', 'c', '.', 'u', 'n', 'i', 't'] then some (.decUnit n)
  else if m = ['l', 'k', '.', 's', '2', 'c', '1', '6'] then some (.lkS2c16 n)
  else if m = ['l', 'k', '.', 's', '2', 'c', '8'] then some (.lkS2c8 n)
  else if m = ['l', 'k', '.', 'c', '2', 's'] then some (.lkC2s n)
  else if m = ['b', 'a', '.', 'p', 'u', 's', 'h'] then some (.baPush n)
  else if m = ['b', 'a', '.', 'e', 'm', 'i', 't'] then some (.baEmit n)
  else none

/-- The text of one line (R109): no line for blanks and comments alone, one line, or an error. -/
def parseLine (cs : List Char) : Option (List AsmLine) :=
  match wordsOf (dropComment cs) [] with
  | [] => some []
  | [m] => (lineOfMnemonic m).map ([·])
  | [m, x] => (numberOf x).bind fun n => (lineOfOperand m n).map ([·])
  | _ => none

/-- The instructions of a text given as its lines, one command a line (R109). -/
def assembleText (ch : Channel) : List (List Char) → Option (List Instr)
  | [] => some []
  | l :: ls =>
    match parseLine l with
    | none => none
    | some asm =>
      match asm.mapM (assembleLine ch), assembleText ch ls with
      | some is, some rest => some (is ++ rest)
      | _, _ => none

end Sys2Proof.Machine
end

