-- ==== Sys2Proof/Machine/Session.lean ====
section
/-! DEFINITION. Runs of commands: the pseudo-instructions of 30_encoding R110 and the whole-buffer operation of 44_streaming
R267. -/

namespace Sys2Proof.Machine

/-- The commands a pseudo-instruction expands to (R110). -/
def expand : Pseudo → List Instr
  | .encWrite bs => bs.map .encByte
  | .decWrite us => us.map .decUnit
  | .decText cps => (cps.flatMap utf16).map .decUnit
  | .encode bs => [.encOpen 0#24] ++ bs.map .encByte ++ [.encFin]
  | .decode us g => [.decOpen g] ++ us.map .decUnit ++ [.decFin]

/-- `k` steps, stopping at the first fault or refusal. -/
def runSteps : Nat → State → Host.Outcome State Fault Refusal
  | 0, s => .next s
  | k + 1, s =>
    match step s with
    | .next t => runSteps k t
    | .fault f => .fault f
    | .refused r => .refused r

/-- The host offers a list of commands and the block takes them all (R91). -/
def runCommands (is : List Instr) (s : State) : Host.Outcome State Fault Refusal :=
  runSteps is.length (offerWords (is.map encode) s)

/-- The responses produced between an earlier state and a later one. -/
def responsesSince (s t : State) : List Response := t.rsp.drop s.rsp.length

/-- The value of `decode` (R110, R267): the bytes when every status is OK, else the first non-OK status with its info and
no bytes. -/
inductive DecodeValue where
  | bytes (bs : List Byte)
  | failed (status : Status) (info : CodePoint)
deriving DecidableEq, Repr

/-- Reads the value of `decode` off its responses (R110, R267). -/
def decodeValue (rs : List Response) : DecodeValue :=
  match rs.find? fun r => r.status != .ok with
  | some r => .failed r.status r.info
  | none => .bytes (bytOf rs)

/-- A response with status OK and a list of units. -/
def okUnits (us : List CodeUnit) : Response := ⟨.ok, 0#21, us.map .unit⟩

/-- The responses of the bytes of a stream and of the `ENC.FIN` after them, with wrapping off, by the closed form of R196:
the code point of a pair `b1 b2` is `REP16[256 * b2 + b1]` and comes with `b2`; that of an odd last byte `b` is `REP8[b]` and
comes with `ENC.FIN`. -/
def encodeResponses (cfg : Config) : List Byte → List Response
  | [] => [okUnits []]
  | [b] => [okUnits [], okUnits (utf16 (repertoire cfg.ranges8 b.toNat))]
  | a :: b :: bs =>
    okUnits [] :: okUnits (utf16 (repertoire cfg.ranges16 (256 * b.toNat + a.toNat))) :: encodeResponses cfg bs

/-- Puts bytes in front of a decoded value; a failure stays the failure (R267: no bytes then). -/
def prependBytes (bs : List Byte) : DecodeValue → DecodeValue
  | .bytes rest => .bytes (bs ++ rest)
  | .failed st info => .failed st info

/-- What a text of code points decodes to by the closed form of R227; `term` says whether the terminal symbol has been
seen. -/
def decodedText (cfg : Config) (m : Memory) (ig : Bool) : Bool → List CodePoint → DecodeValue
  | _, [] => .bytes []
  | term, c :: cs =>
    let w := readDtab cfg m c
    if dwordHit w = false then
      if ig then decodedText cfg m ig term cs else .failed .invalidCodePoint c
    else if term then .failed .sequenceContinuedAfterFinalByte c
    else if dwordW8 w = false then
      prependBytes [(dwordVal w).extractLsb' 8 8, (dwordVal w).extractLsb' 0 8] (decodedText cfg m ig term cs)
    else prependBytes [(dwordVal w).extractLsb' 0 8] (decodedText cfg m ig true cs)

end Sys2Proof.Machine
end

