-- ==== Sys2Proof/Safety.lean ====
section
/-! DEFINITION. What claims about runs speak of: the invariants of 10_state R28 and 41_bit_accumulator R167 and the condition
that only the host drives the ports. -/

namespace Sys2Proof.Machine

/-- R167 (a), on one accumulator: `n ≤ 16` and `z < 2^n`. -/
def AccWf (a : Acc) : Prop := a.n.toNat ≤ 16 ∧ a.z.toNat < 2 ^ a.n.toNat

/-- R28 (a), (c), on the encode channel. -/
def EncInv (e : EncChan) : Prop :=
  e.ba = Acc.empty ∧ (e.wrap = 0#24 → e.col = 0#24) ∧ (e.wrap ≠ 0#24 → e.col < e.wrap)

/-- R28 (b), (e), on the decode channel; (d) holds by the type of `DecChan.err`. -/
def DecInv (d : DecChan) : Prop := d.ba = Acc.empty ∧ ∀ h, d.hs = some h → isHighSurrogate h = true

/-- An input that the host can give: a reset or a command word, never a micro-operation (R90, R107: "the host cannot
drive" the internal ports). -/
def hostInput : Input → Bool
  | .reset => true
  | .word (.cmd _) => true
  | .word (.uop _ _) => false

/-- Everything offered is the host's. -/
def HostDriven (s : State) : Prop := ∀ x ∈ s.inp, hostInput x = true

/-- The invariant of the block. The configuration satisfies R135 (R333), the RAMs are in canonical form, the host alone
drives the ports; and whenever `READY = 1` the tables are the built ones (R65, R331) and R28 holds. With `READY = 0` the
channels and RAMs may hold anything (R30: before the first reset every register and RAM word is unspecified). -/
structure Inv (s : State) : Prop where
  config : s.cfg.ok = true
  canonical : s.mem.wf s.cfg = true
  host : HostDriven s
  tables : s.ready = true → s.mem = Memory.built
  enc : s.ready = true → EncInv s.e
  dec : s.ready = true → DecInv s.d

/-- The tables are the built ones under a configuration that satisfies R135, which is what every command's table read
assumes (R333). -/
def TablesReady (s : State) : Prop := s.cfg.ok = true ∧ s.mem = Memory.built

/-- Whether an instruction is a host command (a row of format C, R92), not a micro-operation. -/
def isCommand : Instr → Bool
  | .baIdle _ _ => false
  | .baPush _ _ => false
  | .baEmit _ _ => false
  | .baClear _ _ => false
  | _ => true

/-- Whether an instruction is a command of the encode group (R93). -/
def isEnc : Instr → Bool
  | .encOpen _ => true
  | .encByte _ => true
  | .encFin => true
  | _ => false

/-- Whether an instruction is a command of the decode group (R93). -/
def isDec : Instr → Bool
  | .decOpen _ => true
  | .decUnit _ => true
  | .decFin => true
  | _ => false

/-- Whether an instruction is a command of the lookup group (R93). -/
def isLk : Instr → Bool
  | .lkS2c16 _ => true
  | .lkS2c8 _ => true
  | .lkC2s _ => true
  | _ => false

/-- The code point that a unit completes on a decode channel (R222), none when it completes none. -/
def completedCp (d : DecChan) (u : CodeUnit) : Option CodePoint :=
  match d.hs with
  | none => if isHighSurrogate u || isLowSurrogate u then none else some (u.setWidth 21)
  | some h => if isLowSurrogate u then some (combineSurrogates h u) else none

/-- The three outcomes of a table read of a code point (R265). -/
inductive Hit where
  | hit16
  | hit8
  | miss
deriving DecidableEq, Repr

/-- The outcome that a `DTAB` word stands for (R64, R265). -/
def hitOf (w : DWord) : Hit := if dwordHit w then (if dwordW8 w then .hit8 else .hit16) else .miss

/-- The inputs of the decoder's state machine (R265). A low surrogate and any other unit come with the outcome of the table
read of the code point they would complete. -/
inductive DecInput where
  | unitHigh
  | unitLow (h : Hit)
  | unitOther (h : Hit)
  | fin
  | opened
deriving DecidableEq, Repr

/-- The input of R265's table that a unit is, on a channel. -/
def unitInput (cfg : Config) (m : Memory) (d : DecChan) (u : CodeUnit) : DecInput :=
  if isHighSurrogate u then .unitHigh
  else if isLowSurrogate u then
    .unitLow (match d.hs with
      | some h => hitOf (readDtab cfg m (combineSurrogates h u))
      | none => .miss)
  else .unitOther (hitOf (readDtab cfg m (u.setWidth 21)))

/-- One line of R265's table: the next state, the status and the number of bytes. -/
abbrev DecRow := DecPhase × Status × Nat

/-- The rows of R265 in which a code point is completed before the terminal symbol. -/
def rowCompleted (ig : Bool) : Hit → DecRow
  | .hit16 => (.run, .ok, 2)
  | .hit8 => (.ended, .ok, 1)
  | .miss => if ig then (.run, .ok, 0) else (.dead, .invalidCodePoint, 0)

/-- The rows of R265 in which a code point is completed after the terminal symbol. -/
def rowAfterEnd (ig : Bool) : Hit → DecRow
  | .hit16 => (.dead, .sequenceContinuedAfterFinalByte, 0)
  | .hit8 => (.dead, .sequenceContinuedAfterFinalByte, 0)
  | .miss => if ig then (.ended, .ok, 0) else (.dead, .invalidCodePoint, 0)

/-- The transition table of the decoder (R265), row by row; `ig` is `D.IG`. -/
def decTable (ig : Bool) : DecPhase → DecInput → DecRow
  | _, .opened => (.run, .ok, 0)
  | .run, .unitHigh => (.runHs, .ok, 0)
  | .run, .unitLow _ => (.dead, .invalidSourceText, 0)
  | .run, .unitOther h => rowCompleted ig h
  | .runHs, .unitLow h => rowCompleted ig h
  | .runHs, .unitHigh => (.dead, .invalidSourceText, 0)
  | .runHs, .unitOther _ => (.dead, .invalidSourceText, 0)
  | .ended, .unitHigh => (.endedHs, .ok, 0)
  | .ended, .unitLow _ => (.dead, .invalidSourceText, 0)
  | .ended, .unitOther h => rowAfterEnd ig h
  | .endedHs, .unitLow h => rowAfterEnd ig h
  | .endedHs, .unitHigh => (.dead, .invalidSourceText, 0)
  | .endedHs, .unitOther _ => (.dead, .invalidSourceText, 0)
  | .run, .fin => (.run, .ok, 0)
  | .ended, .fin => (.run, .ok, 0)
  | .runHs, .fin => (.dead, .invalidSourceText, 0)
  | .endedHs, .fin => (.dead, .invalidSourceText, 0)
  | .dead, .unitHigh => (.dead, .sessionInError, 0)
  | .dead, .unitLow _ => (.dead, .sessionInError, 0)
  | .dead, .unitOther _ => (.dead, .sessionInError, 0)
  | .dead, .fin => (.dead, .sessionInError, 0)

/-- `BLK[k]` of R138: the first code point of the default 16-bit family's block `k`. -/
def defaultBlock (k : BitVec 8) : Nat :=
  if k.toNat ≤ 24 then 0x3400 + 0x100 * k.toNat
  else if k.toNat ≤ 105 then 0x4E00 + 0x100 * (k.toNat - 25)
  else if k.toNat ≤ 108 then 0xA100 + 0x100 * (k.toNat - 106)
  else if k.toNat = 109 then 0xA500
  else if k.toNat = 110 then 0x10600
  else if k.toNat ≤ 113 then 0x12000 + 0x100 * (k.toNat - 111)
  else if k.toNat ≤ 117 then 0x13000 + 0x100 * (k.toNat - 114)
  else if k.toNat ≤ 119 then 0x14400 + 0x100 * (k.toNat - 118)
  else if k.toNat ≤ 121 then 0x16800 + 0x100 * (k.toNat - 120)
  else 0x20000 + 0x100 * (k.toNat - 122)

/-- A Unicode scalar value: at most `0x10FFFF` and no surrogate (R135 item 5, G3). -/
def isScalar (c : CodePoint) : Bool := decide (c ≤ 0x10FFFF#21) && (decide (c < 0xD800#21) || decide (0xDFFF#21 < c))

/-- Whether an item is of the kind that a command's group answers with (R104). -/
def itemOfGroup (i : Instr) : Item → Bool
  | .unit _ => isEnc i
  | .byte _ => isDec i
  | .word _ => isLk i

end Sys2Proof.Machine
end

