-- ==== Sys2Proof/Certificates/Slice0/Obligations.lean ====
section
/-! DEFINITION. The statements for the provers, from the numbered rules of spec/. The spec's ports are seen through the
model's own fields: `inp` is what the host offers at `CMD`, `UOP` and `RESET` (assumption 1), `rsp` the records produced on
`RSP` (assumption 2), `ans` the answers of the accumulators (assumption 3). -/

open Sys2Proof Sys2Proof.Machine

/-! ### Words and decoding (30_encoding) -/

/-- Decoding the encoding of an instruction gives it back, every operand at every value (R92, R94 to R102, R107, R108). -/
def Obligations.DecodeOfEncodeIsTheInstruction : Prop :=
  ∀ i : Instr, decode (encode i) = .ok i

/-- A port word the decoder accepts is the word of the instruction it reads: no bit of it is ignored (R103: a reserved bit
that is set makes the word illegal). -/
def Obligations.EncodeOfDecodeIsTheWord : Prop :=
  ∀ (p : PortWord) (i : Instr), decode p = .ok i → encode i = p

/-- R103, R297: a command word is decoded exactly when it matches a row, no word matches two rows, and an illegal word at
the port is answered `(IllegalCommand, 0, [])` with nothing else changed, whatever the state of the channels. -/
def Obligations.LegalWordsRunAndIllegalOnesChangeNothing : Prop :=
  (∀ w : CmdWord, (∃ i, decode (.cmd w) = .ok i) ↔ ∃ r ∈ commandRows, w &&& r.mask = r.pattern) ∧
  (∀ w : CmdWord, commandRows.Pairwise fun r r' => ¬(w &&& r.mask = r.pattern ∧ w &&& r'.mask = r'.pattern)) ∧
  ∀ (s : State) (w : CmdWord) (rest : List Input), s.cfg.ok = true → s.ready = true → s.inp = .word (.cmd w) :: rest →
    (∀ r ∈ commandRows, w &&& r.mask ≠ r.pattern) →
    step s = .next { s with inp := rest, rsp := s.rsp ++ [⟨.illegalCommand, 0#21, []⟩] }

/-- Words written out from R94 to R102 and R108 decode to the instruction they stand for. -/
def Obligations.WrittenWordsDecode : Prop :=
  decode (.cmd 0x0100004C#32) = .ok (.encOpen 76#24) ∧ decode (.cmd 0x02000068#32) = .ok (.encByte 0x68#8) ∧
  decode (.cmd 0x03000000#32) = .ok .encFin ∧ decode (.cmd 0x11000001#32) = .ok (.decOpen 1#1) ∧
  decode (.cmd 0x1200D808#32) = .ok (.decUnit 0xD808#16) ∧ decode (.cmd 0x13000000#32) = .ok .decFin ∧
  decode (.cmd 0x2100FF00#32) = .ok (.lkS2c16 0xFF00#16) ∧ decode (.cmd 0x210100FF#32) = .ok (.lkS2c8 0xFF#8) ∧
  decode (.cmd 0x221FFFFF#32) = .ok (.lkC2s 0x1FFFFF#21) ∧ decode (.uop .d 0b001#3) = .ok (.baIdle .d 1#1) ∧
  decode (.uop .e 0b011#3) = .ok (.baPush .e 1#1) ∧ decode (.uop .d 0b101#3) = .ok (.baEmit .d 1#1) ∧
  decode (.uop .e 0b110#3) = .ok (.baClear .e 0#1)

/-- R91: with `READY = 1` a step takes the word at the port and runs the instruction it decodes to; the only other change a
step makes is that the word has left the port. The port as a queue is the model's choice (assumption 1). -/
def Obligations.StepRunsTheDecodedInstruction : Prop :=
  ∀ (s : State) (p : PortWord) (i : Instr) (rest : List Input), s.cfg.ok = true → s.ready = true →
    s.inp = .word p :: rest → decode p = .ok i → step s = exec i { s with inp := rest }

/-- The next step after an opcode-table word is placed at its port runs the instruction that the word decodes to. Placing it
in front of the queue, with `READY = 1`, is the model's choice (assumption 1). -/
def Obligations.TableWordRunsNext : Prop :=
  ∀ (s : State) (nbits w : Nat) (i : Instr), s.cfg.ok = true → decodeTableWord nbits w = some i →
    step (s.withFetchWord nbits w) = exec i { s with ready := true }

/-! ### The accumulator (41_bit_accumulator) -/

/-- R161: `BA.IDLE` answers zeros and changes nothing, whatever its operand bit. -/
def Obligations.BaIdleChangesNothing : Prop :=
  ∀ (ch : Channel) (a : BitVec 1) (s : State),
    exec (.baIdle ch a) s = .next { s with ans := s.ans ++ [(ch, ⟨false, 0#16, false⟩)] }

/-- R162: `BA.PUSH` shifts the bit in and counts it; at `n = 16` it is refused with `ovf` and changes no register. -/
def Obligations.BaPushShiftsInOneBit : Prop :=
  ∀ (b : BitVec 1) (s : State),
    (s.e.ba.n = 16#5 → exec (.baPush .e b) s = .next { s with ans := s.ans ++ [(.e, ⟨false, 0#16, true⟩)] }) ∧
    (s.e.ba.n ≠ 16#5 → exec (.baPush .e b) s = .next
      { s with e := { s.e with ba := ⟨(s.e.ba.z <<< 1) + b.setWidth 16, s.e.ba.n + 1#5⟩ },
               ans := s.ans ++ [(.e, ⟨false, 0#16, false⟩)] }) ∧
    (s.d.ba.n = 16#5 → exec (.baPush .d b) s = .next { s with ans := s.ans ++ [(.d, ⟨false, 0#16, true⟩)] }) ∧
    (s.d.ba.n ≠ 16#5 → exec (.baPush .d b) s = .next
      { s with d := { s.d with ba := ⟨(s.d.ba.z <<< 1) + b.setWidth 16, s.d.ba.n + 1#5⟩ },
               ans := s.ans ++ [(.d, ⟨false, 0#16, false⟩)] })

/-- R163: `BA.EMIT` answers the value and empties the accumulator when the count EQUALS the width (16 for operand 0, 8 for
operand 1), and otherwise changes no register. -/
def Obligations.BaEmitTestsEquality : Prop :=
  ∀ (w : BitVec 1) (s : State) (width : BitVec 5), ((w = 0#1 ∧ width = 16#5) ∨ (w = 1#1 ∧ width = 8#5)) →
    (s.e.ba.n = width → exec (.baEmit .e w) s = .next
      { s with e := { s.e with ba := ⟨0#16, 0#5⟩ }, ans := s.ans ++ [(.e, ⟨true, s.e.ba.z, false⟩)] }) ∧
    (s.e.ba.n ≠ width → exec (.baEmit .e w) s = .next { s with ans := s.ans ++ [(.e, ⟨false, 0#16, false⟩)] }) ∧
    (s.d.ba.n = width → exec (.baEmit .d w) s = .next
      { s with d := { s.d with ba := ⟨0#16, 0#5⟩ }, ans := s.ans ++ [(.d, ⟨true, s.d.ba.z, false⟩)] }) ∧
    (s.d.ba.n ≠ width → exec (.baEmit .d w) s = .next { s with ans := s.ans ++ [(.d, ⟨false, 0#16, false⟩)] })

/-- R164: `BA.CLEAR` empties its accumulator, whatever its operand bit. -/
def Obligations.BaClearEmptiesTheAccumulator : Prop :=
  ∀ (a : BitVec 1) (s : State),
    exec (.baClear .e a) s = .next
      { s with e := { s.e with ba := ⟨0#16, 0#5⟩ }, ans := s.ans ++ [(.e, ⟨false, 0#16, false⟩)] } ∧
    exec (.baClear .d a) s = .next
      { s with d := { s.d with ba := ⟨0#16, 0#5⟩ }, ans := s.ans ++ [(.d, ⟨false, 0#16, false⟩)] }

/-- The four values of `BA_PUSHBITS` (R165, where they are the spec's own inference). -/
def Obligations.PushBitsCutsSymbols : Prop :=
  (∀ v : BitVec 16, pushBits 8#5 16 v Acc.empty =
    (Acc.empty, [(v.extractLsb' 8 8).setWidth 16, (v.extractLsb' 0 8).setWidth 16])) ∧
  (∀ v : BitVec 16, pushBits 8#5 8 v Acc.empty = (Acc.empty, [(v.extractLsb' 0 8).setWidth 16])) ∧
  ∀ b1 b2 : Byte, pushBits 16#5 8 (b1.setWidth 16) Acc.empty = (⟨b1.setWidth 16, 8#5⟩, []) ∧
    pushBits 16#5 8 (b2.setWidth 16) ⟨b1.setWidth 16, 8#5⟩ = (Acc.empty, [b1 ++ b2])

/-- R167 (b), R169, the spec's own inference: a push-then-emit pair from a count below the width is never refused and leaves the count below it. -/
def Obligations.PushEmitPairStaysBelowTheWidth : Prop :=
  ∀ (width : BitVec 5) (b : BitVec 1) (a : Acc), (width = 16#5 ∨ width = 8#5) → AccWf a → a.n < width →
    (accPush b a).2.ovf = false ∧ AccWf (accEmit width (accPush b a).1).1 ∧ (accEmit width (accPush b a).1).1.n < width

/-- R167 (a), the spec's own inference: every micro-operation answers and keeps `n ≤ 16` and `z < 2^n` in both accumulators. -/
def Obligations.MicroOperationsKeepAccumulatorBounds : Prop :=
  ∀ (i : Instr) (s : State), isCommand i = false → AccWf s.e.ba → AccWf s.d.ba →
    ∃ t, exec i s = .next t ∧ AccWf t.e.ba ∧ AccWf t.d.ba

/-! ### The encoder (42_encoder) -/

/-- R191: `ENC.OPEN` starts a fresh session with its wrap length; what was pending is dropped without output. -/
def Obligations.EncOpenStartsFreshSession : Prop :=
  ∀ (wrap : BitVec 24) (s : State), exec (.encOpen wrap) s = .next
    { s with e := ⟨⟨0#16, 0#5⟩, none, wrap, 0#24⟩, rsp := s.rsp ++ [⟨.ok, 0#21, []⟩] }

/-- R192: the first byte of a pair waits; with the second, the symbol `{first, second}` is looked up and emitted. The
accumulator is empty between commands (R28 a). -/
def Obligations.EncByteDefersThenEmitsThePair : Prop :=
  ∀ (b : Byte) (s : State),
    (s.e.pend = none → exec (.encByte b) s = .next
      { s with e := { s.e with pend := some b }, rsp := s.rsp ++ [⟨.ok, 0#21, []⟩] }) ∧
    ∀ a : Byte, s.e.pend = some a → s.e.ba = Acc.empty → s.cfg.ok = true → exec (.encByte b) s = .next
      { s with e := (emitCp s.cfg (readEtab16 s.cfg s.mem (a ++ b)) { s.e with pend := none }).1,
               rsp := s.rsp ++
                [⟨.ok, 0#21, (emitCp s.cfg (readEtab16 s.cfg s.mem (a ++ b)) { s.e with pend := none }).2.map .unit⟩] }

/-- R193: `ENC.FIN` emits the pending byte, if there is one, as the terminal symbol, and leaves a fresh session with the
same wrap length. -/
def Obligations.EncFinFlushesThePendingByte : Prop :=
  ∀ s : State,
    (s.e.pend = none → exec .encFin s = .next
      { s with e := ⟨⟨0#16, 0#5⟩, none, s.e.wrap, 0#24⟩, rsp := s.rsp ++ [⟨.ok, 0#21, []⟩] }) ∧
    ∀ a : Byte, s.e.pend = some a → s.e.ba = Acc.empty → s.cfg.ok = true → exec .encFin s = .next
      { s with e := ⟨⟨0#16, 0#5⟩, none, s.e.wrap, 0#24⟩,
               rsp := s.rsp ++
                [⟨.ok, 0#21, (emitCp s.cfg (readEtab8 s.cfg s.mem a) { s.e with pend := none }).2.map .unit⟩] }

/-- R194: with wrapping off `EMITCP` gives the units and counts nothing; with it on, in numbers, the code point that fills
the line brings the line break and column 0, and any other counts one column. -/
def Obligations.EmitCpBreaksAfterEveryNth : Prop :=
  ∀ (cfg : Config) (cp : CodePoint) (e : EncChan), (e.wrap ≠ 0#24 → e.col < e.wrap) →
    (e.wrap = 0#24 → emitCp cfg cp e = (e, utf16 cp)) ∧
    (e.wrap ≠ 0#24 → e.col.toNat + 1 = e.wrap.toNat →
      emitCp cfg cp e = ({ e with col := 0#24 }, utf16 cp ++ utf16 cfg.wrapCp)) ∧
    (e.wrap ≠ 0#24 → e.col.toNat + 1 ≠ e.wrap.toNat →
      ∃ c : BitVec 24, c.toNat = e.col.toNat + 1 ∧ emitCp cfg cp e = ({ e with col := c }, utf16 cp))

/-- R195: the units of a scalar value: one unit that is no surrogate, or a high then a low surrogate, with the values that
the rule gives. The arithmetic is presumed: general knowledge that the spec supplies (assumption 14). -/
def Obligations.Utf16UnitsOfScalarValues : Prop :=
  ∀ cp : CodePoint, isScalar cp = true →
    (cp.toNat < 0x10000 → ∃ u : CodeUnit, utf16 cp = [u] ∧ u.toNat = cp.toNat ∧ isHighSurrogate u = false ∧
      isLowSurrogate u = false) ∧
    (0x10000 ≤ cp.toNat → ∃ hi lo : CodeUnit, utf16 cp = [hi, lo] ∧ isHighSurrogate hi = true ∧
      isLowSurrogate lo = true ∧ hi.toNat = 0xD800 + (cp.toNat - 0x10000) / 1024 ∧
      lo.toNat = 0xDC00 + (cp.toNat - 0x10000) % 1024)

/-- R222's combination of a surrogate pair, as a number in `[0x10000, 0x10FFFF]`, is the inverse of R195's split. The
arithmetic is presumed: general knowledge that the spec supplies (assumption 14). -/
def Obligations.SurrogatePairCombines : Prop :=
  ∀ hi lo : CodeUnit, isHighSurrogate hi = true → isLowSurrogate lo = true →
    (combineSurrogates hi lo).toNat = 0x10000 + (hi.toNat - 0xD800) * 1024 + (lo.toNat - 0xDC00) ∧
    isScalar (combineSurrogates hi lo) = true ∧ utf16 (combineSurrogates hi lo) = [hi, lo]

/-- R307, R197: no command of the encoder raises; it answers OK with at most three units. -/
def Obligations.EncoderNeverFails : Prop :=
  ∀ (i : Instr) (s : State), Inv s → s.ready = true → isEnc i = true →
    ∃ (t : State) (us : List CodeUnit), exec i s = .next t ∧ t.rsp = s.rsp ++ [⟨.ok, 0#21, us.map .unit⟩] ∧ us.length ≤ 3

/-- R264, the spec's own inference from R191 to R193: the encoder's commands follow the transition table row by row: next
state and units. -/
def Obligations.EncoderFollowsItsTransitionTable : Prop :=
  ∀ s : State, Inv s → s.ready = true →
    (encPhase s.e = .empty →
      (∀ b, ∃ t, exec (.encByte b) s = .next t ∧ encPhase t.e = .hold ∧ t.e.pend = some b ∧ t.rsp = s.rsp ++ [okUnits []]) ∧
      ∃ t, exec .encFin s = .next t ∧ encPhase t.e = .empty ∧ t.rsp = s.rsp ++ [okUnits []]) ∧
    (∀ a, s.e.pend = some a → encPhase s.e = .hold ∧
      (∀ b, ∃ t, exec (.encByte b) s = .next t ∧ encPhase t.e = .empty ∧
        t.rsp = s.rsp ++ [okUnits (emitCp s.cfg (repertoire s.cfg.ranges16 (256 * b.toNat + a.toNat)) s.e).2]) ∧
      ∃ t, exec .encFin s = .next t ∧ encPhase t.e = .empty ∧
        t.rsp = s.rsp ++ [okUnits (emitCp s.cfg (repertoire s.cfg.ranges8 a.toNat) s.e).2]) ∧
    ∀ w, ∃ t, exec (.encOpen w) s = .next t ∧ encPhase t.e = .empty ∧ t.e.wrap = w ∧ t.rsp = s.rsp ++ [okUnits []]

/-! ### The decoder (43_decoder, 60_exceptions) -/

/-- R221, R301: `DEC.OPEN` starts a fresh session with its option, also out of an error. -/
def Obligations.DecOpenStartsFreshSession : Prop :=
  ∀ (ig : BitVec 1) (s : State), exec (.decOpen ig) s = .next
    { s with d := ⟨⟨0#16, 0#5⟩, false, none, ig == 1#1, none⟩, rsp := s.rsp ++ [⟨.ok, 0#21, []⟩] }

/-- R222 on units that complete no code point: a high surrogate waits; an unpaired half raises `InvalidSourceText` with the
half as info, whatever `D.IG` is. -/
def Obligations.DecUnitPairsSurrogates : Prop :=
  ∀ (u : CodeUnit) (s : State), s.d.err = none →
    (s.d.hs = none → isHighSurrogate u = true → exec (.decUnit u) s = .next
      { s with d := { s.d with hs := some u }, rsp := s.rsp ++ [⟨.ok, 0#21, []⟩] }) ∧
    (s.d.hs = none → isLowSurrogate u = true → exec (.decUnit u) s = .next
      { s with d := { s.d with err := some ⟨.invalidSourceText, u.setWidth 21⟩ },
               rsp := s.rsp ++ [⟨.invalidSourceText, u.setWidth 21, []⟩] }) ∧
    ∀ h : CodeUnit, s.d.hs = some h → isLowSurrogate u = false → exec (.decUnit u) s = .next
      { s with d := { s.d with err := some ⟨.invalidSourceText, h.setWidth 21⟩ },
               rsp := s.rsp ++ [⟨.invalidSourceText, h.setWidth 21, []⟩] }

/-- R292: a completed code point that misses in `DTAB` raises `InvalidCodePoint` naming it when `D.IG = 0`, and is skipped
when `D.IG = 1`, terminated or not. -/
def Obligations.DecUnitMissRaisesOrSkips : Prop :=
  ∀ (u : CodeUnit) (cp : CodePoint) (s : State), s.cfg.ok = true → s.d.err = none → completedCp s.d u = some cp →
    dwordHit (readDtab s.cfg s.mem cp) = false →
    (s.d.ig = false → exec (.decUnit u) s = .next
      { s with d := { s.d with err := some ⟨.invalidCodePoint, cp⟩ }, rsp := s.rsp ++ [⟨.invalidCodePoint, cp, []⟩] }) ∧
    (s.d.ig = true → exec (.decUnit u) s = .next
      { s with d := { s.d with hs := none }, rsp := s.rsp ++ [⟨.ok, 0#21, []⟩] })

/-- R293: a symbol of either width after the terminal one raises `SequenceContinuedAfterFinalByte`, whatever `D.IG` is. -/
def Obligations.DecUnitAfterTerminalRaises : Prop :=
  ∀ (u : CodeUnit) (cp : CodePoint) (s : State), s.cfg.ok = true → s.d.err = none → completedCp s.d u = some cp →
    dwordHit (readDtab s.cfg s.mem cp) = true → s.d.term = true → exec (.decUnit u) s = .next
      { s with d := { s.d with err := some ⟨.sequenceContinuedAfterFinalByte, cp⟩ },
               rsp := s.rsp ++ [⟨.sequenceContinuedAfterFinalByte, cp, []⟩] }

/-- R223, R225: before the terminal symbol a width-16 symbol gives its two bytes, high byte first, and a width-8 symbol
gives its byte and terminates; the accumulator is left empty. -/
def Obligations.DecUnitGivesTheBytesOfTheSymbol : Prop :=
  ∀ (u : CodeUnit) (cp : CodePoint) (s : State), s.cfg.ok = true → s.d.err = none → s.d.ba = Acc.empty →
    s.d.term = false → completedCp s.d u = some cp → dwordHit (readDtab s.cfg s.mem cp) = true →
    (dwordW8 (readDtab s.cfg s.mem cp) = false → exec (.decUnit u) s = .next
      { s with d := { s.d with hs := none },
               rsp := s.rsp ++ [⟨.ok, 0#21, [.byte ((dwordVal (readDtab s.cfg s.mem cp)).extractLsb' 8 8),
                .byte ((dwordVal (readDtab s.cfg s.mem cp)).extractLsb' 0 8)]⟩] }) ∧
    (dwordW8 (readDtab s.cfg s.mem cp) = true → exec (.decUnit u) s = .next
      { s with d := { s.d with hs := none, term := true },
               rsp := s.rsp ++ [⟨.ok, 0#21, [.byte ((dwordVal (readDtab s.cfg s.mem cp)).extractLsb' 0 8)]⟩] })

/-- R224: `DEC.FIN` is refused in a dead session, raises on a half-read pair, and otherwise leaves a fresh session with the
same `D.IG`. The number in the refusal's info is that of R26 and R291. -/
def Obligations.DecFinEndsTheText : Prop :=
  (errNumber .invalidCodePoint = 1#3 ∧ errNumber .sequenceContinuedAfterFinalByte = 2#3 ∧
      errNumber .paddingMismatch = 3#3 ∧ errNumber .invalidSourceText = 4#3) ∧
  ∀ s : State,
    (∀ er, s.d.err = some er → exec .decFin s = .next
      { s with rsp := s.rsp ++ [⟨.sessionInError, (errNumber er.code).setWidth 21, []⟩] }) ∧
    (∀ h, s.d.err = none → s.d.hs = some h → exec .decFin s = .next
      { s with d := { s.d with err := some ⟨.invalidSourceText, h.setWidth 21⟩ },
               rsp := s.rsp ++ [⟨.invalidSourceText, h.setWidth 21, []⟩] }) ∧
    (s.d.err = none → s.d.hs = none → exec .decFin s = .next
      { s with d := ⟨⟨0#16, 0#5⟩, false, none, s.d.ig, none⟩, rsp := s.rsp ++ [⟨.ok, 0#21, []⟩] })

/-- R298: a dead session refuses `DEC.UNIT` and `DEC.FIN` with the number of its error (R26, R291) and no other change; `DEC.OPEN`, all
`ENC.*` and all `LK.*` run as they would without the error. -/
def Obligations.DeadSessionRefusesUnitsAndFin : Prop :=
  (errNumber .invalidCodePoint = 1#3 ∧ errNumber .sequenceContinuedAfterFinalByte = 2#3 ∧
      errNumber .paddingMismatch = 3#3 ∧ errNumber .invalidSourceText = 4#3) ∧
  ∀ (er : DecError) (s : State), s.d.err = some er →
    (∀ u, exec (.decUnit u) s = .next
      { s with rsp := s.rsp ++ [⟨.sessionInError, (errNumber er.code).setWidth 21, []⟩] }) ∧
    exec .decFin s = .next { s with rsp := s.rsp ++ [⟨.sessionInError, (errNumber er.code).setWidth 21, []⟩] } ∧
    (∀ ig, exec (.decOpen ig) s = exec (.decOpen ig) { s with d := { s.d with err := none } }) ∧
    ∀ i t, (isEnc i = true ∨ isLk i = true) → exec i { s with d := { s.d with err := none } } = .next t →
      exec i s = .next { t with d := { t.d with err := some er } }

/-- R296: a command that answers one of the four decode errors has written `D.ERR` and `D.INFO` and nothing else, and
delivers nothing. -/
def Obligations.RaiseDiscardsEveryOtherWrite : Prop :=
  ∀ (i : Instr) (s t : State) (r : Response) (c : ErrCode), isDec i = true → exec i s = .next t →
    t.rsp = s.rsp ++ [r] → r.status = errStatus c →
    r.out = [] ∧ t = { s with d := { s.d with err := some ⟨c, r.info⟩ }, rsp := s.rsp ++ [r] }

/-- R229, the spec's own inference: at the padding test the accumulator holds nothing, so no command answers `PaddingMismatch`. -/
def Obligations.PaddingMismatchIsUnreachable : Prop :=
  (∀ v : BitVec 16, (pushBits 8#5 8 v Acc.empty).1 = Acc.empty ∧
    paddingHolds (pushBits 8#5 8 v Acc.empty).1 = true) ∧
  ∀ (i : Instr) (s t : State) (r : Response), Inv s → s.ready = true → isCommand i = true → exec i s = .next t →
    t.rsp = s.rsp ++ [r] → r.status ≠ .paddingMismatch

/-- R226: `D.IG = 1` changes exactly one thing: where the same command with `D.IG = 0` answers `InvalidCodePoint`, the code
point is skipped; everywhere else it does the same. -/
def Obligations.IgnoreGarbageChangesOnlyTheMiss : Prop :=
  ∀ (i : Instr) (s t : State) (r : Response), isDec i = true → (∀ g, i ≠ .decOpen g) → s.d.ig = false →
    exec i s = .next t → t.rsp = s.rsp ++ [r] →
    (r.status ≠ .invalidCodePoint →
      exec i { s with d := { s.d with ig := true } } = .next { t with d := { t.d with ig := true } }) ∧
    (r.status = .invalidCodePoint → exec i { s with d := { s.d with ig := true } } = .next
      { s with d := { s.d with ig := true, hs := none }, rsp := s.rsp ++ [⟨.ok, 0#21, []⟩] })

/-- R26: once an error is held, no instruction but `DEC.OPEN` changes it. -/
def Obligations.ErrorIsStickyUntilDecOpen : Prop :=
  ∀ (i : Instr) (s t : State) (er : DecError), (∀ g, i ≠ .decOpen g) → s.d.err = some er → exec i s = .next t →
    t.d.err = some er

/-- R265, the spec's own inference from R221 to R224: the decoder's commands follow the transition table row by row: next state, status, number of bytes. -/
def Obligations.DecoderFollowsItsTransitionTable : Prop :=
  ∀ s : State, Inv s → s.ready = true →
    (∀ u, ∃ t r, exec (.decUnit u) s = .next t ∧ t.rsp = s.rsp ++ [r] ∧
      (decPhase t.d, r.status, r.out.length) = decTable s.d.ig (decPhase s.d) (unitInput s.cfg s.mem s.d u)) ∧
    (∃ t r, exec .decFin s = .next t ∧ t.rsp = s.rsp ++ [r] ∧
      (decPhase t.d, r.status, r.out.length) = decTable s.d.ig (decPhase s.d) .fin) ∧
    ∀ g, ∃ t r, exec (.decOpen g) s = .next t ∧ t.rsp = s.rsp ++ [r] ∧ t.d.ig = (g == 1#1) ∧
      (decPhase t.d, r.status, r.out.length) = decTable s.d.ig (decPhase s.d) .opened

/-! ### The tables (40_range_table, 20_memory) -/

/-- R140, R141: `LK.S2C16` and `LK.S2C8` answer the word of the encode table, zero-extended, and change nothing. -/
def Obligations.LookupReadsTheEncodeTable : Prop :=
  ∀ s : State, s.cfg.ok = true →
    (∀ v, exec (.lkS2c16 v) s = .next
      { s with rsp := s.rsp ++ [⟨.ok, 0#21, [.word ((readEtab16 s.cfg s.mem v).setWidth 32)]⟩] }) ∧
    ∀ v, exec (.lkS2c8 v) s = .next
      { s with rsp := s.rsp ++ [⟨.ok, 0#21, [.word ((readEtab8 s.cfg s.mem v).setWidth 32)]⟩] }

/-- R142: `LK.C2S` answers `hit`, `w8`, `val` in bits 17, 16 and 15..0, changes nothing, and answers 0 for a surrogate and
for an index above `0x10FFFF`. For the code point of a 16-bit symbol `v` the word is `0x20000 | v`, for that of an 8-bit one
`0x30000 | v`; the last two clauses fix where the three fields of a `DTAB` word stand in it and in the result. -/
def Obligations.LookupReadsTheDecodeTable : Prop :=
  ∀ (c : CodePoint) (s : State), s.cfg.ok = true →
    exec (.lkC2s c) s = .next { s with rsp := s.rsp ++ [⟨.ok, 0#21, [.word ((readDtab s.cfg s.mem c).setWidth 32)]⟩] } ∧
    (s.mem = Memory.built → isScalar c = false →
      exec (.lkC2s c) s = .next { s with rsp := s.rsp ++ [⟨.ok, 0#21, [.word 0#32]⟩] }) ∧
    (∀ v : BitVec 16, s.mem = Memory.built → readEtab16 s.cfg s.mem v = c → exec (.lkC2s c) s = .next
      { s with rsp := s.rsp ++ [⟨.ok, 0#21, [.word (0x00020000#32 ||| v.setWidth 32)]⟩] }) ∧
    (∀ v : BitVec 8, s.mem = Memory.built → readEtab8 s.cfg s.mem v = c → exec (.lkC2s c) s = .next
      { s with rsp := s.rsp ++ [⟨.ok, 0#21, [.word (0x00030000#32 ||| v.setWidth 32)]⟩] }) ∧
    (∀ w : DWord, dwordHit w = (w.setWidth 32).getLsbD 17 ∧ dwordW8 w = (w.setWidth 32).getLsbD 16 ∧
      dwordVal w = (w.setWidth 32).extractLsb' 0 16 ∧ (w.setWidth 32).extractLsb' 18 14 = 0#14) ∧
    ∀ (hit w8 : BitVec 1) (val : BitVec 16), ((dword hit w8 val).setWidth 32).extractLsb' 17 1 = hit ∧
      ((dword hit w8 val).setWidth 32).extractLsb' 16 1 = w8 ∧ ((dword hit w8 val).setWidth 32).extractLsb' 0 16 = val

/-- R131: the code point `first + k` of a range has the enumeration index of the ranges before it plus `k`. -/
def Obligations.EnumerationIsInDeclaredOrder : Prop :=
  ∀ (before after : List Range) (r : Range) (k : Nat), k < r.size →
    repertoire (before ++ r :: after) (rangesTotal before + k) = r.first + BitVec.ofNat 21 k

/-- R132, R133: what the built tables hold at and for each enumeration index of both families. -/
def Obligations.BuiltTablesFollowTheEnumeration : Prop :=
  ∀ cfg : Config, cfg.ok = true →
    (∀ e : BitVec 16, readEtab16 cfg Memory.built (bswap16 e) = repertoire cfg.ranges16 e.toNat ∧
      readDtab cfg Memory.built (repertoire cfg.ranges16 e.toNat) = dword 1#1 0#1 (bswap16 e)) ∧
    ∀ e : BitVec 8, readEtab8 cfg Memory.built e = repertoire cfg.ranges8 e.toNat ∧
      readDtab cfg Memory.built (repertoire cfg.ranges8 e.toNat) = dword 1#1 1#1 (e.setWidth 16)

/-- R143, R64, the spec's own inference from R134: the two maps are each other's inverse, the images of the two families are disjoint, and a miss is the all-zero
word. -/
def Obligations.LookupsAreInverse : Prop :=
  ∀ cfg : Config, cfg.ok = true →
    (∀ v, readDtab cfg Memory.built (readEtab16 cfg Memory.built v) = dword 1#1 0#1 v) ∧
    (∀ v : BitVec 8, readDtab cfg Memory.built (readEtab8 cfg Memory.built v) = dword 1#1 1#1 (v.setWidth 16)) ∧
    (∀ c v, readDtab cfg Memory.built c = dword 1#1 0#1 v → readEtab16 cfg Memory.built v = c) ∧
    (∀ c, dwordHit (readDtab cfg Memory.built c) = true → dwordW8 (readDtab cfg Memory.built c) = true →
      ∃ v : BitVec 8, readDtab cfg Memory.built c = dword 1#1 1#1 (v.setWidth 16) ∧
        readEtab8 cfg Memory.built v = c) ∧
    (∀ c, dwordHit (readDtab cfg Memory.built c) = false → readDtab cfg Memory.built c = 0#18) ∧
    (∀ v v', readEtab16 cfg Memory.built v = readEtab16 cfg Memory.built v' → v = v') ∧
    (∀ v v', readEtab8 cfg Memory.built v = readEtab8 cfg Memory.built v' → v = v') ∧
    ∀ v v', readEtab16 cfg Memory.built v ≠ readEtab8 cfg Memory.built v'

/-- R138, under the DEFAULT ranges, which are presumed (assumption 4): `ETAB16[{b1, b2}] = BLK[b2] + b1`, its inverse, and
`ETAB8[b] = 0x1500 + b`. -/
def Obligations.DefaultTablesHaveTheirClosedForm : Prop :=
  (∀ b1 b2 : Byte, (readEtab16 defaultConfig Memory.built (b1 ++ b2)).toNat = defaultBlock b2 + b1.toNat) ∧
  (∀ b : Byte, (readEtab8 defaultConfig Memory.built b).toNat = 0x1500 + b.toNat) ∧
  ∀ (c : CodePoint) (k : BitVec 8), c.toNat - c.toNat % 256 = defaultBlock k →
    readDtab defaultConfig Memory.built c = dword 1#1 0#1 (c.extractLsb' 0 8 ++ k)

/-- R134: whatever the RAMs held, `BUILD` leaves every word of the three tables at its built value. -/
def Obligations.BuilderFillsTheTables : Prop :=
  ∀ (cfg : Config) (m : Memory), cfg.ok = true → m.wf cfg = true → build cfg m = Memory.built

/-! ### Reset (70_reset_and_hazards) and the whole block -/

/-- R30: the state after reset, which is also what `ENC.OPEN 0` and `DEC.OPEN 0` leave. -/
def Obligations.ResetStateHasTheStatedValues : Prop :=
  State.reset.ready = true ∧ State.reset.e = ⟨⟨0#16, 0#5⟩, none, 0#24, 0#24⟩ ∧
  State.reset.d = ⟨⟨0#16, 0#5⟩, false, none, false, none⟩ ∧
  (∀ s, readEtab16 State.reset.cfg State.reset.mem s = repertoire State.reset.cfg.ranges16 (bswap16 s).toNat) ∧
  (∀ s, readEtab8 State.reset.cfg State.reset.mem s = repertoire State.reset.cfg.ranges8 s.toNat) ∧
  (∀ c, readDtab State.reset.cfg State.reset.mem c = builtDtab State.reset.cfg c.toNat) ∧
  exec (.encOpen 0#24) State.reset = .next { State.reset with rsp := [⟨.ok, 0#21, []⟩] } ∧
  exec (.decOpen 0#1) State.reset = .next { State.reset with rsp := [⟨.ok, 0#21, []⟩] }

/-- R330, R331: from ANY contents of the registers and RAMs, a reset request and the sequence after it leave the state of
R30; what the host offered behind the request still waits. That the request is taken at a command boundary, in a step of its
own, is the model's choice (assumption 8). -/
def Obligations.ResetFromAnyStateReachesTheResetState : Prop :=
  ∀ (s : State) (rest : List Input), s.cfg.ok = true → s.mem.wf s.cfg = true → s.inp = .reset :: rest →
    (∀ r, rest ≠ .reset :: r) →
    ∃ s1, step s = .next s1 ∧ s1.ready = false ∧ s1.rsp = s.rsp ∧ step s1 = .next
      { s with mem := Memory.built, ready := true, e := ⟨⟨0#16, 0#5⟩, none, 0#24, 0#24⟩,
               d := ⟨⟨0#16, 0#5⟩, false, none, false, none⟩, inp := rest }

/-- R91, R340: while `READY = 0` no word is taken and no response produced. The rest is the model's choice: that the step runs
the reset sequence, all of it in one step and without a request (assumptions 8, 9, 17, 23), and that a micro-operation waits
like a command word (assumption 20). -/
def Obligations.NoCommandIsAcceptedBeforeReady : Prop :=
  ∀ (s : State) (p : PortWord) (rest : List Input), s.cfg.ok = true → s.ready = false → s.inp = .word p :: rest →
    ∃ t, step s = .next t ∧ t.ready = true ∧ t.inp = s.inp ∧ t.rsp = s.rsp ∧ t.ans = s.ans

/-- R28, R65, R167, the spec's own inference: every step keeps the invariant of the block, the reset sequence establishing
its second half. That a step with `READY = 0` runs that sequence without a request is the model's choice (assumption 23). -/
def Obligations.StepKeepsTheInvariant : Prop :=
  ∀ s t : State, Inv s → step s = .next t → Inv t

/-- The state after reset meets the invariant. -/
def Obligations.ResetMeetsTheInvariant : Prop := Inv State.reset

/-- R91, R342: under the invariant every step completes: no fault and no refusal is reached. What the step is with nothing
offered, and with `READY = 0`, is the model's choice (assumptions 13, 23). -/
def Obligations.StepsUnderTheInvariantComplete : Prop :=
  ∀ s : State, Inv s → ∃ t, step s = .next t

/-- R65, R8: while `READY = 1` no step writes a table; no step ever changes the configuration. -/
def Obligations.TablesAreReadOnlyAfterReady : Prop :=
  ∀ s t : State, step s = .next t → t.cfg = s.cfg ∧
    (s.ready = true → ∀ c a b, readDtab t.cfg t.mem c = readDtab s.cfg s.mem c ∧
      readEtab16 t.cfg t.mem a = readEtab16 s.cfg s.mem a ∧ readEtab8 t.cfg t.mem b = readEtab8 s.cfg s.mem b)

/-- R91, R104: one command word gives exactly one response, of at most three items of its group's kind; with a status other
than OK there are none. -/
def Obligations.OneResponsePerCommand : Prop :=
  ∀ (s : State) (w : CmdWord) (rest : List Input), Inv s → s.ready = true → s.inp = .word (.cmd w) :: rest →
    ∃ t r, step s = .next t ∧ t.inp = rest ∧ t.rsp = s.rsp ++ [r] ∧ t.ans = s.ans ∧ r.out.length ≤ 3 ∧
      (r.status ≠ .ok → r.out = []) ∧ (r.status = .ok → r.info = 0#21) ∧
      ∀ i, decode (.cmd w) = .ok i → ∀ x ∈ r.out, itemOfGroup i x = true

/-- R73, frames: an encode command changes channel E and the response list only, a decode command channel D and the response
list only, a lookup the response list only: every other register, the tables and the ports are as before. -/
def Obligations.CommandsTouchOnlyTheirGroup : Prop :=
  ∀ (i : Instr) (s t : State), exec i s = .next t →
    (isEnc i = true → t = { s with e := t.e, rsp := t.rsp }) ∧
    (isDec i = true → t = { s with d := t.d, rsp := t.rsp }) ∧
    (isLk i = true → t = { s with rsp := t.rsp })

/-- R73, the spec's own inference: two commands of different groups commute: both orders give each command the same response and end in the same
state, but for the order of the two responses. -/
def Obligations.CommandsOfDifferentGroupsCommute : Prop :=
  ∀ (i j : Instr) (s s1 s2 : State),
    ((isEnc i = true ∧ isDec j = true) ∨ (isEnc i = true ∧ isLk j = true) ∨ (isDec i = true ∧ isLk j = true)) →
    exec i s = .next s1 → exec j s = .next s2 →
    ∃ r q t1 t2, s1.rsp = s.rsp ++ [r] ∧ s2.rsp = s.rsp ++ [q] ∧ exec j s1 = .next t1 ∧ exec i s2 = .next t2 ∧
      t1.rsp = s.rsp ++ [r, q] ∧ t2.rsp = s.rsp ++ [q, r] ∧ { t1 with rsp := [] } = { t2 with rsp := [] }

/-- R106: the fields of the header word, and one zero-extended word per item after it; and the numbers of the
codes (R105, R291), the status in the header's bits 31 to 28, an error's in the info of `SessionInError`. -/
def Obligations.ResponseHeaderHoldsItsFields : Prop :=
  ∀ r : Response, r.out.length ≤ 3 → ∃ h, responseWords r = h :: r.out.map itemWord ∧
    h.extractLsb' 28 4 = statusCode r.status ∧ (h.extractLsb' 26 2).toNat = r.out.length ∧
    h.extractLsb' 21 5 = 0#5 ∧ h.extractLsb' 0 21 = r.info ∧ (∀ u, itemWord (.unit u) = u.setWidth 32) ∧
    (∀ b, itemWord (.byte b) = b.setWidth 32) ∧ (∀ w, itemWord (.word w) = w) ∧
    statusCode .ok = 0#4 ∧ statusCode .invalidCodePoint = 1#4 ∧ statusCode .sequenceContinuedAfterFinalByte = 2#4 ∧
    statusCode .paddingMismatch = 3#4 ∧ statusCode .invalidSourceText = 4#4 ∧ statusCode .illegalCommand = 5#4 ∧
    statusCode .sessionInError = 6#4 ∧ errNumber .invalidCodePoint = 1#3 ∧
    errNumber .sequenceContinuedAfterFinalByte = 2#3 ∧ errNumber .paddingMismatch = 3#3 ∧
    errNumber .invalidSourceText = 4#3

/-- R109: the word of each assembler line whose operand is in range, and that a line whose operand is out of range, in
numbers, is an error. For which accumulator a micro-operation's line stands is the caller's (assumption 19). -/
def Obligations.AssembledLinesHaveTheirWords : Prop :=
  ∀ ch : Channel,
    (∀ l : AsmLine, (assembleLine ch l).isSome = l.wellFormed) ∧
    (∀ n ≤ 0xFFFFFF, (assembleLine ch (.encOpen n)).map encode = some (.cmd (0x01000000#32 ||| BitVec.ofNat 32 n))) ∧
    (∀ n ≤ 0xFF, (assembleLine ch (.encByte n)).map encode = some (.cmd (0x02000000#32 ||| BitVec.ofNat 32 n))) ∧
    (assembleLine ch .encFin).map encode = some (.cmd 0x03000000#32) ∧
    (∀ n ≤ 1, (assembleLine ch (.decOpen n)).map encode = some (.cmd (0x11000000#32 ||| BitVec.ofNat 32 n))) ∧
    (∀ n ≤ 0xFFFF, (assembleLine ch (.decUnit n)).map encode = some (.cmd (0x12000000#32 ||| BitVec.ofNat 32 n))) ∧
    (assembleLine ch .decFin).map encode = some (.cmd 0x13000000#32) ∧
    (∀ n ≤ 0xFFFF, (assembleLine ch (.lkS2c16 n)).map encode = some (.cmd (0x21000000#32 ||| BitVec.ofNat 32 n))) ∧
    (∀ n ≤ 0xFF, (assembleLine ch (.lkS2c8 n)).map encode = some (.cmd (0x21010000#32 ||| BitVec.ofNat 32 n))) ∧
    (∀ n ≤ 0x1FFFFF, (assembleLine ch (.lkC2s n)).map encode = some (.cmd (0x22000000#32 ||| BitVec.ofNat 32 n))) ∧
    (assembleLine ch .baIdle).map encode = some (.uop ch 0b000#3) ∧
    (∀ n ≤ 1, (assembleLine ch (.baPush n)).map encode = some (.uop ch (0b010#3 ||| BitVec.ofNat 3 n))) ∧
    (assembleLine ch (.baEmit 16)).map encode = some (.uop ch 0b100#3) ∧
    (assembleLine ch (.baEmit 8)).map encode = some (.uop ch 0b101#3) ∧
    (assembleLine ch .baClear).map encode = some (.uop ch 0b110#3) ∧
    (∀ n > 0xFFFFFF, assembleLine ch (.encOpen n) = none) ∧ (∀ n > 0xFF, assembleLine ch (.encByte n) = none) ∧
    (∀ n > 1, assembleLine ch (.decOpen n) = none) ∧ (∀ n > 0xFFFF, assembleLine ch (.decUnit n) = none) ∧
    (∀ n > 0xFFFF, assembleLine ch (.lkS2c16 n) = none) ∧ (∀ n > 0xFF, assembleLine ch (.lkS2c8 n) = none) ∧
    (∀ n > 0x1FFFFF, assembleLine ch (.lkC2s n) = none) ∧ (∀ n > 1, assembleLine ch (.baPush n) = none) ∧
    ∀ n, n ≠ 16 → n ≠ 8 → assembleLine ch (.baEmit n) = none

/-! ### Streams (44_streaming) -/

/-- R263, the spec's own inference: where a run of commands is cut into chunks changes nothing: running them at once is running the one part, then the
other. -/
def Obligations.ChunkBoundariesChangeNothing : Prop :=
  ∀ (is js : List Instr) (s : State), s.cfg.ok = true → s.ready = true → s.inp = [] →
    runCommands (is ++ js) s =
      (match runCommands is s with
        | .next t => runCommands js t
        | .fault f => .fault f
        | .refused r => .refused r)

/-- R196, the spec's own inference: the responses of `encode` on every byte sequence, in order. -/
def Obligations.EncodeHasItsClosedForm : Prop :=
  ∀ (bs : List Byte) (s : State), TablesReady s → s.ready = true → s.inp = [] →
    ∃ t, runCommands (expand (.encode bs)) s = .next t ∧
      responsesSince s t = okUnits [] :: encodeResponses s.cfg bs ∧
      t = { s with e := ⟨⟨0#16, 0#5⟩, none, 0#24, 0#24⟩, rsp := t.rsp }

/-- R227, the spec's own inference: the value of `decode` on every text of scalar values. -/
def Obligations.DecodeHasItsClosedForm : Prop :=
  ∀ (cs : List CodePoint) (g : BitVec 1) (s : State), TablesReady s → s.ready = true → s.inp = [] →
    (∀ c ∈ cs, isScalar c = true) →
    ∃ t, runCommands (expand (.decode (cs.flatMap utf16) g)) s = .next t ∧
      decodeValue (responsesSince s t) = decodedText s.cfg s.mem (g == 1#1) false cs

/-- R228, the spec's own inference: decoding what was encoded gives the bytes back, every command answering OK: for every byte sequence, and for every
wrap length provided that wrapping is off or garbage is ignored. -/
def Obligations.DecodeOfEncodedBytesIsTheBytes : Prop :=
  ∀ (bs : List Byte) (wrap : BitVec 24) (g : BitVec 1) (s : State), TablesReady s → s.ready = true → s.inp = [] →
    (wrap = 0#24 ∨ g = 1#1) →
    ∃ t u, runCommands ([.encOpen wrap] ++ bs.map .encByte ++ [.encFin]) s = .next t ∧
      runCommands (expand (.decode (txtOf (responsesSince s t)) g)) t = .next u ∧
      decodeValue (responsesSince t u) = .bytes bs

/-- R266, the spec's own inference from R135 and R223: the line break is one unit and is garbage: `InvalidCodePoint` naming it with `D.IG = 0`, skipped with `D.IG = 1`. -/
def Obligations.LineBreakIsGarbageToTheDecoder : Prop :=
  ∀ s : State, TablesReady s → s.d.err = none → s.d.hs = none →
    utf16 s.cfg.wrapCp = [s.cfg.wrapCp.setWidth 16] ∧
    (s.d.ig = false → exec (.decUnit (s.cfg.wrapCp.setWidth 16)) s = .next
      { s with d := { s.d with err := some ⟨.invalidCodePoint, s.cfg.wrapCp⟩ },
               rsp := s.rsp ++ [⟨.invalidCodePoint, s.cfg.wrapCp, []⟩] }) ∧
    (s.d.ig = true → exec (.decUnit (s.cfg.wrapCp.setWidth 16)) s = .next
      { s with rsp := s.rsp ++ [⟨.ok, 0#21, []⟩] })
end

