-- ==== Sys2Proof/Laws/Acc.lean ====
section
/-! SUPPORT. What the accumulator's operations can do (41_bit_accumulator R162 to R165), each said once. -/

namespace Sys2Proof.Machine

/-- A push is refused at `n = 16`, or shifts the bit in and counts it. -/
theorem accPush_cases (b : BitVec 1) (a : Acc) :
    (a.n = 16#5 ∧ accPush b a = (a, ⟨false, 0#16, true⟩)) ∨
      (a.n ≠ 16#5 ∧ accPush b a = (⟨(a.z <<< 1) + b.setWidth 16, a.n + 1#5⟩, noAnswer)) := by
  by_cases h : a.n = 16#5 <;> simp [accPush, h]

/-- An emit at the count's width answers the value and empties the accumulator; at any other width it does nothing. -/
theorem accEmit_cases (width : BitVec 5) (a : Acc) :
    (a.n = width ∧ accEmit width a = (Acc.empty, ⟨true, a.z, false⟩)) ∨
      (a.n ≠ width ∧ accEmit width a = (a, noAnswer)) := by
  by_cases h : a.n = width <;> simp [accEmit, h, Acc.empty]

theorem accClear_eq (a : Acc) : accClear a = (Acc.empty, noAnswer) := rfl

/-- A push below 16 in numbers: no bit is lost. -/
theorem accPush_toNat {a : Acc} (b : BitVec 1) (h : AccWf a) (hn : a.n.toNat < 16) :
    (accPush b a).1.n.toNat = a.n.toNat + 1 ∧ (accPush b a).1.z.toNat = 2 * a.z.toNat + b.toNat := by
  have hne : a.n ≠ 16#5 := fun e => by simp [e] at hn
  have hz : a.z.toNat < 2 ^ 15 := lt_of_lt_of_le h.2 (Nat.pow_le_pow_right (by norm_num) (by omega))
  have hb := b.isLt
  simp only [accPush, hne, if_false]
  constructor
  · simp [BitVec.toNat_add]; omega
  · simp [BitVec.toNat_add, BitVec.toNat_shiftLeft, Nat.shiftLeft_eq]; omega

theorem accWf_empty : AccWf Acc.empty := by simp [AccWf, Acc.empty]

theorem pushBits_zero (width : BitVec 5) (v : BitVec 16) (a : Acc) : pushBits width 0 v a = (a, []) := rfl

/-- One round of `BA_PUSHBITS` that does not reach the width. -/
theorem pushBits_succ_short {width : BitVec 5} {a : Acc} (k : Nat) (v : BitVec 16)
    (h : (accPush (BitVec.ofBool (v.getLsbD k)) a).1.n ≠ width) :
    pushBits width (k + 1) v a = pushBits width k v (accPush (BitVec.ofBool (v.getLsbD k)) a).1 := by
  simp [pushBits, accEmit, h, noAnswer]

/-- One round of `BA_PUSHBITS` that reaches the width. -/
theorem pushBits_succ_full {width : BitVec 5} {a : Acc} (k : Nat) (v : BitVec 16)
    (h : (accPush (BitVec.ofBool (v.getLsbD k)) a).1.n = width) :
    pushBits width (k + 1) v a =
      ((pushBits width k v Acc.empty).1,
        (accPush (BitVec.ofBool (v.getLsbD k)) a).1.z :: (pushBits width k v Acc.empty).2) := by
  simp [pushBits, accEmit, h, Acc.empty]

/-- The high bits go first: pushing `j + k` bits is pushing the upper `j`, then the lower `k`. -/
theorem pushBits_add (width : BitVec 5) (j k : Nat) (v : BitVec 16) (a : Acc) :
    pushBits width (j + k) v a =
      ((pushBits width k v (pushBits width j (v >>> k) a).1).1,
        (pushBits width j (v >>> k) a).2 ++ (pushBits width k v (pushBits width j (v >>> k) a).1).2) := by
  induction j generalizing a with
  | zero => simp [pushBits_zero]
  | succ j ih =>
    have hb : (v >>> k).getLsbD j = v.getLsbD (j + k) := by simp [Nat.add_comm]
    have e : j + 1 + k = j + k + 1 := by omega
    rw [e]
    simp only [pushBits, hb, ih]
    split <;> simp

theorem bit_step (v k : Nat) : v % 2 ^ (k + 1) = (v / 2 ^ k % 2) * 2 ^ k + v % 2 ^ k := by
  rw [Nat.pow_succ, Nat.mod_mul, Nat.mul_comm, Nat.add_comm]

theorem ofBool_getLsbD_toNat (v : BitVec 16) (k : Nat) :
    (BitVec.ofBool (v.getLsbD k)).toNat = v.toNat / 2 ^ k % 2 := by
  rw [BitVec.getLsbD, Nat.testBit_eq_decide_div_mod_eq]
  have : v.toNat / 2 ^ k % 2 = 0 ∨ v.toNat / 2 ^ k % 2 = 1 := by omega
  rcases this with h | h <;> simp [h]

/-- `BA_PUSHBITS` short of the width: the bits are shifted in and nothing is emitted. -/
theorem pushBits_short {width : BitVec 5} {a : Acc} (k : Nat) (v : BitVec 16) (h : AccWf a)
    (hw : width.toNat ≤ 16) (hk : a.n.toNat + k < width.toNat) :
    (pushBits width k v a).2 = [] ∧ (pushBits width k v a).1.n.toNat = a.n.toNat + k ∧
      (pushBits width k v a).1.z.toNat = a.z.toNat * 2 ^ k + v.toNat % 2 ^ k := by
  induction k generalizing a with
  | zero => simp [pushBits_zero, Nat.mod_one]
  | succ k ih =>
    obtain ⟨hn, hz⟩ := accPush_toNat (BitVec.ofBool (v.getLsbD k)) h (by omega)
    have hne : (accPush (BitVec.ofBool (v.getLsbD k)) a).1.n ≠ width := fun e => by rw [e] at hn; omega
    have hb := (BitVec.ofBool (v.getLsbD k)).isLt
    have hwf : AccWf (accPush (BitVec.ofBool (v.getLsbD k)) a).1 := by
      refine ⟨by omega, ?_⟩
      rw [hn, hz, Nat.pow_succ]
      have := h.2
      omega
    rw [pushBits_succ_short k v hne]
    obtain ⟨i1, i2, i3⟩ := ih hwf (by omega)
    refine ⟨i1, by omega, ?_⟩
    rw [i3, hz, ofBool_getLsbD_toNat, bit_step, Nat.pow_succ]
    ring

/-- `BA_PUSHBITS` to exactly the width: one symbol, and the accumulator is left empty. -/
theorem pushBits_fill {width : BitVec 5} {a : Acc} (k : Nat) (v : BitVec 16) (h : AccWf a)
    (hw : width.toNat ≤ 16) (hk : a.n.toNat + k = width.toNat) (hpos : 0 < k) :
    ∃ sym, pushBits width k v a = (Acc.empty, [sym]) ∧ sym.toNat = a.z.toNat * 2 ^ k + v.toNat % 2 ^ k := by
  induction k generalizing a with
  | zero => omega
  | succ k ih =>
    obtain ⟨hn, hz⟩ := accPush_toNat (BitVec.ofBool (v.getLsbD k)) h (by omega)
    have hb := (BitVec.ofBool (v.getLsbD k)).isLt
    have hval : (accPush (BitVec.ofBool (v.getLsbD k)) a).1.z.toNat * 2 ^ k + v.toNat % 2 ^ k =
        a.z.toNat * 2 ^ (k + 1) + v.toNat % 2 ^ (k + 1) := by
      rw [hz, ofBool_getLsbD_toNat, bit_step, Nat.pow_succ]
      ring
    by_cases hk0 : k = 0
    · subst hk0
      have heq : (accPush (BitVec.ofBool (v.getLsbD 0)) a).1.n = width := BitVec.eq_of_toNat_eq (by omega)
      refine ⟨_, pushBits_succ_full 0 v heq, ?_⟩
      simpa [Nat.mod_one] using hval
    · have hne : (accPush (BitVec.ofBool (v.getLsbD k)) a).1.n ≠ width := fun e => by rw [e] at hn; omega
      have hwf : AccWf (accPush (BitVec.ofBool (v.getLsbD k)) a).1 := by
        refine ⟨by omega, ?_⟩
        rw [hn, hz, Nat.pow_succ]
        have := h.2
        omega
      rw [pushBits_succ_short k v hne]
      obtain ⟨sym, e, hs⟩ := ih hwf (by omega) (by omega)
      exact ⟨sym, e, by rw [hs, hval]⟩

/-- Padding does nothing to an accumulator that holds 8 bits or more (R193: zero iterations). -/
theorem padTo8_of_le {k : Nat} {a : Acc} (h : 8 ≤ a.n.toNat) : padTo8 k a = a := by
  cases k with
  | zero => rfl
  | succ k =>
    have : ¬a.n < 8#5 := by simp [BitVec.lt_def]; omega
    simp [padTo8, this]

end Sys2Proof.Machine
end

