-- ==== Sys2Proof/Laws/Memory.lean ====
section
/-! SUPPORT. The laws of the RAMs: a read after a write, the canonical form and its uniqueness, and that every memory
operation keeps it. -/

namespace Sys2Proof.Machine

variable {w : Nat} {bg : Nat → BitVec w} {m : List (Nat × BitVec w)} {size i j : Nat} {v : BitVec w}

/-- Every index listed is at least `lo`. -/
def RamFrom (lo : Nat) (m : List (Nat × BitVec w)) : Prop := ∀ p ∈ m, lo ≤ p.1

theorem ramRead_below (h : RamFrom j m) (hi : i < j) : ramRead bg m i = bg i := by
  induction m with
  | nil => rfl
  | cons p m ih =>
    obtain ⟨k, x⟩ := p
    have hk : j ≤ k := h (k, x) (by simp)
    have : i ≠ k := by omega
    simp only [ramRead, this, if_false]
    exact ih fun q hq => h q (by simp [hq])

theorem ramWf_cons_iff {k : Nat} {x : BitVec w} :
    ramWf size bg ((k, x) :: m) = true ↔
      k < size ∧ x ≠ bg k ∧ RamFrom (k + 1) m ∧ ramWf size bg m = true := by
  induction m generalizing k x with
  | nil => simp [ramWf, RamFrom]
  | cons p m ih =>
    obtain ⟨k', x'⟩ := p
    have ih' := ih (k := k') (x := x')
    constructor
    · intro h
      simp only [ramWf, Bool.and_eq_true, decide_eq_true_eq] at h
      obtain ⟨⟨hlt, hx⟩, hm⟩ := h
      obtain ⟨hs, -, hf, -⟩ := ih'.1 hm
      refine ⟨by omega, hx, ?_, hm⟩
      intro q hq
      rcases List.mem_cons.1 hq with rfl | hq
      · exact hlt
      · have := hf q hq; omega
    · rintro ⟨-, hx, hf, hm⟩
      have : k < k' := hf (k', x') (by simp)
      simp [ramWf, this, hx, hm]

theorem ramRead_ramWrite_same (h : ramWf size bg m = true) : ramRead bg (ramWrite bg m i v) i = v := by
  induction m with
  | nil => by_cases hv : v = bg i <;> simp [ramWrite, ramRead, hv]
  | cons p m ih =>
    obtain ⟨k, x⟩ := p
    obtain ⟨-, -, hf, hm⟩ := ramWf_cons_iff.1 h
    by_cases h1 : i < k
    · by_cases hv : v = bg i
      · have : RamFrom (i + 1) ((k, x) :: m) := by
          intro q hq
          rcases List.mem_cons.1 hq with rfl | hq
          · exact h1
          · have := hf q hq; omega
        simp only [ramWrite, h1, hv, if_true]
        exact ramRead_below this (by omega)
      · simp [ramWrite, ramRead, h1, hv]
    · by_cases h2 : i = k
      · subst h2
        by_cases hv : v = bg i
        · simp only [ramWrite, h1, hv, if_true, if_false]
          exact ramRead_below hf (by omega)
        · simp [ramWrite, ramRead, hv]
      · simp [ramWrite, ramRead, h1, h2, ih hm]

theorem ramRead_ramWrite_other (h : ramWf size bg m = true) (hij : j ≠ i) :
    ramRead bg (ramWrite bg m i v) j = ramRead bg m j := by
  induction m with
  | nil => by_cases hv : v = bg i <;> simp [ramWrite, ramRead, hv, hij]
  | cons p m ih =>
    obtain ⟨k, x⟩ := p
    obtain ⟨-, -, hf, hm⟩ := ramWf_cons_iff.1 h
    by_cases h1 : i < k
    · by_cases hv : v = bg i <;> simp [ramWrite, ramRead, h1, hv, hij]
    · by_cases h2 : i = k
      · subst h2
        by_cases hv : v = bg i <;> simp [ramWrite, ramRead, hv, hij]
      · simp only [ramWrite, h1, h2, if_false, ramRead, ih hm]

theorem ramFrom_ramWrite (h : RamFrom j m) (hi : j ≤ i) : RamFrom j (ramWrite bg m i v) := by
  induction m with
  | nil =>
    by_cases hv : v = bg i <;> simp [ramWrite, hv, RamFrom, hi]
  | cons p m ih =>
    obtain ⟨k, x⟩ := p
    have hk : j ≤ k := h (k, x) (by simp)
    have hm : RamFrom j m := fun q hq => h q (by simp [hq])
    intro q hq
    unfold ramWrite at hq
    split_ifs at hq
    · exact h q hq
    · rcases List.mem_cons.1 hq with rfl | hq
      · exact hi
      · exact h q hq
    · exact hm q hq
    · rcases List.mem_cons.1 hq with rfl | hq
      · exact hi
      · exact hm q hq
    · rcases List.mem_cons.1 hq with rfl | hq
      · exact hk
      · exact ih hm q hq

theorem ramWf_ramWrite (h : ramWf size bg m = true) (hi : i < size) : ramWf size bg (ramWrite bg m i v) = true := by
  induction m with
  | nil => by_cases hv : v = bg i <;> simp [ramWrite, ramWf, hv, hi]
  | cons p m ih =>
    obtain ⟨k, x⟩ := p
    obtain ⟨hk, hx, hf, hm⟩ := ramWf_cons_iff.1 h
    unfold ramWrite
    split_ifs with h1 hv h2 hv
    · exact h
    · refine ramWf_cons_iff.2 ⟨hi, hv, ?_, h⟩
      intro q hq
      rcases List.mem_cons.1 hq with rfl | hq
      · exact h1
      · have := hf q hq; omega
    · exact hm
    · subst h2
      exact ramWf_cons_iff.2 ⟨hi, hv, hf, hm⟩
    · exact ramWf_cons_iff.2 ⟨hk, hx, ramFrom_ramWrite hf (by omega), ih hm⟩

/-- The canonical form is canonical: a RAM that reads as the background everywhere lists nothing. -/
theorem ramWf_eq_nil (h : ramWf size bg m = true) (hr : ∀ i < size, ramRead bg m i = bg i) : m = [] := by
  cases m with
  | nil => rfl
  | cons p m =>
    obtain ⟨k, x⟩ := p
    obtain ⟨hk, hx, -, -⟩ := ramWf_cons_iff.1 h
    exact absurd (by simpa [ramRead] using hr k hk) hx

/-- Equal memories are equal data: two canonical lists that read alike are the same list. -/
theorem ramWf_ext {m' : List (Nat × BitVec w)} (h : ramWf size bg m = true) (h' : ramWf size bg m' = true)
    (hr : ∀ i < size, ramRead bg m i = ramRead bg m' i) : m = m' := by
  induction m generalizing m' with
  | nil => exact (ramWf_eq_nil h' fun i hi => (hr i hi).symm).symm
  | cons p m ih =>
    obtain ⟨k, x⟩ := p
    obtain ⟨hk, hx, hf, hm⟩ := ramWf_cons_iff.1 h
    cases m' with
    | nil => exact absurd (by simpa [ramRead] using hr k hk) hx
    | cons p' m' =>
      obtain ⟨k', x'⟩ := p'
      obtain ⟨hk', hx', hf', hm'⟩ := ramWf_cons_iff.1 h'
      have hkk : k = k' := by
        rcases Nat.lt_trichotomy k k' with hlt | heq | hlt
        · have hne : k ≠ k' := by omega
          have := hr k hk
          simp only [ramRead, if_true, hne, if_false] at this
          rw [ramRead_below hf' (by omega)] at this
          exact absurd this hx
        · exact heq
        · have hne : k' ≠ k := by omega
          have := hr k' hk'
          simp only [ramRead, if_true, hne, if_false] at this
          rw [ramRead_below hf (by omega)] at this
          exact absurd this.symm hx'
      subst hkk
      have hxx : x = x' := by simpa [ramRead] using hr k hk
      subst hxx
      have : m = m' := by
        refine ih hm hm' fun i hi => ?_
        by_cases hik : i = k
        · subst hik
          rw [ramRead_below hf (by omega), ramRead_below hf' (by omega)]
        · simpa [ramRead, hik] using hr i hi
      rw [this]

@[simp] theorem memory_wf_iff (cfg : Config) (m : Memory) :
    m.wf cfg = true ↔ ramWf nSym16 (builtEtab16 cfg) m.etab16 = true ∧ ramWf nSym8 (builtEtab8 cfg) m.etab8 = true ∧
      ramWf dtabSize (builtDtab cfg) m.dtab = true := by
  simp [Memory.wf, and_assoc]

theorem memory_wf_built (cfg : Config) : Memory.built.wf cfg = true := by simp [Memory.built, ramWf]

theorem memory_wf_reset : State.reset.mem.wf State.reset.cfg = true := memory_wf_built _

theorem memory_wf_writeEtab16 {cfg : Config} {m : Memory} (h : m.wf cfg = true) (s : BitVec 16) (cp : CodePoint) :
    (writeEtab16 cfg m s cp).wf cfg = true := by
  have := s.isLt
  simp only [memory_wf_iff] at h ⊢
  exact ⟨ramWf_ramWrite h.1 (by simpa [nSym16] using this), h.2.1, h.2.2⟩

theorem memory_wf_writeEtab8 {cfg : Config} {m : Memory} (h : m.wf cfg = true) (s : BitVec 8) (cp : CodePoint) :
    (writeEtab8 cfg m s cp).wf cfg = true := by
  have := s.isLt
  simp only [memory_wf_iff] at h ⊢
  exact ⟨h.1, ramWf_ramWrite h.2.1 (by simpa [nSym8] using this), h.2.2⟩

theorem memory_wf_writeDtab {cfg : Config} {m : Memory} (h : m.wf cfg = true) (c : CodePoint) (x : DWord) :
    (writeDtab cfg m c x).wf cfg = true := by
  have := c.isLt
  simp only [memory_wf_iff] at h ⊢
  exact ⟨h.1, h.2.1, ramWf_ramWrite h.2.2 (by simpa [dtabSize] using this)⟩

theorem memory_wf_buildClear {cfg : Config} {m : Memory} (h : m.wf cfg = true) (n : Nat) :
    (buildClear cfg n m).wf cfg = true := by
  induction n with
  | zero => exact h
  | succ n ih => exact memory_wf_writeDtab ih _ _

theorem memory_wf_buildRange16 {cfg : Config} (n : Nat) (cp : CodePoint) (st : BitVec 17 × Memory)
    (h : st.2.wf cfg = true) : (buildRange16 cfg n cp st).2.wf cfg = true := by
  induction n generalizing cp st with
  | zero => exact h
  | succ n ih => exact ih _ _ (memory_wf_writeDtab (memory_wf_writeEtab16 h _ _) _ _)

theorem memory_wf_buildRange8 {cfg : Config} (n : Nat) (cp : CodePoint) (st : BitVec 17 × Memory)
    (h : st.2.wf cfg = true) : (buildRange8 cfg n cp st).2.wf cfg = true := by
  induction n generalizing cp st with
  | zero => exact h
  | succ n ih => exact ih _ _ (memory_wf_writeDtab (memory_wf_writeEtab8 h _ _) _ _)

theorem memory_wf_buildRom16 {cfg : Config} {st : BitVec 17 × Memory} (h : st.2.wf cfg = true) :
    (buildRom16 cfg st).2.wf cfg = true := by
  unfold buildRom16
  generalize cfg.ranges16 = rs
  induction rs generalizing st with
  | nil => exact h
  | cons r rs ih => exact ih (memory_wf_buildRange16 _ _ _ h)

theorem memory_wf_buildRom8 {cfg : Config} {st : BitVec 17 × Memory} (h : st.2.wf cfg = true) :
    (buildRom8 cfg st).2.wf cfg = true := by
  unfold buildRom8
  generalize cfg.ranges8 = rs
  induction rs generalizing st with
  | nil => exact h
  | cons r rs ih => exact ih (memory_wf_buildRange8 _ _ _ h)

/-- The builder keeps the canonical form, whatever the RAMs held. -/
theorem memory_wf_build {cfg : Config} {m : Memory} (h : m.wf cfg = true) : (build cfg m).wf cfg = true :=
  memory_wf_buildRom8 (memory_wf_buildRom16 (memory_wf_buildClear h _))

section TypedReads

variable {cfg : Config} {mem : Memory} (h : mem.wf cfg = true)
include h

theorem readEtab16_writeEtab16 (s t : BitVec 16) (cp : CodePoint) :
    readEtab16 cfg (writeEtab16 cfg mem s cp) t = if t = s then cp else readEtab16 cfg mem t := by
  have hw := ((memory_wf_iff _ _).1 h).1
  split_ifs with hts
  · subst hts; exact ramRead_ramWrite_same hw
  · exact ramRead_ramWrite_other hw fun e => hts (BitVec.eq_of_toNat_eq e)

theorem readEtab8_writeEtab8 (s t : BitVec 8) (cp : CodePoint) :
    readEtab8 cfg (writeEtab8 cfg mem s cp) t = if t = s then cp else readEtab8 cfg mem t := by
  have hw := ((memory_wf_iff _ _).1 h).2.1
  split_ifs with hts
  · subst hts; exact ramRead_ramWrite_same hw
  · exact ramRead_ramWrite_other hw fun e => hts (BitVec.eq_of_toNat_eq e)

theorem readDtab_writeDtab (c c' : CodePoint) (x : DWord) :
    readDtab cfg (writeDtab cfg mem c x) c' = if c' = c then x else readDtab cfg mem c' := by
  have hw := ((memory_wf_iff _ _).1 h).2.2
  split_ifs with hts
  · subst hts; exact ramRead_ramWrite_same hw
  · exact ramRead_ramWrite_other hw fun e => hts (BitVec.eq_of_toNat_eq e)

end TypedReads

@[simp] theorem readEtab16_writeDtab (cfg : Config) (m : Memory) (c : CodePoint) (x : DWord) (t : BitVec 16) :
    readEtab16 cfg (writeDtab cfg m c x) t = readEtab16 cfg m t := rfl
@[simp] theorem readEtab8_writeDtab (cfg : Config) (m : Memory) (c : CodePoint) (x : DWord) (t : BitVec 8) :
    readEtab8 cfg (writeDtab cfg m c x) t = readEtab8 cfg m t := rfl
@[simp] theorem readDtab_writeEtab16 (cfg : Config) (m : Memory) (s : BitVec 16) (cp c : CodePoint) :
    readDtab cfg (writeEtab16 cfg m s cp) c = readDtab cfg m c := rfl
@[simp] theorem readDtab_writeEtab8 (cfg : Config) (m : Memory) (s : BitVec 8) (cp c : CodePoint) :
    readDtab cfg (writeEtab8 cfg m s cp) c = readDtab cfg m c := rfl
@[simp] theorem readEtab8_writeEtab16 (cfg : Config) (m : Memory) (s : BitVec 16) (cp : CodePoint) (t : BitVec 8) :
    readEtab8 cfg (writeEtab16 cfg m s cp) t = readEtab8 cfg m t := rfl
@[simp] theorem readEtab16_writeEtab8 (cfg : Config) (m : Memory) (s : BitVec 8) (cp : CodePoint) (t : BitVec 16) :
    readEtab16 cfg (writeEtab8 cfg m s cp) t = readEtab16 cfg m t := rfl

@[simp] theorem readEtab16_built (cfg : Config) (s : BitVec 16) :
    readEtab16 cfg Memory.built s = repertoire cfg.ranges16 (bswap16 s).toNat := by
  simp [readEtab16, Memory.built, ramRead, builtEtab16]

@[simp] theorem readEtab8_built (cfg : Config) (s : BitVec 8) :
    readEtab8 cfg Memory.built s = repertoire cfg.ranges8 s.toNat := rfl

@[simp] theorem readDtab_built (cfg : Config) (c : CodePoint) :
    readDtab cfg Memory.built c = builtDtab cfg c.toNat := rfl

end Sys2Proof.Machine
end

