-- ==== Sys2Proof/Laws/State.lean ====
section
/-! SUPPORT. What each named update leaves in each field of the state, so that no proof unfolds a record update. -/

namespace Sys2Proof.Machine

section respondFields

variable (r : Response) (s : State)

@[simp] theorem respond_cfg : (respond r s).cfg = s.cfg := rfl
@[simp] theorem respond_mem : (respond r s).mem = s.mem := rfl
@[simp] theorem respond_ready : (respond r s).ready = s.ready := rfl
@[simp] theorem respond_e : (respond r s).e = s.e := rfl
@[simp] theorem respond_d : (respond r s).d = s.d := rfl
@[simp] theorem respond_inp : (respond r s).inp = s.inp := rfl
@[simp] theorem respond_rsp : (respond r s).rsp = s.rsp ++ [r] := rfl
@[simp] theorem respond_ans : (respond r s).ans = s.ans := rfl

end respondFields

section setAccEFields

variable (a : Acc) (s : State)

@[simp] theorem setAccE_cfg : (setAcc .e a s).cfg = s.cfg := rfl
@[simp] theorem setAccE_mem : (setAcc .e a s).mem = s.mem := rfl
@[simp] theorem setAccE_ready : (setAcc .e a s).ready = s.ready := rfl
@[simp] theorem setAccE_e : (setAcc .e a s).e = ⟨a, s.e.pend, s.e.wrap, s.e.col⟩ := rfl
@[simp] theorem setAccE_d : (setAcc .e a s).d = s.d := rfl
@[simp] theorem setAccE_inp : (setAcc .e a s).inp = s.inp := rfl
@[simp] theorem setAccE_rsp : (setAcc .e a s).rsp = s.rsp := rfl
@[simp] theorem setAccE_ans : (setAcc .e a s).ans = s.ans := rfl

end setAccEFields

section setAccDFields

variable (a : Acc) (s : State)

@[simp] theorem setAccD_cfg : (setAcc .d a s).cfg = s.cfg := rfl
@[simp] theorem setAccD_mem : (setAcc .d a s).mem = s.mem := rfl
@[simp] theorem setAccD_ready : (setAcc .d a s).ready = s.ready := rfl
@[simp] theorem setAccD_e : (setAcc .d a s).e = s.e := rfl
@[simp] theorem setAccD_d : (setAcc .d a s).d = ⟨a, s.d.term, s.d.hs, s.d.ig, s.d.err⟩ := rfl
@[simp] theorem setAccD_inp : (setAcc .d a s).inp = s.inp := rfl
@[simp] theorem setAccD_rsp : (setAcc .d a s).rsp = s.rsp := rfl
@[simp] theorem setAccD_ans : (setAcc .d a s).ans = s.ans := rfl

end setAccDFields

section answerUopEFields

variable (x : Acc × Answer) (s : State)

@[simp] theorem answerUopE_cfg : (answerUop .e x s).cfg = s.cfg := rfl
@[simp] theorem answerUopE_mem : (answerUop .e x s).mem = s.mem := rfl
@[simp] theorem answerUopE_ready : (answerUop .e x s).ready = s.ready := rfl
@[simp] theorem answerUopE_e : (answerUop .e x s).e = ⟨x.1, s.e.pend, s.e.wrap, s.e.col⟩ := rfl
@[simp] theorem answerUopE_d : (answerUop .e x s).d = s.d := rfl
@[simp] theorem answerUopE_inp : (answerUop .e x s).inp = s.inp := rfl
@[simp] theorem answerUopE_rsp : (answerUop .e x s).rsp = s.rsp := rfl
@[simp] theorem answerUopE_ans : (answerUop .e x s).ans = s.ans ++ [(.e, x.2)] := rfl

end answerUopEFields

section answerUopDFields

variable (x : Acc × Answer) (s : State)

@[simp] theorem answerUopD_cfg : (answerUop .d x s).cfg = s.cfg := rfl
@[simp] theorem answerUopD_mem : (answerUop .d x s).mem = s.mem := rfl
@[simp] theorem answerUopD_ready : (answerUop .d x s).ready = s.ready := rfl
@[simp] theorem answerUopD_e : (answerUop .d x s).e = s.e := rfl
@[simp] theorem answerUopD_d : (answerUop .d x s).d = ⟨x.1, s.d.term, s.d.hs, s.d.ig, s.d.err⟩ := rfl
@[simp] theorem answerUopD_inp : (answerUop .d x s).inp = s.inp := rfl
@[simp] theorem answerUopD_rsp : (answerUop .d x s).rsp = s.rsp := rfl
@[simp] theorem answerUopD_ans : (answerUop .d x s).ans = s.ans ++ [(.d, x.2)] := rfl

end answerUopDFields

section assertResetFields

variable (s : State)

@[simp] theorem assertReset_cfg : (assertReset s).cfg = s.cfg := rfl
@[simp] theorem assertReset_mem : (assertReset s).mem = s.mem := rfl
@[simp] theorem assertReset_ready : (assertReset s).ready = false := rfl
@[simp] theorem assertReset_e : (assertReset s).e = s.e := rfl
@[simp] theorem assertReset_d : (assertReset s).d = s.d := rfl
@[simp] theorem assertReset_inp : (assertReset s).inp = s.inp := rfl
@[simp] theorem assertReset_rsp : (assertReset s).rsp = s.rsp := rfl
@[simp] theorem assertReset_ans : (assertReset s).ans = s.ans := rfl

end assertResetFields

section offerWordsFields

variable (ps : List PortWord) (s : State)

@[simp] theorem offerWords_cfg : (offerWords ps s).cfg = s.cfg := rfl
@[simp] theorem offerWords_mem : (offerWords ps s).mem = s.mem := rfl
@[simp] theorem offerWords_ready : (offerWords ps s).ready = s.ready := rfl
@[simp] theorem offerWords_e : (offerWords ps s).e = s.e := rfl
@[simp] theorem offerWords_d : (offerWords ps s).d = s.d := rfl
@[simp] theorem offerWords_inp : (offerWords ps s).inp = s.inp ++ ps.map .word := rfl
@[simp] theorem offerWords_rsp : (offerWords ps s).rsp = s.rsp := rfl
@[simp] theorem offerWords_ans : (offerWords ps s).ans = s.ans := rfl

end offerWordsFields

section offerFirstFields

variable (p : PortWord) (s : State)

@[simp] theorem offerFirst_cfg : (offerFirst p s).cfg = s.cfg := rfl
@[simp] theorem offerFirst_mem : (offerFirst p s).mem = s.mem := rfl
@[simp] theorem offerFirst_ready : (offerFirst p s).ready = true := rfl
@[simp] theorem offerFirst_e : (offerFirst p s).e = s.e := rfl
@[simp] theorem offerFirst_d : (offerFirst p s).d = s.d := rfl
@[simp] theorem offerFirst_inp : (offerFirst p s).inp = .word p :: s.inp := rfl
@[simp] theorem offerFirst_rsp : (offerFirst p s).rsp = s.rsp := rfl
@[simp] theorem offerFirst_ans : (offerFirst p s).ans = s.ans := rfl

end offerFirstFields

section withFetchWordFields

variable (s : State) (nbits w : Nat)

@[simp] theorem withFetchWord_cfg : (s.withFetchWord nbits w).cfg = s.cfg := rfl
@[simp] theorem withFetchWord_mem : (s.withFetchWord nbits w).mem = s.mem := rfl
@[simp] theorem withFetchWord_ready : (s.withFetchWord nbits w).ready = true := rfl
@[simp] theorem withFetchWord_e : (s.withFetchWord nbits w).e = s.e := rfl
@[simp] theorem withFetchWord_d : (s.withFetchWord nbits w).d = s.d := rfl
@[simp] theorem withFetchWord_inp : (s.withFetchWord nbits w).inp = .word (tableWord nbits w) :: s.inp := rfl
@[simp] theorem withFetchWord_rsp : (s.withFetchWord nbits w).rsp = s.rsp := rfl
@[simp] theorem withFetchWord_ans : (s.withFetchWord nbits w).ans = s.ans := rfl

end withFetchWordFields

@[simp] theorem accOf_e (s : State) : accOf .e s = s.e.ba := rfl
@[simp] theorem accOf_d (s : State) : accOf .d s = s.d.ba := rfl

section freshFields

variable (wrap : BitVec 24) (e : EncChan) (ig : Bool) (d : DecChan)

@[simp] theorem freshEnc_ba : (freshEnc wrap e).ba = Acc.empty := rfl
@[simp] theorem freshEnc_pend : (freshEnc wrap e).pend = none := rfl
@[simp] theorem freshEnc_wrap : (freshEnc wrap e).wrap = wrap := rfl
@[simp] theorem freshEnc_col : (freshEnc wrap e).col = 0#24 := rfl
@[simp] theorem freshDec_ba : (freshDec ig d).ba = Acc.empty := rfl
@[simp] theorem freshDec_term : (freshDec ig d).term = false := rfl
@[simp] theorem freshDec_hs : (freshDec ig d).hs = none := rfl
@[simp] theorem freshDec_ig : (freshDec ig d).ig = ig := rfl
@[simp] theorem freshDec_err : (freshDec ig d).err = none := rfl

end freshFields

end Sys2Proof.Machine
end

