-- ==== Sys2Proof/Laws/Ops.lean ====
section
/-! SUPPORT. For each shared operation and each meaning with cases, one lemma that says everything it can do; and the same of
a step. -/

namespace Sys2Proof.Machine

/-! What each arm of `exec` calls. -/

@[simp] theorem exec_encOpen (wrap : BitVec 24) (s : State) : exec (.encOpen wrap) s = execEncOpen wrap s := rfl
@[simp] theorem exec_encByte (b : Byte) (s : State) : exec (.encByte b) s = execEncByte b s := rfl
@[simp] theorem exec_encFin (s : State) : exec .encFin s = execEncFin s := rfl
@[simp] theorem exec_decOpen (ig : BitVec 1) (s : State) : exec (.decOpen ig) s = execDecOpen ig s := rfl
@[simp] theorem exec_decUnit (u : CodeUnit) (s : State) : exec (.decUnit u) s = execDecUnit u s := rfl
@[simp] theorem exec_decFin (s : State) : exec .decFin s = execDecFin s := rfl
@[simp] theorem exec_lkS2c16 (v : BitVec 16) (s : State) : exec (.lkS2c16 v) s = execLkS2c16 v s := rfl
@[simp] theorem exec_lkS2c8 (v : BitVec 8) (s : State) : exec (.lkS2c8 v) s = execLkS2c8 v s := rfl
@[simp] theorem exec_lkC2s (cp : CodePoint) (s : State) : exec (.lkC2s cp) s = execLkC2s cp s := rfl
@[simp] theorem exec_baIdle (ch : Channel) (a : BitVec 1) (s : State) : exec (.baIdle ch a) s = execBaIdle ch a s := rfl
@[simp] theorem exec_baPush (ch : Channel) (b : BitVec 1) (s : State) : exec (.baPush ch b) s = execBaPush ch b s := rfl
@[simp] theorem exec_baEmit (ch : Channel) (w : BitVec 1) (s : State) : exec (.baEmit ch w) s = execBaEmit ch w s := rfl
@[simp] theorem exec_baClear (ch : Channel) (a : BitVec 1) (s : State) : exec (.baClear ch a) s = execBaClear ch a s := rfl

@[simp] theorem returnOk_next_iff (out : List Item) (s t : State) :
    returnOk out s = .next t ↔ t = respond ⟨.ok, 0#21, out⟩ s := by simp [returnOk, eq_comm]

@[simp] theorem raise_next_iff (c : ErrCode) (info : CodePoint) (s t : State) :
    raise c info s = .next t ↔
      t = respond ⟨errStatus c, info, []⟩ { s with d := { s.d with err := some ⟨c, info⟩ } } := by
  simp [raise, eq_comm]

@[simp] theorem refuseDead_next_iff (er : DecError) (s t : State) :
    refuseDead er s = .next t ↔ t = respond ⟨.sessionInError, (errNumber er.code).setWidth 21, []⟩ s := by
  simp [refuseDead, eq_comm]

@[simp] theorem refuseIllegal_next_iff (s t : State) :
    refuseIllegal s = .next t ↔ t = respond ⟨.illegalCommand, 0#21, []⟩ s := by simp [refuseIllegal, eq_comm]

theorem resetSequence_next_iff (s t : State) :
    resetSequence s = .next t ↔ s.cfg.ok = true ∧
      t = { s with mem := build s.cfg s.mem, e := freshEnc 0#24 s.e, d := freshDec false s.d, ready := true } := by
  by_cases h : s.cfg.ok = true
  · simp [resetSequence, h, eq_comm]
  · simp [resetSequence, h]

theorem s2c16_eq {s : State} (h : s.cfg.ok = true) (v : BitVec 16) : s2c16 s v = .ok (readEtab16 s.cfg s.mem v) := by
  simp [s2c16, h]

theorem s2c8_eq {s : State} (h : s.cfg.ok = true) (v : BitVec 8) : s2c8 s v = .ok (readEtab8 s.cfg s.mem v) := by
  simp [s2c8, h]

theorem c2s_eq {s : State} (h : s.cfg.ok = true) (c : CodePoint) : c2s s c = .ok (readDtab s.cfg s.mem c) := by
  simp [c2s, h]

theorem s2c16_ok_iff (s : State) (v : BitVec 16) (cp : CodePoint) :
    s2c16 s v = .ok cp ↔ s.cfg.ok = true ∧ cp = readEtab16 s.cfg s.mem v := by
  by_cases h : s.cfg.ok = true
  · simp [s2c16, h, eq_comm]
  · simp [s2c16, h]

theorem s2c8_ok_iff (s : State) (v : BitVec 8) (cp : CodePoint) :
    s2c8 s v = .ok cp ↔ s.cfg.ok = true ∧ cp = readEtab8 s.cfg s.mem v := by
  by_cases h : s.cfg.ok = true
  · simp [s2c8, h, eq_comm]
  · simp [s2c8, h]

theorem c2s_ok_iff (s : State) (c : CodePoint) (w : DWord) :
    c2s s c = .ok w ↔ s.cfg.ok = true ∧ w = readDtab s.cfg s.mem c := by
  by_cases h : s.cfg.ok = true
  · simp [c2s, h, eq_comm]
  · simp [c2s, h]

/-- What `EMITCP` can do (R194): nothing but units with wrapping off; a break and column 0; a column more. -/
theorem emitCp_cases (cfg : Config) (cp : CodePoint) (e : EncChan) :
    (e.wrap = 0#24 ∧ emitCp cfg cp e = (e, utf16 cp)) ∨
      (e.wrap ≠ 0#24 ∧ e.col + 1#24 = e.wrap ∧
        emitCp cfg cp e = ({ e with col := 0#24 }, utf16 cp ++ utf16 cfg.wrapCp)) ∨
      (e.wrap ≠ 0#24 ∧ e.col + 1#24 ≠ e.wrap ∧ emitCp cfg cp e = ({ e with col := e.col + 1#24 }, utf16 cp)) := by
  by_cases h : e.wrap = 0#24 <;> by_cases h' : e.col + 1#24 = e.wrap <;> simp [emitCp, h, h']

@[simp] theorem emitCp_ba (cfg : Config) (cp : CodePoint) (e : EncChan) : (emitCp cfg cp e).1.ba = e.ba := by
  unfold emitCp; split_ifs <;> rfl

@[simp] theorem emitCp_pend (cfg : Config) (cp : CodePoint) (e : EncChan) : (emitCp cfg cp e).1.pend = e.pend := by
  unfold emitCp; split_ifs <;> rfl

@[simp] theorem emitCp_wrap (cfg : Config) (cp : CodePoint) (e : EncChan) : (emitCp cfg cp e).1.wrap = e.wrap := by
  unfold emitCp; split_ifs <;> rfl

/-- What `ENC.BYTE` can do when it answers a next state. -/
theorem execEncByte_next {b : Byte} {s t : State} (h : execEncByte b s = .next t) :
    (s.e.pend = none ∧ t = respond ⟨.ok, 0#21, []⟩ { s with e := { s.e with pend := some b } }) ∨
      ∃ a sym c, s.e.pend = some a ∧ s.cfg.ok = true ∧
        pushBits 16#5 8 (b.setWidth 16) (pushBits 16#5 8 (a.setWidth 16) s.e.ba).1 = (c, [sym]) ∧
        t = respond
          ⟨.ok, 0#21, (emitCp s.cfg (readEtab16 s.cfg s.mem sym) { s.e with ba := c, pend := none }).2.map .unit⟩
          { s with e := (emitCp s.cfg (readEtab16 s.cfg s.mem sym) { s.e with ba := c, pend := none }).1 } := by
  unfold execEncByte at h
  split at h
  · next hp => exact .inl ⟨hp, (returnOk_next_iff _ _ _).1 h⟩
  · next a hp =>
    generalize hr : pushBits 16#5 8 (b.setWidth 16) (pushBits 16#5 8 (a.setWidth 16) s.e.ba).1 = r at h
    obtain ⟨c, syms⟩ := r
    simp only [hr] at h
    split at h
    · next sym =>
      split at h
      · cases h
      · next cp hc =>
        obtain ⟨hok, rfl⟩ := (s2c16_ok_iff _ _ _).1 hc
        exact .inr ⟨a, sym, c, hp, hok, hr, (returnOk_next_iff _ _ _).1 h⟩
    · cases h

/-- What `ENC.FIN` can do when it answers a next state. -/
theorem execEncFin_next {s t : State} (h : execEncFin s = .next t) :
    (s.e.pend = none ∧ t = respond ⟨.ok, 0#21, []⟩ { s with e := freshEnc s.e.wrap s.e }) ∨
      ∃ a ans c, s.e.pend = some a ∧ s.cfg.ok = true ∧ ans.full = true ∧
        accEmit 8#5 (padTo8 8 (pushBits 16#5 8 (a.setWidth 16) s.e.ba).1) = (c, ans) ∧
        t = respond
          ⟨.ok, 0#21, (emitCp s.cfg (readEtab8 s.cfg s.mem (ans.sym.setWidth 8))
            { s.e with ba := c, pend := none }).2.map .unit⟩
          { s with e := freshEnc s.e.wrap s.e } := by
  unfold execEncFin at h
  split at h
  · next hp => exact .inl ⟨hp, (returnOk_next_iff _ _ _).1 h⟩
  · next a hp =>
    generalize hr : accEmit 8#5 (padTo8 8 (pushBits 16#5 8 (a.setWidth 16) s.e.ba).1) = r at h
    obtain ⟨c, ans⟩ := r
    simp only [hr] at h
    split at h
    · next hf =>
      split at h
      · cases h
      · next cp hc =>
        obtain ⟨hok, rfl⟩ := (s2c8_ok_iff _ _ _).1 hc
        exact .inr ⟨a, ans, c, hp, hok, hf, hr, (returnOk_next_iff _ _ _).1 h⟩
    · cases h

/-- What `DECODE_CP` can do when it answers a next state (R223), in the order of its tests. -/
theorem decodeCp_next {cp : CodePoint} {d : DecChan} {s t : State} (h : decodeCp cp d s = .next t) :
    s.cfg.ok = true ∧ ∃ w, w = readDtab s.cfg s.mem cp ∧
      ((dwordHit w = false ∧ d.ig = true ∧ t = respond ⟨.ok, 0#21, []⟩ { s with d := d }) ∨
        (dwordHit w = false ∧ d.ig = false ∧ raise .invalidCodePoint cp s = .next t) ∨
        (dwordHit w = true ∧ d.term = true ∧ raise .sequenceContinuedAfterFinalByte cp s = .next t) ∨
        (dwordHit w = true ∧ d.term = false ∧ dwordW8 w = false ∧
          t = respond ⟨.ok, 0#21, byteItems (pushBits 8#5 16 (dwordVal w) d.ba).2⟩
            { s with d := { d with ba := (pushBits 8#5 16 (dwordVal w) d.ba).1 } }) ∨
        (dwordHit w = true ∧ d.term = false ∧ dwordW8 w = true ∧
          paddingHolds (pushBits 8#5 8 (lowByte (dwordVal w)) d.ba).1 = true ∧
          t = respond ⟨.ok, 0#21, byteItems (pushBits 8#5 8 (lowByte (dwordVal w)) d.ba).2⟩
            { s with d := { d with ba := (pushBits 8#5 8 (lowByte (dwordVal w)) d.ba).1, term := true } }) ∨
        (dwordHit w = true ∧ d.term = false ∧ dwordW8 w = true ∧
          paddingHolds (pushBits 8#5 8 (lowByte (dwordVal w)) d.ba).1 = false ∧
          raise .paddingMismatch cp s = .next t)) := by
  unfold decodeCp at h
  split at h
  · cases h
  · next w hc =>
    obtain ⟨hok, rfl⟩ := (c2s_ok_iff _ _ _).1 hc
    refine ⟨hok, _, rfl, ?_⟩
    simp only at h
    split_ifs at h with h1 h2 h3 h4 h5
    · exact .inl ⟨h1, h2, (returnOk_next_iff _ _ _).1 h⟩
    · exact .inr (.inl ⟨h1, by simpa using h2, h⟩)
    · exact .inr (.inr (.inl ⟨by simpa using h1, h3, h⟩))
    · exact .inr (.inr (.inr (.inl ⟨by simpa using h1, by simpa using h3, h4, (returnOk_next_iff _ _ _).1 h⟩)))
    · exact .inr (.inr (.inr (.inr (.inl
        ⟨by simpa using h1, by simpa using h3, by simpa using h4, h5, (returnOk_next_iff _ _ _).1 h⟩))))
    · exact .inr (.inr (.inr (.inr (.inr
        ⟨by simpa using h1, by simpa using h3, by simpa using h4, by simpa using h5, h⟩))))

/-- What `DEC.UNIT` can do when it answers a next state (R222). -/
theorem execDecUnit_next {u : CodeUnit} {s t : State} (h : execDecUnit u s = .next t) :
    (∃ er, s.d.err = some er ∧ refuseDead er s = .next t) ∨
      (s.d.err = none ∧
        ((∃ hi, s.d.hs = some hi ∧ isLowSurrogate u = true ∧
            decodeCp (combineSurrogates hi u) { s.d with hs := none } s = .next t) ∨
          (∃ hi, s.d.hs = some hi ∧ isLowSurrogate u = false ∧
            raise .invalidSourceText (hi.setWidth 21) s = .next t) ∨
          (s.d.hs = none ∧ isHighSurrogate u = true ∧
            t = respond ⟨.ok, 0#21, []⟩ { s with d := { s.d with hs := some u } }) ∨
          (s.d.hs = none ∧ isHighSurrogate u = false ∧ isLowSurrogate u = true ∧
            raise .invalidSourceText (u.setWidth 21) s = .next t) ∨
          (s.d.hs = none ∧ isHighSurrogate u = false ∧ isLowSurrogate u = false ∧
            decodeCp (u.setWidth 21) s.d s = .next t))) := by
  unfold execDecUnit at h
  split at h
  · next er he => exact .inl ⟨er, he, h⟩
  · next he =>
    refine .inr ⟨he, ?_⟩
    split at h
    · next hi hh =>
      split_ifs at h with h1
      · exact .inl ⟨hi, hh, h1, h⟩
      · exact .inr (.inl ⟨hi, hh, by simpa using h1, h⟩)
    · next hh =>
      split_ifs at h with h1 h2
      · exact .inr (.inr (.inl ⟨hh, h1, (returnOk_next_iff _ _ _).1 h⟩))
      · exact .inr (.inr (.inr (.inl ⟨hh, by simpa using h1, h2, h⟩)))
      · exact .inr (.inr (.inr (.inr ⟨hh, by simpa using h1, by simpa using h2, h⟩)))

/-- What `DEC.FIN` can do (R224). -/
theorem execDecFin_next {s t : State} (h : execDecFin s = .next t) :
    (∃ er, s.d.err = some er ∧ refuseDead er s = .next t) ∨
      (s.d.err = none ∧
        ((∃ hi, s.d.hs = some hi ∧ raise .invalidSourceText (hi.setWidth 21) s = .next t) ∨
          (s.d.hs = none ∧
            t = respond ⟨.ok, 0#21, []⟩ { s with d := { s.d with ba := Acc.empty, term := false } }))) := by
  unfold execDecFin at h
  split at h
  · next er he => exact .inl ⟨er, he, h⟩
  · next he =>
    refine .inr ⟨he, ?_⟩
    split at h
    · next hi hh => exact .inl ⟨hi, hh, h⟩
    · next hh => exact .inr ⟨hh, (returnOk_next_iff _ _ _).1 h⟩

/-- What a step can do when it answers a next state. -/
theorem step_next {s t : State} (h : step s = .next t) :
    s.cfg.ok = true ∧
      ((s.inp = [] ∧ s.ready = true ∧ t = s) ∨
        (∃ rest, s.inp = .reset :: rest ∧ t = assertReset { s with inp := rest }) ∨
        (s.ready = false ∧ (∀ rest, s.inp ≠ .reset :: rest) ∧ resetSequence s = .next t) ∨
        (∃ p i rest, s.inp = .word p :: rest ∧ s.ready = true ∧ decode p = .ok i ∧ exec i { s with inp := rest } = .next t) ∨
        (∃ p er rest, s.inp = .word p :: rest ∧ s.ready = true ∧ decode p = .error er ∧
          refuseIllegal { s with inp := rest } = .next t)) := by
  unfold step at h
  split at h
  · next hok =>
    refine ⟨hok, ?_⟩
    unfold takeInput at h
    rcases hi : s.inp with _ | ⟨_ | p, rest⟩
    · rcases hr : s.ready with _ | _
      · simp only [hi, hr] at h
        exact .inr (.inr (.inl ⟨rfl, by simp, by simpa using h⟩))
      · simp only [hi, hr] at h
        exact .inl ⟨rfl, rfl, by simpa [eq_comm] using h⟩
    · simp only [hi] at h
      exact .inr (.inl ⟨rest, rfl, by simpa [eq_comm] using h⟩)
    · rcases hr : s.ready with _ | _
      · simp only [hi, hr] at h
        exact .inr (.inr (.inl ⟨rfl, by simp, by simpa using h⟩))
      · rcases hd : decode p with er | i
        · simp only [hi, hr, hd] at h
          exact .inr (.inr (.inr (.inr ⟨p, er, rest, rfl, rfl, hd, by simpa using h⟩)))
        · simp only [hi, hr, hd] at h
          exact .inr (.inr (.inr (.inl ⟨p, i, rest, rfl, rfl, hd, by simpa using h⟩)))
  · cases h

end Sys2Proof.Machine
end

