-- ==== Sys2Proof/Laws/PerInstr.lean ====
section
/-! SUPPORT. One statement about every instruction as syntax: its word lies in its row of spec/opcode_table.json (30_encoding
R94 to R102, R108), one lemma per constructor. -/

namespace Sys2Proof

/-- A mask over two fields side by side works field by field. -/
theorem append_and_append {m n : Nat} (a a' : BitVec m) (b b' : BitVec n) :
    (a ++ b) &&& (a' ++ b') = (a &&& a') ++ (b &&& b') := by
  apply BitVec.eq_of_getLsbD_eq
  intro i _
  rw [BitVec.getLsbD_and, BitVec.getLsbD_append, BitVec.getLsbD_append, BitVec.getLsbD_append]
  split <;> rw [BitVec.getLsbD_and]

/-- The row of an instruction of format C; none for format U. -/
def commandRowOf : Instr → Option Row
  | .encOpen _ => some ⟨0x01000000#32, 0xFF000000#32⟩
  | .encByte _ => some ⟨0x02000000#32, 0xFFFFFF00#32⟩
  | .encFin => some ⟨0x03000000#32, 0xFFFFFFFF#32⟩
  | .decOpen _ => some ⟨0x11000000#32, 0xFFFFFFFE#32⟩
  | .decUnit _ => some ⟨0x12000000#32, 0xFFFF0000#32⟩
  | .decFin => some ⟨0x13000000#32, 0xFFFFFFFF#32⟩
  | .lkS2c16 _ => some ⟨0x21000000#32, 0xFFFF0000#32⟩
  | .lkS2c8 _ => some ⟨0x21010000#32, 0xFFFFFF00#32⟩
  | .lkC2s _ => some ⟨0x22000000#32, 0xFFE00000#32⟩
  | .baIdle _ _ => none
  | .baPush _ _ => none
  | .baEmit _ _ => none
  | .baClear _ _ => none

/-- The operation code of an instruction of format U (R108); none for format C. -/
def uopCodeOf : Instr → Option (BitVec 2)
  | .baIdle _ _ => some 0b00#2
  | .baPush _ _ => some 0b01#2
  | .baEmit _ _ => some 0b10#2
  | .baClear _ _ => some 0b11#2
  | _ => none

/-- A port word lies in the row or under the operation code of an instruction. -/
def Laws.RowMatch.Statement (i : Instr) : Prop :=
  match encode i with
  | .cmd w => ∃ r, commandRowOf i = some r ∧ w &&& r.mask = r.pattern
  | .uop _ w => uopCodeOf i = some (w.extractLsb' 1 2)

theorem Laws.RowMatch.encOpen (wrap : BitVec 24) : Laws.RowMatch.Statement (.encOpen wrap) := by
  refine ⟨_, rfl, (append_and_append 0x01#8 0xFF#8 wrap 0#24).trans ?_⟩
  rw [BitVec.and_zero]; rfl

theorem Laws.RowMatch.encByte (b : Byte) : Laws.RowMatch.Statement (.encByte b) := by
  refine ⟨_, rfl, (append_and_append (0x02#8 ++ 0#16) 0xFFFFFF#24 b 0#8).trans ?_⟩
  rw [BitVec.and_zero]; rfl

theorem Laws.RowMatch.encFin : Laws.RowMatch.Statement .encFin := ⟨_, rfl, rfl⟩

theorem Laws.RowMatch.decOpen (ig : BitVec 1) : Laws.RowMatch.Statement (.decOpen ig) := by
  refine ⟨_, rfl, (append_and_append (0x11#8 ++ 0#23) 0x7FFFFFFF#31 ig 0#1).trans ?_⟩
  rw [BitVec.and_zero]; rfl

theorem Laws.RowMatch.decUnit (u : CodeUnit) : Laws.RowMatch.Statement (.decUnit u) := by
  refine ⟨_, rfl, (append_and_append (0x12#8 ++ 0#8) 0xFFFF#16 u 0#16).trans ?_⟩
  rw [BitVec.and_zero]; rfl

theorem Laws.RowMatch.decFin : Laws.RowMatch.Statement .decFin := ⟨_, rfl, rfl⟩

theorem Laws.RowMatch.lkS2c16 (v : BitVec 16) : Laws.RowMatch.Statement (.lkS2c16 v) := by
  refine ⟨_, rfl, (append_and_append (0x21#8 ++ 0#7 ++ 0#1) 0xFFFF#16 v 0#16).trans ?_⟩
  rw [BitVec.and_zero]; rfl

theorem Laws.RowMatch.lkS2c8 (v : BitVec 8) : Laws.RowMatch.Statement (.lkS2c8 v) := by
  refine ⟨_, rfl, (append_and_append (0x21#8 ++ 0#7 ++ 1#1 ++ 0#8) 0xFFFFFF#24 v 0#8).trans ?_⟩
  rw [BitVec.and_zero]; rfl

theorem Laws.RowMatch.lkC2s (cp : CodePoint) : Laws.RowMatch.Statement (.lkC2s cp) := by
  refine ⟨_, rfl, (append_and_append (0x22#8 ++ 0#3) 0x7FF#11 cp 0#21).trans ?_⟩
  rw [BitVec.and_zero]; rfl

theorem Laws.RowMatch.baIdle (ch : Channel) (a : BitVec 1) : Laws.RowMatch.Statement (.baIdle ch a) := by
  have h : ∀ x : BitVec 1, 0b00#2 = (0b00#2 ++ x).extractLsb' 1 2 := by decide
  exact congrArg some (h a)

theorem Laws.RowMatch.baPush (ch : Channel) (b : BitVec 1) : Laws.RowMatch.Statement (.baPush ch b) := by
  have h : ∀ x : BitVec 1, 0b01#2 = (0b01#2 ++ x).extractLsb' 1 2 := by decide
  exact congrArg some (h b)

theorem Laws.RowMatch.baEmit (ch : Channel) (w : BitVec 1) : Laws.RowMatch.Statement (.baEmit ch w) := by
  have h : ∀ x : BitVec 1, 0b10#2 = (0b10#2 ++ x).extractLsb' 1 2 := by decide
  exact congrArg some (h w)

theorem Laws.RowMatch.baClear (ch : Channel) (a : BitVec 1) : Laws.RowMatch.Statement (.baClear ch a) := by
  have h : ∀ x : BitVec 1, 0b11#2 = (0b11#2 ++ x).extractLsb' 1 2 := by decide
  exact congrArg some (h a)

end Sys2Proof
end

