-- ==== Sys2Proof/Laws/Word.lean ====
section
/-! SUPPORT. Bit fields as numbers: concatenation and extraction in arithmetic that `omega` decides. -/

namespace Sys2Proof.Machine

/-- `{a, b}` as a number (R12). -/
theorem toNat_append_add {m n : Nat} (a : BitVec m) (b : BitVec n) : (a ++ b).toNat = a.toNat * 2 ^ n + b.toNat := by
  rw [BitVec.toNat_append, ← Nat.shiftLeft_add_eq_or_of_lt b.isLt, Nat.shiftLeft_eq]

/-- A field as a number (R12). -/
theorem toNat_extractLsb'_div {n : Nat} (v : BitVec n) (lo len : Nat) :
    (v.extractLsb' lo len).toNat = v.toNat / 2 ^ lo % 2 ^ len := by
  rw [BitVec.extractLsb'_toNat, Nat.shiftRight_eq_div_pow]

theorem opcOf_toNat (w : CmdWord) : (opcOf w).toNat = w.toNat / 2 ^ 24 % 2 ^ 8 := toNat_extractLsb'_div ..

theorem argOf_toNat (w : CmdWord) : (argOf w).toNat = w.toNat % 2 ^ 24 := by
  rw [argOf, toNat_extractLsb'_div, pow_zero, Nat.div_one]

theorem argField_toNat (w : CmdWord) (lo len : Nat) :
    (argField w lo len).toNat = w.toNat % 2 ^ 24 / 2 ^ lo % 2 ^ len := by
  rw [argField, toNat_extractLsb'_div, argOf_toNat]

/-- What the reserved-field test can do. -/
theorem ifReservedZero_cases {n : Nat} (r : BitVec n) (i : Instr) :
    (r = 0#n ∧ ifReservedZero r i = .ok i) ∨ (r ≠ 0#n ∧ ifReservedZero r i = .error .reservedBitSet) := by
  by_cases h : r = 0#n <;> simp [ifReservedZero, h]

end Sys2Proof.Machine
end

