-- ==== Sys2Proof/Laws/Tables.lean ====
section
/-! SUPPORT. The enumeration of the ranges (40_range_table R131, R135): `repertoire` and `enumIndex` undo each other under
the checks of R135, the families are apart, and what the built `DTAB` holds for each outcome. -/

namespace Sys2Proof.Machine

@[simp] theorem bswap16_bswap16 (e : BitVec 16) : bswap16 (bswap16 e) = e := by
  apply BitVec.eq_of_toNat_eq
  simp only [bswap16, toNat_append_add, toNat_extractLsb'_div, pow_zero, Nat.div_one, Nat.reducePow]
  have := e.isLt
  have hh : e.toNat / 256 % 256 = e.toNat / 256 := by omega
  rw [hh]
  have hl : (e.toNat % 256 * 256 + e.toNat / 256) % 256 = e.toNat / 256 := by omega
  have hd : (e.toNat % 256 * 256 + e.toNat / 256) / 256 % 256 = e.toNat % 256 := by omega
  rw [hl, hd]
  omega

theorem bswap16_pair (a b : Byte) : (bswap16 (a ++ b)).toNat = 256 * b.toNat + a.toNat := by
  have := a.isLt
  have := b.isLt
  simp only [bswap16, toNat_append_add, toNat_extractLsb'_div]
  omega

/-- Every range of a list begins above `x`. -/
def RangesAbove (x : CodePoint) (rs : List Range) : Prop := ∀ r ∈ rs, x < r.first

theorem rangesOrdered_cons {r : Range} {rs : List Range} :
    rangesOrdered (r :: rs) = true ↔ r.first ≤ r.last ∧ rangesOrdered rs = true := by
  simp [rangesOrdered]

theorem rangesAscend_cons {r : Range} {rs : List Range} (ho : rangesOrdered (r :: rs) = true)
    (h : rangesAscend (r :: rs) = true) : RangesAbove r.last rs ∧ rangesAscend rs = true := by
  induction rs generalizing r with
  | nil => exact ⟨by simp [RangesAbove], rfl⟩
  | cons r' rs ih =>
    simp only [rangesAscend, Bool.and_eq_true, decide_eq_true_eq] at h
    obtain ⟨-, ho'⟩ := rangesOrdered_cons.1 ho
    obtain ⟨hr', -⟩ := rangesOrdered_cons.1 ho'
    refine ⟨?_, h.2⟩
    intro q hq
    rcases List.mem_cons.1 hq with rfl | hq
    · exact h.1
    · have := (ih ho' h.2).1 q hq
      simp only [BitVec.lt_def, BitVec.le_def] at *
      omega

theorem range_first_add {r : Range} {e : Nat} (h : e < r.size) :
    (r.first + BitVec.ofNat 21 e).toNat = r.first.toNat + e := by
  have := r.last.isLt
  have := r.first.isLt
  simp only [Range.size] at h
  simp only [BitVec.toNat_add, BitVec.toNat_ofNat]
  omega

theorem range_has_iff (r : Range) (c : CodePoint) :
    r.has c = true ↔ r.first.toNat ≤ c.toNat ∧ c.toNat ≤ r.last.toNat := by
  simp [Range.has, BitVec.le_def]

theorem repertoire_below {r : Range} {rs : List Range} {e : Nat} (h : e < r.size) :
    repertoire (r :: rs) e = r.first + BitVec.ofNat 21 e := by simp [repertoire, h]

theorem repertoire_beyond {r : Range} {rs : List Range} {e : Nat} (h : ¬e < r.size) :
    repertoire (r :: rs) e = repertoire rs (e - r.size) := by simp [repertoire, h]

/-- A code point of a repertoire lies in one of its ranges. -/
theorem rangesHave_repertoire {rs : List Range} {e : Nat} (h : e < rangesTotal rs) :
    rangesHave rs (repertoire rs e) = true := by
  induction rs generalizing e with
  | nil => simp [rangesTotal] at h
  | cons r rs ih =>
    by_cases he : e < r.size
    · have hf := range_first_add he
      have : r.has (r.first + BitVec.ofNat 21 e) = true := by
        rw [range_has_iff, hf]
        simp only [Range.size] at he
        omega
      simp [rangesHave, repertoire_below he, this]
    · simp only [rangesTotal] at h
      have := ih (e := e - r.size) (by omega)
      simp only [rangesHave, repertoire_beyond he, List.any_cons, Bool.or_eq_true] at this ⊢
      exact .inr this

theorem rangesHave_above {x : CodePoint} {rs : List Range} {c : CodePoint} (ha : RangesAbove x rs)
    (h : rangesHave rs c = true) : x < c := by
  simp only [rangesHave, List.any_eq_true] at h
  obtain ⟨r, hr, hc⟩ := h
  have := ha r hr
  rw [range_has_iff] at hc
  simp only [BitVec.lt_def] at *
  omega

/-- A code point has an enumeration index exactly when a range holds it. -/
theorem enumIndex_isSome (rs : List Range) (c : CodePoint) : (enumIndex rs c).isSome = rangesHave rs c := by
  induction rs with
  | nil => rfl
  | cons r rs ih =>
    by_cases h : r.has c = true
    · simp [enumIndex, rangesHave, h]
    · have h' : r.has c = false := by simpa using h
      simp only [enumIndex, h', Bool.false_eq_true, if_false, Option.isSome_map, ih]
      simp [rangesHave, h']

theorem enumIndex_eq_none {rs : List Range} {c : CodePoint} (h : rangesHave rs c = false) : enumIndex rs c = none := by
  have := enumIndex_isSome rs c
  rw [h] at this
  simpa using this

/-- The index of a code point leads back to it. -/
theorem repertoire_of_enumIndex {rs : List Range} {c : CodePoint} {e : Nat} (h : enumIndex rs c = some e) :
    e < rangesTotal rs ∧ repertoire rs e = c := by
  induction rs generalizing e with
  | nil => cases h
  | cons r rs ih =>
    by_cases hc : r.has c = true
    · simp only [enumIndex, hc, if_true, Option.some.injEq] at h
      subst h
      rw [range_has_iff] at hc
      have hs : c.toNat - r.first.toNat < r.size := by simp only [Range.size]; omega
      refine ⟨by simp only [rangesTotal]; omega, ?_⟩
      rw [repertoire_below hs]
      apply BitVec.eq_of_toNat_eq
      rw [range_first_add hs]
      omega
    · simp only [enumIndex, hc, Bool.false_eq_true, if_false, Option.map_eq_some_iff] at h
      obtain ⟨e', h', rfl⟩ := h
      obtain ⟨h1, h2⟩ := ih h'
      refine ⟨by simp only [rangesTotal]; omega, ?_⟩
      rw [repertoire_beyond (by omega), Nat.add_sub_cancel, h2]

/-- The code point at an index has that index: no code point is enumerated twice. -/
theorem enumIndex_repertoire {rs : List Range} (ho : rangesOrdered rs = true) (ha : rangesAscend rs = true) {e : Nat}
    (h : e < rangesTotal rs) : enumIndex rs (repertoire rs e) = some e := by
  induction rs generalizing e with
  | nil => simp [rangesTotal] at h
  | cons r rs ih =>
    obtain ⟨hab, ha'⟩ := rangesAscend_cons ho ha
    obtain ⟨-, ho'⟩ := rangesOrdered_cons.1 ho
    by_cases he : e < r.size
    · have hf := range_first_add he
      have hh : r.has (r.first + BitVec.ofNat 21 e) = true := by
        rw [range_has_iff, hf]
        simp only [Range.size] at he
        omega
      rw [repertoire_below he]
      simp only [enumIndex, hh, if_true, hf, Option.some.injEq]
      omega
    · simp only [rangesTotal] at h
      have hlt : e - r.size < rangesTotal rs := by omega
      have hx := rangesHave_above hab (rangesHave_repertoire hlt)
      have hh : r.has (repertoire rs (e - r.size)) = false := by
        rw [Bool.eq_false_iff, Ne, range_has_iff]
        simp only [BitVec.lt_def] at hx
        omega
      rw [repertoire_beyond he]
      simp only [enumIndex, hh, Bool.false_eq_true, if_false, ih ho' ha' hlt, Option.map_some, Option.some.injEq]
      omega

/-- The ten parts of R135. -/
theorem config_ok_iff (cfg : Config) : cfg.ok = true ↔
    rangesOrdered cfg.ranges16 = true ∧ rangesOrdered cfg.ranges8 = true ∧ rangesAscend cfg.ranges16 = true ∧
      rangesAscend cfg.ranges8 = true ∧ rangesTotal cfg.ranges16 = nSym16 ∧ rangesTotal cfg.ranges8 = nSym8 ∧
      rangesApart cfg.ranges16 cfg.ranges8 = true ∧ rangesScalar cfg.ranges16 = true ∧
      rangesScalar cfg.ranges8 = true ∧ wrapCpOk cfg = true := by
  simp [Config.ok, and_assoc]

/-- R135 item 4 on code points. -/
theorem rangesHave_apart {rs rs' : List Range} (h : rangesApart rs rs' = true) {c : CodePoint}
    (hc : rangesHave rs c = true) : rangesHave rs' c = false := by
  simp only [rangesHave, List.any_eq_true] at hc
  obtain ⟨r, hr, hrc⟩ := hc
  simp only [rangesHave, List.any_eq_false]
  intro r' hr' hrc'
  simp only [rangesApart, List.all_eq_true] at h
  have := h r hr r' hr'
  rw [range_has_iff] at hrc hrc'
  simp only [Bool.or_eq_true, decide_eq_true_eq, BitVec.lt_def] at this
  omega

/-- R135 item 5 on code points. -/
theorem rangesHave_scalar {rs : List Range} (h : rangesScalar rs = true) {c : CodePoint} (hc : rangesHave rs c = true) :
    isScalar c = true := by
  simp only [rangesHave, List.any_eq_true] at hc
  obtain ⟨r, hr, hrc⟩ := hc
  simp only [rangesScalar, List.all_eq_true] at h
  have := h r hr
  rw [range_has_iff] at hrc
  simp only [isScalar, Bool.and_eq_true, Bool.or_eq_true, decide_eq_true_eq, BitVec.lt_def, BitVec.le_def] at this ⊢
  simp only [BitVec.toNat_ofNat, Nat.reducePow, Nat.reduceMod] at this ⊢
  omega

@[simp] theorem dwordHit_dword (w8 : BitVec 1) (v : BitVec 16) : dwordHit (dword 1#1 w8 v) = true := by
  rw [dwordHit, dword, BitVec.getLsbD_append, BitVec.getLsbD_append]
  rfl

@[simp] theorem dwordW8_dword (hit : BitVec 1) (w8 : BitVec 1) (v : BitVec 16) :
    dwordW8 (dword hit w8 v) = w8.getLsbD 0 := by
  rw [dwordW8, dword, BitVec.getLsbD_append, BitVec.getLsbD_append]
  rfl

@[simp] theorem dwordVal_dword (hit w8 : BitVec 1) (v : BitVec 16) : dwordVal (dword hit w8 v) = v := by
  have := v.isLt
  apply BitVec.eq_of_toNat_eq
  simp only [dwordVal, dword, toNat_append_add, toNat_extractLsb'_div]
  omega

theorem dword_miss : dword 0#1 0#1 0#16 = 0#18 := by decide

/-- The built `DTAB` at a code point of the 16-bit family (R133). -/
theorem builtDtab_of_index16 {cfg : Config} {c : CodePoint} {e : Nat} (h : enumIndex cfg.ranges16 c = some e) :
    builtDtab cfg c.toNat = dword 1#1 0#1 (bswap16 (BitVec.ofNat 16 e)) := by
  simp [builtDtab, h]

/-- The built `DTAB` at a code point of the 8-bit family (R132). -/
theorem builtDtab_of_index8 {cfg : Config} (hok : cfg.ok = true) {c : CodePoint} {e : Nat}
    (h : enumIndex cfg.ranges8 c = some e) :
    builtDtab cfg c.toNat = dword 1#1 1#1 ((BitVec.ofNat 8 e).setWidth 16) := by
  obtain ⟨-, -, -, -, -, -, hap, -⟩ := (config_ok_iff cfg).1 hok
  have h16 : enumIndex cfg.ranges16 c = none := by
    apply enumIndex_eq_none
    by_contra hne
    have h8 := rangesHave_apart hap (c := c) (by simpa using hne)
    have := enumIndex_isSome cfg.ranges8 c
    rw [h, h8] at this
    cases this
  simp [builtDtab, h16, h]

/-- The built `DTAB` at a code point of neither family (R64). -/
theorem builtDtab_miss {cfg : Config} {c : CodePoint} (h16 : rangesHave cfg.ranges16 c = false)
    (h8 : rangesHave cfg.ranges8 c = false) : builtDtab cfg c.toNat = 0#18 := by
  simp [builtDtab, enumIndex_eq_none h16, enumIndex_eq_none h8]

end Sys2Proof.Machine
end

