-- ==== Sys2Proof/Tests/Slice0.lean ====
section
/-! SUPPORT. Tests. The expected results are those of 95_test_vectors, or hand calculation from the rule named; none is the
model's own answer. Then, for each statement with hypotheses, a state and operands that meet them all. -/

namespace Sys2Proof.Tests

open Sys2Proof.Machine

/-- The reset state with other channels. -/
def channels (e : EncChan) (d : DecChan) : State := { State.reset with e := e, d := d }

/-- The reset state with an encode channel between commands. -/
def encAt (pend : Option Byte) (wrap col : BitVec 24) : State := channels ⟨Acc.empty, pend, wrap, col⟩ DecChan.atReset

/-- The reset state with a decode channel between commands. -/
def decAt (term : Bool) (hs : Option CodeUnit) (ig : Bool) (err : Option DecError) : State :=
  channels EncChan.atReset ⟨Acc.empty, term, hs, ig, err⟩

/-- The reset state with the same accumulator in both channels. -/
def accAt (z : BitVec 16) (n : BitVec 5) : State :=
  channels { EncChan.atReset with ba := ⟨z, n⟩ } { DecChan.atReset with ba := ⟨z, n⟩ }

/-- The reset state with inputs offered. -/
def offered (xs : List Input) : State := { State.reset with inp := xs }

/-- The next state, if there is one. -/
def nextOf : Host.Outcome State Fault Refusal → Option State
  | .next t => some t
  | _ => none

/-- The newest response and the encode channel after. -/
def encResult (o : Host.Outcome State Fault Refusal) : Option (Option Response × EncChan) :=
  (nextOf o).map fun t => (t.rsp.getLast?, t.e)

/-- The newest response and the decode channel after. -/
def decResult (o : Host.Outcome State Fault Refusal) : Option (Option Response × DecChan) :=
  (nextOf o).map fun t => (t.rsp.getLast?, t.d)

/-- The responses of a run from the reset state. -/
def responsesOf (is : List Instr) : Option (List Response) := (nextOf (runCommands is State.reset)).map fun t => t.rsp

/-- The newest answer and the accumulator of channel E after. -/
def uopResult (o : Host.Outcome State Fault Refusal) : Option (Option (Channel × Answer) × Acc) :=
  (nextOf o).map fun t => (t.ans.getLast?, t.e.ba)

/-! ### Words, written out bit by bit from R94 to R102 and R107, R108 -/

theorem test_decode_encOpen : decodeTableWord 32 0b00000001000000000000000001001100 = some (.encOpen 76#24) := by decide
theorem test_decode_encByte : decodeTableWord 32 0b00000010000000000000000001101000 = some (.encByte 0x68#8) := by decide
theorem test_decode_encFin : decodeTableWord 32 0b00000011000000000000000000000000 = some .encFin := by decide
theorem test_decode_decOpen : decodeTableWord 32 0b00010001000000000000000000000001 = some (.decOpen 1#1) := by decide
theorem test_decode_decUnit : decodeTableWord 32 0b00010010000000001101100000001000 = some (.decUnit 0xD808#16) := by decide
theorem test_decode_decFin : decodeTableWord 32 0b00010011000000000000000000000000 = some .decFin := by decide
theorem test_decode_lkS2c16 : decodeTableWord 32 0b00100001000000001111111100000000 = some (.lkS2c16 0xFF00#16) := by decide
theorem test_decode_lkS2c8 : decodeTableWord 32 0b00100001000000010000000011111111 = some (.lkS2c8 0xFF#8) := by decide
theorem test_decode_lkC2s : decodeTableWord 32 0b00100010000111111111111111111111 = some (.lkC2s 0x1FFFFF#21) := by decide
theorem test_decode_baIdle : decodeTableWord 8 0b001 = some (.baIdle .e 1#1) := by decide
theorem test_decode_baPush : decodeTableWord 8 0b011 = some (.baPush .e 1#1) := by decide
theorem test_decode_baEmit : decodeTableWord 8 0b101 = some (.baEmit .e 1#1) := by decide
theorem test_decode_baClear : decodeTableWord 8 0b110 = some (.baClear .e 0#1) := by decide

/-- Another end of each command's operand (95, legal extremes), by its word in hexadecimal. -/
theorem test_decode_extremes :
    decodeTableWord 32 0x01FFFFFF = some (.encOpen 0xFFFFFF#24) ∧ decodeTableWord 32 0x020000FF = some (.encByte 0xFF#8) ∧
    decodeTableWord 32 0x11000000 = some (.decOpen 0#1) ∧ decodeTableWord 32 0x1200FFFF = some (.decUnit 0xFFFF#16) ∧
    decodeTableWord 32 0x2100FFFF = some (.lkS2c16 0xFFFF#16) ∧ decodeTableWord 32 0x21010000 = some (.lkS2c8 0#8) := by
  decide

/-- The encoder writes the words of 95 (program P1, family LK). -/
theorem test_encode_words :
    encode (.encOpen 0#24) = .cmd 0x01000000#32 ∧ encode (.encByte 0x6C#8) = .cmd 0x0200006C#32 ∧
    encode (.decUnit 0xDC77#16) = .cmd 0x1200DC77#32 ∧ encode (.lkS2c8 0xFF#8) = .cmd 0x210100FF#32 ∧
    encode (.lkC2s 0x1456F#21) = .cmd 0x2201456F#32 ∧ encode (.baEmit .d 0#1) = .uop .d 0b100#3 := by
  decide

/-! ### Ill-formed terms are refused -/

/-- The illegal words of 95, each by the check it fails. -/
theorem test_illegal_opcodes :
    ([0x00000000, 0xFF000000, 0x04000000, 0x10000000, 0x14000000, 0x20000000, 0x23000000] : List Nat).all
      (fun w => decodeTableWord 32 w == none && !legalWord (BitVec.ofNat 32 w)) = true := by decide

theorem test_illegal_reserved_bits :
    ([0x02000100, 0x03000001, 0x11000002, 0x12010000, 0x13800000, 0x21020000, 0x21010100, 0x22200000] : List Nat).all
      (fun w => decodeTableWord 32 w == none && !legalWord (BitVec.ofNat 32 w)) = true := by decide

/-- R135 item 1. -/
theorem test_wf_rangesOrdered : rangesOrdered [⟨0x101#21, 0x100#21⟩] = false := by decide
/-- R135 item 2: ranges that touch in one code point, and ranges in the wrong order. -/
theorem test_wf_rangesAscend :
    rangesAscend [⟨1#21, 5#21⟩, ⟨5#21, 9#21⟩] = false ∧ rangesAscend [⟨6#21, 9#21⟩, ⟨1#21, 5#21⟩] = false := by decide
/-- R135 item 3: one code point too few in the 16-bit family, one too many in the 8-bit family. -/
theorem test_wf_totals :
    Config.ok { defaultConfig with ranges16 := defaultRanges16.dropLast ++ [⟨0x20000#21, 0x285FE#21⟩] } = false ∧
    Config.ok { defaultConfig with ranges8 := [⟨0x1500#21, 0x1600#21⟩] } = false := by decide
/-- R135 item 4. -/
theorem test_wf_rangesApart :
    rangesApart [⟨0#21, 5#21⟩] [⟨5#21, 6#21⟩] = false ∧
    Config.ok { defaultConfig with ranges8 := [⟨0x3400#21, 0x34FF#21⟩] } = false := by decide
/-- R135 item 5: above `0x10FFFF`; a surrogate at either end of the gap. -/
theorem test_wf_rangesScalar :
    rangesScalar [⟨0x10FFFF#21, 0x110000#21⟩] = false ∧ rangesScalar [⟨0xD7FF#21, 0xD800#21⟩] = false ∧
    rangesScalar [⟨0xDFFF#21, 0xE000#21⟩] = false ∧ rangesScalar [⟨0xD700#21, 0xE000#21⟩] = false := by decide
/-- R135 item 6: in a table, two units long, a surrogate. -/
theorem test_wf_wrapCp :
    wrapCpOk { defaultConfig with wrapCp := 0x3400#21 } = false ∧ wrapCpOk { defaultConfig with wrapCp := 0x15FF#21 } = false ∧
    wrapCpOk { defaultConfig with wrapCp := 0x10000#21 } = false ∧ wrapCpOk { defaultConfig with wrapCp := 0xD800#21 } = false := by
  decide
/-- The default parameter satisfies R135 (R137). -/
theorem test_wf_default : defaultConfig.ok = true := by decide
/-- R109: one above each operand range. -/
theorem test_wf_lines :
    ([.encOpen 0x1000000, .encByte 0x100, .decOpen 2, .decUnit 0x10000, .lkS2c16 0x10000, .lkS2c8 0x100, .lkC2s 0x200000,
      .baPush 2, .baEmit 9] : List AsmLine).all (fun l => !l.wellFormed && (assembleLine .e l).isNone) = true := by decide

/-- The text of a line of 95, mnemonics in either case, a comment; and an operand out of range is an error. -/
theorem test_assembler_text :
    assembleText .e ["ENC.Open 76 ; open".toList, "".toList, "dec.unit 0xD808".toList, "ba.emit 8".toList] =
      some [.encOpen 76#24, .decUnit 0xD808#16, .baEmit .e 1#1] ∧
    assembleText .e ["enc.byte 0x100".toList] = none := by decide

/-! ### One command or micro-operation each (95, parts 1 and 2) -/

/-- `enc.open 5` after `enc.byte 0x80`: the byte is dropped, the option set (family ENC). -/
theorem test_encOpen :
    encResult (exec (.encOpen 5#24) (encAt (some 0x80#8) 0#24 0#24)) = some (some ⟨.ok, 0#21, []⟩, ⟨Acc.empty, none, 5#24, 0#24⟩) := by
  decide

/-- V4: the second byte of `68 65` gives U+9A68. -/
theorem test_encByte_pair :
    encResult (exec (.encByte 0x65#8) (encAt (some 0x68#8) 0#24 0#24)) =
      some (some ⟨.ok, 0#21, [.unit 0x9A68#16]⟩, EncChan.atReset) := by decide

/-- `enc.open 3` and the sixth `FF`: a surrogate pair counts once and brings the line break; three items (family ENC). -/
theorem test_encByte_wrap :
    encResult (exec (.encByte 0xFF#8) (encAt (some 0xFF#8) 3#24 2#24)) =
      some (some ⟨.ok, 0#21, [.unit 0xD861#16, .unit 0xDDFF#16, .unit 0x000A#16]⟩, ⟨Acc.empty, none, 3#24, 0#24⟩) := by decide

/-- V4: the terminal symbol of `6C` is U+156C. -/
theorem test_encFin :
    encResult (exec .encFin (encAt (some 0x6C#8) 0#24 0#24)) = some (some ⟨.ok, 0#21, [.unit 0x156C#16]⟩, EncChan.atReset) := by
  decide

/-- P4: `enc.fin` after an odd byte in column 0 of width 2 zeroes the column and keeps the width. -/
theorem test_encFin_wrap :
    encResult (exec .encFin (encAt (some 0x05#8) 2#24 0#24)) =
      some (some ⟨.ok, 0#21, [.unit 0x1505#16]⟩, ⟨Acc.empty, none, 2#24, 0#24⟩) := by decide

/-- P2: `dec.open 0` out of an error. -/
theorem test_decOpen :
    decResult (exec (.decOpen 0#1) (decAt true none false (some ⟨.sequenceContinuedAfterFinalByte, 0x1500#21⟩))) =
      some (some ⟨.ok, 0#21, []⟩, DecChan.atReset) := by decide

/-- P3: the second half of U+12077 gives its two bytes, high byte first. -/
theorem test_decUnit_pair :
    decResult (exec (.decUnit 0xDC77#16) (decAt false (some 0xD808#16) false none)) =
      some (some ⟨.ok, 0#21, [.byte 0x77#8, .byte 0x6F#8]⟩, DecChan.atReset) := by decide

/-- Astral garbage raises, and the raise discards the clearing of `D.HS_V` (family DEC). -/
theorem test_decUnit_raise :
    decResult (exec (.decUnit 0xDE00#16) (decAt false (some 0xD83D#16) false none)) =
      some (some ⟨.invalidCodePoint, 0x1F600#21, []⟩,
        ⟨Acc.empty, false, some 0xD83D#16, false, some ⟨.invalidCodePoint, 0x1F600#21⟩⟩) := by decide

/-- `dec.fin` inside a pair raises with the high surrogate (family DEC). -/
theorem test_decFin_raise :
    decResult (exec .decFin (decAt false (some 0xD808#16) false none)) =
      some (some ⟨.invalidSourceText, 0xD808#21, []⟩,
        ⟨Acc.empty, false, some 0xD808#16, false, some ⟨.invalidSourceText, 0xD808#21⟩⟩) := by decide

/-- `dec.fin` clears `D.TERM` (family DEC). -/
theorem test_decFin : decResult (exec .decFin (decAt true none false none)) = some (some ⟨.ok, 0#21, []⟩, DecChan.atReset) := by
  decide

/-- Family LK, both ends of the 16-bit table and a row between. -/
theorem test_lkS2c16 :
    responsesOf [.lkS2c16 0x0001#16, .lkS2c16 0x6F77#16] =
      some [⟨.ok, 0#21, [.word 0x00003500#32]⟩, ⟨.ok, 0#21, [.word 0x0001456F#32]⟩] := by decide

/-- Family LK. -/
theorem test_lkS2c8 : responsesOf [.lkS2c8 0xFF#8] = some [⟨.ok, 0#21, [.word 0x000015FF#32]⟩] := by decide

/-- Family LK: a 16-bit hit, an 8-bit hit, a miss. -/
theorem test_lkC2s :
    responsesOf [.lkC2s 0x9EFF#21, .lkC2s 0x156C#21, .lkC2s 0x1FFFFF#21] =
      some [⟨.ok, 0#21, [.word 0x0002FF69#32]⟩, ⟨.ok, 0#21, [.word 0x0003006C#32]⟩, ⟨.ok, 0#21, [.word 0#32]⟩] := by decide

/-- Family BA. -/
theorem test_baIdle : uopResult (exec (.baIdle .e 1#1) (accAt 0x5A#16 7#5)) = some (some (.e, ⟨false, 0#16, false⟩), ⟨0x5A#16, 7#5⟩) := by
  decide

/-- Family BA: the 16th bit, and the 17th refused. -/
theorem test_baPush :
    uopResult (exec (.baPush .e 1#1) (accAt 0x3432#16 15#5)) = some (some (.e, ⟨false, 0#16, false⟩), ⟨0x6865#16, 16#5⟩) ∧
    uopResult (exec (.baPush .e 0#1) (accAt 0#16 16#5)) = some (some (.e, ⟨false, 0#16, true⟩), ⟨0#16, 16#5⟩) := by decide

/-- Family BA: the test is equality. -/
theorem test_baEmit :
    uopResult (exec (.baEmit .e 0#1) (accAt 0x6865#16 16#5)) = some (some (.e, ⟨true, 0x6865#16, false⟩), Acc.empty) ∧
    uopResult (exec (.baEmit .e 1#1) (accAt 0x1D0#16 9#5)) = some (some (.e, ⟨false, 0#16, false⟩), ⟨0x1D0#16, 9#5⟩) := by decide

/-- Family BA. -/
theorem test_baClear : uopResult (exec (.baClear .e 1#1) (accAt 0x1F#16 5#5)) = some (some (.e, ⟨false, 0#16, false⟩), Acc.empty) := by
  decide

/-- Traces A and B of family BA: what `BA_PUSHBITS` returns and leaves. -/
theorem test_pushBits :
    pushBits 16#5 8 0x65#16 ⟨0x68#16, 8#5⟩ = (Acc.empty, [0x6865#16]) ∧
    pushBits 8#5 16 0x6865#16 Acc.empty = (Acc.empty, [0x68#16, 0x65#16]) := by decide

/-- An illegal word at the port, with `D.ERR = 2`: `IllegalCommand`, not `SessionInError` (95, priority). -/
theorem test_illegal_step :
    ((nextOf (step { decAt true none false (some ⟨.sequenceContinuedAfterFinalByte, 0x1502#21⟩) with
      inp := [.word (.cmd 0x12010000#32)] })).map fun t => t.rsp) = some [⟨.illegalCommand, 0#21, []⟩] := by decide

/-- Part 2, family DEC, after any error: the refusal's info is the number of the error (1 to 4), and on `RSP` its header has
status 6 (R105, R106, R298). -/
theorem test_error_numbers :
    ([(.invalidCodePoint, 1), (.sequenceContinuedAfterFinalByte, 2), (.paddingMismatch, 3), (.invalidSourceText, 4)] :
      List (ErrCode × Nat)).all (fun p =>
        ((nextOf (exec .decFin (decAt false none false (some ⟨p.1, 0x41#21⟩)))).map fun t => t.rsp.map responseWords) ==
          some [[0x60000000#32 ||| BitVec.ofNat 32 p.2]]) = true := by decide

/-- R105, the table of status codes. -/
theorem test_status_codes :
    ([.ok, .invalidCodePoint, .sequenceContinuedAfterFinalByte, .paddingMismatch, .invalidSourceText, .illegalCommand,
      .sessionInError] : List Status).map (fun st => (statusCode st).toNat) = [0, 1, 2, 3, 4, 5, 6] := by decide

/-- R106 on V2's answer: status 0, one item, the unit. -/
theorem test_responseWords : responseWords ⟨.ok, 0#21, [.unit 0x3500#16]⟩ = [0x04000000#32, 0x3500#32] ∧
    responseWords ⟨.sequenceContinuedAfterFinalByte, 0x1502#21, []⟩ = [0x20001502#32] := by decide

/-! ### Witnesses: for each statement with hypotheses, a state and operands that meet them, for every clause, at the ends of
its range -/

/-- The invariant of a state with the default configuration and built tables. -/
theorem inv_of {s : State} (hc : s.cfg = defaultConfig) (hm : s.mem = Memory.built) (hh : s.inp.all hostInput = true)
    (he : EncInv s.e) (hd : DecInv s.d) : Inv s := by
  refine ⟨by rw [hc]; decide, by rw [hm]; rfl, ?_, fun _ => hm, fun _ => he, fun _ => hd⟩
  intro x hx
  exact List.all_eq_true.1 hh x hx

/-- A state of the block between commands: a byte held, one code point in a line of two, half a pair held after the terminal
symbol, words offered. -/
def busy : State :=
  { channels ⟨Acc.empty, some 0x68#8, 2#24, 1#24⟩ ⟨Acc.empty, true, some 0xDBFF#16, true, none⟩ with
    inp := [.word (.cmd 0x02000065#32), .reset, .word (.cmd 0xFF000000#32)] }

theorem witness_inv_busy : Inv busy ∧ busy.ready = true :=
  ⟨inv_of rfl rfl rfl ⟨rfl, by decide, by decide⟩ ⟨rfl, by rintro h ⟨⟩; rfl⟩, rfl⟩

/-- A dead session, for the invariant. -/
theorem witness_inv_dead : Inv (decAt true (some 0xD800#16) false (some ⟨.invalidCodePoint, 0xA#21⟩)) :=
  inv_of rfl rfl rfl ⟨rfl, by decide, by decide⟩ ⟨rfl, by rintro h ⟨⟩; rfl⟩

theorem witness_EncodeOfDecodeIsTheWord : decode (.cmd 0x0100004C#32) = .ok (.encOpen 76#24) := rfl

theorem witness_LegalWordsRunAndIllegalOnesChangeNothing :
    State.reset.cfg.ok = true ∧ (offered [.word (.cmd 0x22200000#32)]).ready = true ∧
    (offered [.word (.cmd 0x22200000#32)]).inp = [.word (.cmd 0x22200000#32)] ∧
    ∀ r ∈ commandRows, 0x22200000#32 &&& r.mask ≠ r.pattern := by decide

theorem witness_StepRunsTheDecodedInstruction :
    (offered [.word (.cmd 0x02000068#32)]).cfg.ok = true ∧ (offered [.word (.cmd 0x02000068#32)]).ready = true ∧
    (offered [.word (.cmd 0x02000068#32)]).inp = [.word (.cmd 0x02000068#32)] ∧
    decode (.cmd 0x02000068#32) = .ok (.encByte 0x68#8) := ⟨by decide, rfl, rfl, rfl⟩

theorem witness_TableWordRunsNext :
    State.reset.cfg.ok = true ∧ decodeTableWord 32 0x22003400 = some (.lkC2s 0x3400#21) ∧
    decodeTableWord 8 0b101 = some (.baEmit .e 1#1) := by decide

theorem witness_BaPushShiftsInOneBit :
    (accAt 0xFFFF#16 16#5).e.ba.n = 16#5 ∧ (accAt 0x7FFF#16 15#5).e.ba.n ≠ 16#5 ∧ (accAt 0xFFFF#16 16#5).d.ba.n = 16#5 ∧
    (accAt 0#16 0#5).d.ba.n ≠ 16#5 := by decide

theorem witness_BaEmitTestsEquality :
    ((0#1 = 0#1 ∧ 16#5 = 16#5) ∧ (accAt 0xFFFF#16 16#5).e.ba.n = 16#5 ∧ (accAt 0x7FFF#16 15#5).d.ba.n ≠ 16#5) ∧
    (1#1 = 1#1 ∧ 8#5 = 8#5) ∧ (accAt 0xFF#16 8#5).d.ba.n = 8#5 ∧ (accAt 0x1FF#16 9#5).e.ba.n ≠ 8#5 := by decide

theorem witness_PushEmitPairStaysBelowTheWidth :
    (AccWf ⟨0x7FFF#16, 15#5⟩ ∧ 15#5 < 16#5) ∧ (AccWf ⟨0x7F#16, 7#5⟩ ∧ 7#5 < 8#5) ∧ AccWf ⟨0#16, 0#5⟩ ∧ 0#5 < 8#5 := by
  unfold AccWf; decide

theorem witness_MicroOperationsKeepAccumulatorBounds :
    isCommand (.baPush .d 1#1) = false ∧ AccWf (accAt 0xFFFF#16 16#5).e.ba ∧ AccWf (accAt 0xFFFF#16 16#5).d.ba := by
  unfold AccWf; decide

theorem witness_EncByteDefersThenEmitsThePair :
    (encAt none 0#24 0#24).e.pend = none ∧ (encAt (some 0xFF#8) 1#24 0#24).e.pend = some 0xFF#8 ∧
    (encAt (some 0xFF#8) 1#24 0#24).e.ba = Acc.empty ∧ (encAt (some 0xFF#8) 1#24 0#24).cfg.ok = true := by decide

theorem witness_EncFinFlushesThePendingByte :
    (encAt none 0xFFFFFF#24 7#24).e.pend = none ∧ (encAt (some 0#8) 0#24 0#24).e.pend = some 0#8 ∧
    (encAt (some 0#8) 0#24 0#24).e.ba = Acc.empty ∧ (encAt (some 0#8) 0#24 0#24).cfg.ok = true := by decide

theorem witness_EmitCpBreaksAfterEveryNth :
    (encAt none 0#24 0#24).e.wrap = 0#24 ∧
    ((encAt none 0xFFFFFF#24 0xFFFFFE#24).e.wrap ≠ 0#24 ∧
      (encAt none 0xFFFFFF#24 0xFFFFFE#24).e.col < (encAt none 0xFFFFFF#24 0xFFFFFE#24).e.wrap ∧
      (encAt none 0xFFFFFF#24 0xFFFFFE#24).e.col.toNat + 1 = (encAt none 0xFFFFFF#24 0xFFFFFE#24).e.wrap.toNat) ∧
    (encAt none 2#24 0#24).e.wrap ≠ 0#24 ∧ (encAt none 2#24 0#24).e.col < (encAt none 2#24 0#24).e.wrap ∧
      (encAt none 2#24 0#24).e.col.toNat + 1 ≠ (encAt none 2#24 0#24).e.wrap.toNat := by decide

theorem witness_Utf16UnitsOfScalarValues :
    ([0x0, 0xD7FF, 0xE000, 0xFFFF] : List Nat).all (fun c => isScalar (BitVec.ofNat 21 c) && decide (c < 0x10000)) = true ∧
    ([0x10000, 0x10FFFF] : List Nat).all (fun c => isScalar (BitVec.ofNat 21 c) && decide (0x10000 ≤ c)) = true := by decide

theorem witness_SurrogatePairCombines :
    isHighSurrogate 0xD800#16 = true ∧ isLowSurrogate 0xDC00#16 = true ∧ isHighSurrogate 0xDBFF#16 = true ∧
    isLowSurrogate 0xDFFF#16 = true := by decide

theorem witness_EncoderNeverFails : Inv busy ∧ busy.ready = true ∧ isEnc (.encByte 0x65#8) = true ∧ isEnc .encFin = true :=
  ⟨witness_inv_busy.1, rfl, rfl, rfl⟩

theorem witness_EncoderFollowsItsTransitionTable :
    (Inv busy ∧ busy.ready = true ∧ busy.e.pend = some 0x68#8 ∧ encPhase busy.e = .hold) ∧ encPhase State.reset.e = .empty :=
  ⟨⟨witness_inv_busy.1, rfl, rfl, rfl⟩, rfl⟩

theorem witness_DecUnitPairsSurrogates :
    State.reset.d.err = none ∧ State.reset.d.hs = none ∧ isHighSurrogate 0xDBFF#16 = true ∧ isLowSurrogate 0xDC00#16 = true ∧
    (decAt false (some 0xD800#16) true none).d.err = none ∧ (decAt false (some 0xD800#16) true none).d.hs = some 0xD800#16 ∧
    isLowSurrogate 0xDBFF#16 = false ∧ isLowSurrogate 0xE000#16 = false := by decide

theorem witness_DecUnitMissRaisesOrSkips :
    (State.reset.cfg.ok = true ∧ State.reset.d.err = none ∧ completedCp State.reset.d 0x41#16 = some 0x41#21 ∧
      dwordHit (readDtab State.reset.cfg State.reset.mem 0x41#21) = false ∧ State.reset.d.ig = false) ∧
    completedCp (decAt true (some 0xD83D#16) true none).d 0xDE00#16 = some 0x1F600#21 ∧
    dwordHit (readDtab State.reset.cfg State.reset.mem 0x1F600#21) = false ∧ (decAt true (some 0xD83D#16) true none).d.ig = true := by
  decide

theorem witness_DecUnitAfterTerminalRaises :
    State.reset.cfg.ok = true ∧ (decAt true none true none).d.err = none ∧
    completedCp (decAt true none true none).d 0x1502#16 = some 0x1502#21 ∧
    dwordHit (readDtab State.reset.cfg State.reset.mem 0x1502#21) = true ∧
    completedCp (decAt true none true none).d 0x3400#16 = some 0x3400#21 ∧
    dwordHit (readDtab State.reset.cfg State.reset.mem 0x3400#21) = true ∧ (decAt true none true none).d.term = true := by decide

theorem witness_DecUnitGivesTheBytesOfTheSymbol :
    (State.reset.cfg.ok = true ∧ (decAt false (some 0xD861#16) false none).d.err = none ∧
      (decAt false (some 0xD861#16) false none).d.ba = Acc.empty ∧ (decAt false (some 0xD861#16) false none).d.term = false ∧
      completedCp (decAt false (some 0xD861#16) false none).d 0xDDFF#16 = some 0x285FF#21 ∧
      dwordHit (readDtab State.reset.cfg State.reset.mem 0x285FF#21) = true ∧
      dwordW8 (readDtab State.reset.cfg State.reset.mem 0x285FF#21) = false) ∧
    completedCp State.reset.d 0x15FF#16 = some 0x15FF#21 ∧
    dwordHit (readDtab State.reset.cfg State.reset.mem 0x15FF#21) = true ∧
    dwordW8 (readDtab State.reset.cfg State.reset.mem 0x15FF#21) = true := by decide

theorem witness_DecFinEndsTheText :
    (decAt true none false (some ⟨.invalidSourceText, 0xDC77#21⟩)).d.err = some ⟨.invalidSourceText, 0xDC77#21⟩ ∧
    (decAt false (some 0xDBFF#16) false none).d.err = none ∧ (decAt false (some 0xDBFF#16) false none).d.hs = some 0xDBFF#16 ∧
    (decAt true none true none).d.err = none ∧ (decAt true none true none).d.hs = none := by decide

/-- A dead session in which every other premise of R298's clauses can be met. -/
def dead : State := decAt false none false (some ⟨.paddingMismatch, 0x1500#21⟩)

theorem witness_DeadSessionRefusesUnitsAndFin :
    dead.d.err = some ⟨.paddingMismatch, 0x1500#21⟩ ∧ isEnc (.encOpen 1#24) = true ∧ isLk (.lkS2c8 1#8) = true ∧
    exec (.encOpen 1#24) { dead with d := { dead.d with err := none } } =
      .next { dead with d := { dead.d with err := none }, e := ⟨Acc.empty, none, 1#24, 0#24⟩, rsp := [⟨.ok, 0#21, []⟩] } :=
  ⟨rfl, rfl, rfl, rfl⟩

theorem witness_RaiseDiscardsEveryOtherWrite :
    isDec .decFin = true ∧ ∃ t, exec .decFin (decAt false (some 0xD808#16) false none) = .next t ∧
      t.rsp = [] ++ [⟨.invalidSourceText, 0xD808#21, []⟩] ∧ Status.invalidSourceText = errStatus .invalidSourceText :=
  ⟨rfl, _, rfl, rfl, rfl⟩

theorem witness_PaddingMismatchIsUnreachable :
    Inv busy ∧ busy.ready = true ∧ isCommand (.encOpen 0#24) = true ∧
    ∃ t, exec (.encOpen 0#24) busy = .next t ∧ t.rsp = busy.rsp ++ [⟨.ok, 0#21, []⟩] :=
  ⟨witness_inv_busy.1, rfl, rfl, _, rfl, rfl⟩

/-- Both clauses: a command that answers something else, and a miss. -/
theorem witness_IgnoreGarbageChangesOnlyTheMiss :
    (isDec .decFin = true ∧ (∀ g, Instr.decFin ≠ .decOpen g) ∧ State.reset.d.ig = false ∧
      ∃ t, exec .decFin State.reset = .next t ∧ t.rsp = [] ++ [⟨.ok, 0#21, []⟩] ∧ Status.ok ≠ .invalidCodePoint) ∧
    decResult (exec (.decUnit 0x41#16) State.reset) =
      some (some ⟨.invalidCodePoint, 0x41#21, []⟩, { DecChan.atReset with err := some ⟨.invalidCodePoint, 0x41#21⟩ }) :=
  ⟨⟨rfl, fun _ => by simp, rfl, _, rfl, rfl, by decide⟩, by decide⟩

theorem witness_ErrorIsStickyUntilDecOpen :
    (∀ g, Instr.decUnit 0x3400#16 ≠ .decOpen g) ∧ dead.d.err = some ⟨.paddingMismatch, 0x1500#21⟩ ∧
    ∃ t, exec (.decUnit 0x3400#16) dead = .next t := ⟨fun _ => by simp, rfl, _, rfl⟩

theorem witness_DecoderFollowsItsTransitionTable : Inv busy ∧ busy.ready = true := witness_inv_busy

theorem witness_LookupReadsTheEncodeTable : State.reset.cfg.ok = true := by decide

theorem witness_LookupReadsTheDecodeTable :
    State.reset.cfg.ok = true ∧ State.reset.mem = Memory.built ∧ isScalar 0xD800#21 = false ∧ isScalar 0xDFFF#21 = false ∧
    isScalar 0x110000#21 = false ∧ isScalar 0x1FFFFF#21 = false ∧
    readEtab16 State.reset.cfg State.reset.mem 0#16 = 0x3400#21 ∧
    readEtab16 State.reset.cfg State.reset.mem 0xFFFF#16 = 0x285FF#21 ∧
    readEtab8 State.reset.cfg State.reset.mem 0#8 = 0x1500#21 ∧
    readEtab8 State.reset.cfg State.reset.mem 0xFF#8 = 0x15FF#21 := by decide

theorem witness_EnumerationIsInDeclaredOrder :
    0 < (Range.mk 0x1500#21 0x15FF#21).size ∧ 255 < (Range.mk 0x1500#21 0x15FF#21).size := by decide

theorem witness_BuiltTablesFollowTheEnumeration : defaultConfig.ok = true := by decide

/-- Every clause of the inverse property is about words that the default tables hold. -/
theorem witness_LookupsAreInverse :
    defaultConfig.ok = true ∧ readDtab defaultConfig Memory.built 0x9A68#21 = dword 1#1 0#1 0x6865#16 ∧
    dwordHit (readDtab defaultConfig Memory.built 0x156C#21) = true ∧
    dwordW8 (readDtab defaultConfig Memory.built 0x156C#21) = true ∧
    dwordHit (readDtab defaultConfig Memory.built 0x4D00#21) = false ∧
    readEtab16 defaultConfig Memory.built 0xFFFF#16 = 0x285FF#21 ∧ readEtab8 defaultConfig Memory.built 0#8 = 0x1500#21 := by
  decide

theorem witness_DefaultTablesHaveTheirClosedForm :
    ([(0x3400, 0), (0x4CFF, 24), (0x4E00, 25), (0x9EFF, 105), (0xA100, 106), (0xA3FF, 108), (0xA500, 109), (0x10600, 110),
      (0x12000, 111), (0x122FF, 113), (0x13000, 114), (0x133FF, 117), (0x14400, 118), (0x145FF, 119), (0x16800, 120),
      (0x169FF, 121), (0x20000, 122), (0x285FF, 255)] : List (Nat × Nat)).all
      (fun p => p.1 - p.1 % 256 == defaultBlock (BitVec.ofNat 8 p.2)) = true := by decide

/-- A RAM contents that differs from the built one, in canonical form. -/
theorem witness_BuilderFillsTheTables :
    defaultConfig.ok = true ∧ Memory.wf defaultConfig ⟨[(0, 5#21)], [(255, 0#21)], [(0x3400, 0#18), (0x1FFFFF, 1#18)]⟩ = true := by
  decide

/-- A reset request while words wait, from RAMs and registers that hold anything. -/
theorem witness_ResetFromAnyStateReachesTheResetState :
    ∃ s : State, s.cfg.ok = true ∧ s.mem.wf s.cfg = true ∧ s.inp = .reset :: [.word (.cmd 0x03000000#32)] ∧
      (∀ r, [Input.word (.cmd 0x03000000#32)] ≠ .reset :: r) ∧ s.mem ≠ Memory.built ∧ s.e ≠ EncChan.atReset ∧
      s.d ≠ DecChan.atReset :=
  ⟨{ busy with mem := ⟨[(0, 5#21)], [], []⟩, inp := [.reset, .word (.cmd 0x03000000#32)] },
    by decide, by decide, rfl, fun _ => by simp, by decide, by decide, by decide⟩

theorem witness_NoCommandIsAcceptedBeforeReady :
    ∃ s : State, s.cfg.ok = true ∧ s.ready = false ∧ s.inp = .word (.cmd 0x03000000#32) :: [] :=
  ⟨{ offered [.word (.cmd 0x03000000#32)] with ready := false }, by decide, rfl, rfl⟩

/-- The same with a micro-operation at the head of the queue, which waits like a command word (assumption 20). -/
theorem witness_NoCommandIsAcceptedBeforeReady_uop :
    ∃ s : State, s.cfg.ok = true ∧ s.ready = false ∧ s.inp = .word (.uop .d 0b011#3) :: [] :=
  ⟨{ offered [.word (.uop .d 0b011#3)] with ready := false }, by decide, rfl, rfl⟩

/-- The four kinds of step: wait, take a reset request, take a word, run the reset sequence. -/
theorem witness_StepKeepsTheInvariant :
    (Inv State.reset ∧ (nextOf (step State.reset)).isSome = true) ∧ (Inv busy ∧ (nextOf (step busy)).isSome = true) ∧
    (Inv (offered [.reset]) ∧ (nextOf (step (offered [.reset]))).isSome = true) ∧
    Inv { State.reset with ready := false } := by
  have e : EncInv EncChan.atReset := ⟨rfl, by decide, by decide⟩
  have d : DecInv DecChan.atReset := ⟨rfl, by rintro h ⟨⟩⟩
  exact ⟨⟨inv_of rfl rfl rfl e d, by decide⟩, ⟨witness_inv_busy.1, by decide⟩, ⟨inv_of rfl rfl rfl e d, by decide⟩,
    ⟨by decide, rfl, by simp [HostDriven, State.reset], fun h => (by cases h), fun h => (by cases h), fun h => (by cases h)⟩⟩

theorem witness_StepsUnderTheInvariantComplete : Inv busy := witness_inv_busy.1

theorem witness_TablesAreReadOnlyAfterReady : (nextOf (step busy)).isSome = true ∧ busy.ready = true := by decide

theorem witness_OneResponsePerCommand :
    (Inv busy ∧ busy.ready = true ∧ busy.inp = .word (.cmd 0x02000065#32) :: [.reset, .word (.cmd 0xFF000000#32)]) ∧
    decode (.cmd 0x02000065#32) = .ok (.encByte 0x65#8) := ⟨⟨witness_inv_busy.1, rfl, rfl⟩, rfl⟩

theorem witness_CommandsTouchOnlyTheirGroup :
    ((nextOf (exec (.encByte 0x65#8) busy)).isSome && isEnc (.encByte 0x65#8)) = true ∧
    ((nextOf (exec (.decUnit 0xDFFF#16) busy)).isSome && isDec (.decUnit 0xDFFF#16)) = true ∧
    ((nextOf (exec (.lkC2s 0x3400#21) busy)).isSome && isLk (.lkC2s 0x3400#21)) = true := by decide

theorem witness_CommandsOfDifferentGroupsCommute :
    isEnc (.encByte 0x65#8) = true ∧ isDec (.decUnit 0xDFFF#16) = true ∧ isLk (.lkC2s 0x3400#21) = true ∧
    ∃ s1 s2 s3, exec (.encByte 0x65#8) busy = .next s1 ∧ exec (.decUnit 0xDFFF#16) busy = .next s2 ∧
      exec (.lkC2s 0x3400#21) busy = .next s3 := by
  refine ⟨rfl, rfl, rfl, ?_⟩
  have h1 : (nextOf (exec (.encByte 0x65#8) busy)).isSome = true := by decide
  have h2 : (nextOf (exec (.decUnit 0xDFFF#16) busy)).isSome = true := by decide
  have h3 : (nextOf (exec (.lkC2s 0x3400#21) busy)).isSome = true := by decide
  have key {o : Host.Outcome State Fault Refusal} (h : (nextOf o).isSome = true) : ∃ t, o = .next t := by
    cases o with
    | next t => exact ⟨t, rfl⟩
    | fault f => cases h
    | refused r => cases h
  obtain ⟨s1, e1⟩ := key h1
  obtain ⟨s2, e2⟩ := key h2
  obtain ⟨s3, e3⟩ := key h3
  exact ⟨s1, s2, s3, e1, e2, e3⟩

theorem witness_ResponseHeaderHoldsItsFields :
    (Response.mk .ok 0#21 []).out.length ≤ 3 ∧
    (Response.mk .ok 0#21 [.unit 0xD861#16, .unit 0xDDFF#16, .unit 0xA#16]).out.length ≤ 3 := by decide

theorem witness_AssembledLinesHaveTheirWords :
    0xFFFFFF ≤ 0xFFFFFF ∧ 0xFF ≤ 0xFF ∧ 1 ≤ 1 ∧ 0xFFFF ≤ 0xFFFF ∧ 0x1FFFFF ≤ 0x1FFFFF ∧
    0x1000000 > 0xFFFFFF ∧ 0x100 > 0xFF ∧ 2 > 1 ∧ 0x10000 > 0xFFFF ∧ 0x200000 > 0x1FFFFF ∧ 15 ≠ 16 ∧ 15 ≠ 8 ∧ 9 ≠ 16 ∧
    9 ≠ 8 ∧ AsmLine.wellFormed (.lkC2s 0x1FFFFF) = true ∧ AsmLine.wellFormed (.lkC2s 0x200000) = false := by decide

theorem witness_ChunkBoundariesChangeNothing :
    State.reset.cfg.ok = true ∧ State.reset.ready = true ∧ State.reset.inp = [] := by decide

theorem witness_tablesReady : TablesReady State.reset ∧ State.reset.ready = true ∧ State.reset.inp = [] :=
  ⟨⟨by decide, rfl⟩, rfl, rfl⟩

theorem witness_EncodeHasItsClosedForm : TablesReady State.reset ∧ State.reset.ready = true ∧ State.reset.inp = [] :=
  witness_tablesReady

theorem witness_DecodeHasItsClosedForm :
    (TablesReady State.reset ∧ State.reset.ready = true ∧ State.reset.inp = []) ∧
    ∀ c ∈ [0x3500#21, 0x1502#21, 0x10FFFF#21], isScalar c = true := by
  refine ⟨witness_tablesReady, ?_⟩
  intro c hc
  simp only [List.mem_cons, List.not_mem_nil, or_false] at hc
  rcases hc with rfl | rfl | rfl <;> rfl

theorem witness_DecodeOfEncodedBytesIsTheBytes :
    (TablesReady State.reset ∧ State.reset.ready = true ∧ State.reset.inp = []) ∧ (0#24 = 0#24 ∨ 0#1 = 1#1) ∧
    (2#24 = 0#24 ∨ 1#1 = 1#1) := ⟨witness_tablesReady, by decide, by decide⟩

theorem witness_LineBreakIsGarbageToTheDecoder :
    (TablesReady State.reset ∧ State.reset.d.err = none ∧ State.reset.d.hs = none ∧ State.reset.d.ig = false) ∧
    TablesReady (decAt true none true none) ∧ (decAt true none true none).d.err = none ∧
    (decAt true none true none).d.hs = none ∧ (decAt true none true none).d.ig = true :=
  ⟨⟨witness_tablesReady.1, rfl, rfl, rfl⟩, ⟨by decide, rfl⟩, rfl, rfl, rfl⟩

end Sys2Proof.Tests
end

/-! ### Rounds of writes, and what `BUILD` leaves (40_range_table R134) -/

namespace Sys2Proof.Machine

/-- The first `n` rounds of a loop that writes the RAMs, in ascending order. -/
def writeRounds (put : Nat → Memory → Memory) : Nat → Memory → Memory
  | 0, m => m
  | n + 1, m => put n (writeRounds put n m)

/-- Round `k` of the loop writes `val k` at the index `key k` of the RAM that `read` reads, and keeps the canonical form. -/
structure RoundWrites {α β : Type} (cfg : Config) (put : Nat → Memory → Memory) (read : Memory → α → β)
    (key : Nat → α) (val : Nat → β) : Prop where
  wf : ∀ k m, m.wf cfg = true → (put k m).wf cfg = true
  same : ∀ k m, m.wf cfg = true → read (put k m) (key k) = val k
  other : ∀ k m i, m.wf cfg = true → i ≠ key k → read (put k m) i = read m i

namespace RoundWrites

variable {α β : Type} {cfg : Config} {put : Nat → Memory → Memory} {read : Memory → α → β} {key : Nat → α}
  {val : Nat → β} {m : Memory}

theorem writeRounds_wf (hp : RoundWrites cfg put read key val) (hm : m.wf cfg = true) (n : Nat) :
    (writeRounds put n m).wf cfg = true := by
  induction n with
  | zero => exact hm
  | succ n ih => exact hp.wf n _ ih

/-- An index that no round writes keeps its word. -/
theorem read_other (hp : RoundWrites cfg put read key val) (hm : m.wf cfg = true) {i : α} {n : Nat}
    (hi : ∀ k < n, i ≠ key k) : read (writeRounds put n m) i = read m i := by
  induction n with
  | zero => rfl
  | succ n ih =>
    calc read (put n (writeRounds put n m)) i
        = read (writeRounds put n m) i := hp.other n _ i (hp.writeRounds_wf hm n) (hi n (by omega))
      _ = read m i := ih fun k hk => hi k (by omega)

/-- When no two rounds write the same index, the word of a round stays. -/
theorem read_key (hp : RoundWrites cfg put read key val) (hm : m.wf cfg = true) {n k : Nat}
    (hinj : ∀ j < n, key k = key j → k = j) (hk : k < n) : read (writeRounds put n m) (key k) = val k := by
  induction n with
  | zero => omega
  | succ n ih =>
    have hwf := hp.writeRounds_wf hm n
    by_cases hkn : k = n
    · subst hkn
      exact hp.same k _ hwf
    · calc read (put n (writeRounds put n m)) (key k)
          = read (writeRounds put n m) (key k) := hp.other n _ _ hwf fun e => hkn (hinj n (by omega) e)
        _ = val k := ih (fun j hj => hinj j (by omega)) (by omega)

end RoundWrites

/-- One round of the builder's inner loop over a 16-bit range: enumeration index `e`, code point `cp` (R134). -/
def putEntry16 (cfg : Config) (e : BitVec 17) (cp : CodePoint) (m : Memory) : Memory :=
  writeDtab cfg (writeEtab16 cfg m (bswap16 (e.setWidth 16)) cp) cp (dword 1#1 0#1 (bswap16 (e.setWidth 16)))

/-- One round of the builder's inner loop over an 8-bit range (R134). -/
def putEntry8 (cfg : Config) (e : BitVec 17) (cp : CodePoint) (m : Memory) : Memory :=
  writeDtab cfg (writeEtab8 cfg m (e.setWidth 8) cp) cp (dword 1#1 1#1 ((e.setWidth 8).setWidth 16))

/-- The round of enumeration index `k` of a family: its code point is the one of the repertoire (R131). -/
def enumRound (entry : BitVec 17 → CodePoint → Memory → Memory) (rs : List Range) (k : Nat) : Memory → Memory :=
  entry (BitVec.ofNat 17 k) (repertoire rs k)

section Loops

variable {loop : Nat → CodePoint → BitVec 17 × Memory → BitVec 17 × Memory}
  {entry : BitVec 17 → CodePoint → Memory → Memory} (hzero : ∀ cp st, loop 0 cp st = st)
  (hsucc : ∀ n cp e m, loop (n + 1) cp (e, m) = loop n (cp + 1#21) (e + 1#17, entry e cp m))
include hzero hsucc

/-- The inner loop over a range continues the enumeration from index `e` on. -/
theorem rangeLoop_eq_writeRounds {rs : List Range} {n e : Nat} {cp : CodePoint} (m : Memory)
    (hrep : ∀ i < n, repertoire rs (e + i) = cp + BitVec.ofNat 21 i) :
    loop n cp (BitVec.ofNat 17 e, writeRounds (enumRound entry rs) e m) =
      (BitVec.ofNat 17 (e + n), writeRounds (enumRound entry rs) (e + n) m) := by
  induction n generalizing e cp with
  | zero => exact hzero _ _
  | succ n ih =>
    have hcp : repertoire rs e = cp := by simpa using hrep 0 (by omega)
    have hround : entry (BitVec.ofNat 17 e) cp (writeRounds (enumRound entry rs) e m) =
        writeRounds (enumRound entry rs) (e + 1) m := by rw [← hcp]; rfl
    have hnext : ∀ i < n, repertoire rs (e + 1 + i) = cp + 1#21 + BitVec.ofNat 21 i := fun i hi => by
      rw [Nat.add_assoc, hrep (1 + i) (by omega), BitVec.ofNat_add, BitVec.add_assoc]
    rw [hsucc, hround, ← BitVec.ofNat_add, ih hnext, Nat.add_assoc, Nat.add_comm 1 n]

/-- The loop over a ROM's ranges runs one round per index of the family. -/
theorem romLoop_eq_writeRounds {rs suffix : List Range} {e : Nat} (m : Memory)
    (hrep : ∀ i < rangesTotal suffix, repertoire rs (e + i) = repertoire suffix i) :
    suffix.foldl (fun st r => loop r.size r.first st) (BitVec.ofNat 17 e, writeRounds (enumRound entry rs) e m) =
      (BitVec.ofNat 17 (e + rangesTotal suffix),
        writeRounds (enumRound entry rs) (e + rangesTotal suffix) m) := by
  induction suffix generalizing e with
  | nil => rfl
  | cons r suffix ih =>
    have hfirst : ∀ i < r.size, repertoire rs (e + i) = r.first + BitVec.ofNat 21 i := fun i hi => by
      rw [hrep i (by simp only [rangesTotal]; omega), repertoire_below hi]
    have hrest : ∀ i < rangesTotal suffix, repertoire rs (e + r.size + i) = repertoire suffix i := fun i hi => by
      rw [Nat.add_assoc, hrep (r.size + i) (by simp only [rangesTotal]; omega), repertoire_beyond (by omega),
        Nat.add_sub_cancel_left]
    rw [List.foldl_cons, rangeLoop_eq_writeRounds hzero hsucc m hfirst, ih hrest, rangesTotal, Nat.add_assoc]

/-- The loop over a whole ROM, from index 0 on (R134). -/
theorem romLoop_fromZero (rs : List Range) (m : Memory) :
    (rs.foldl (fun st r => loop r.size r.first st) (0#17, m)).2 =
      writeRounds (enumRound entry rs) (rangesTotal rs) m := by
  have h := romLoop_eq_writeRounds hzero hsucc (rs := rs) (suffix := rs) (e := 0) m fun i _ => by rw [Nat.zero_add]
  rw [Nat.zero_add] at h
  exact congrArg Prod.snd h

end Loops

theorem buildRom16_eq_writeRounds (cfg : Config) (m : Memory) :
    (buildRom16 cfg (0#17, m)).2 =
      writeRounds (enumRound (putEntry16 cfg) cfg.ranges16) (rangesTotal cfg.ranges16) m :=
  romLoop_fromZero (loop := buildRange16 cfg) (fun _ _ => rfl) (fun _ _ _ _ => rfl) _ _

theorem buildRom8_eq_writeRounds (cfg : Config) (m : Memory) :
    (buildRom8 cfg (0#17, m)).2 =
      writeRounds (enumRound (putEntry8 cfg) cfg.ranges8) (rangesTotal cfg.ranges8) m :=
  romLoop_fromZero (loop := buildRange8 cfg) (fun _ _ => rfl) (fun _ _ _ _ => rfl) _ _

/-- The clearing loop of `BUILD` is rounds of misses. -/
theorem buildClear_eq_writeRounds (cfg : Config) (n : Nat) (m : Memory) :
    buildClear cfg n m = writeRounds (fun k m => writeDtab cfg m (BitVec.ofNat 21 k) (dword 0#1 0#1 0#16)) n m := by
  induction n with
  | zero => rfl
  | succ n ih => rw [buildClear, ih]; rfl

/-! What each kind of round writes. -/

section EntryWrites

variable (cfg : Config) (rs : List Range)

theorem clear_writes_dtab :
    RoundWrites cfg (fun k m => writeDtab cfg m (BitVec.ofNat 21 k) (dword 0#1 0#1 0#16)) (readDtab cfg)
      (fun k => BitVec.ofNat 21 k) (fun _ => 0#18) where
  wf _ _ hm := memory_wf_writeDtab hm _ _
  same _ _ hm := by rw [readDtab_writeDtab hm, if_pos rfl, dword_miss]
  other _ _ _ hm hne := by rw [readDtab_writeDtab hm, if_neg hne]

theorem putEntry16_wf {m : Memory} (hm : m.wf cfg = true) (e : BitVec 17) (cp : CodePoint) :
    (putEntry16 cfg e cp m).wf cfg = true := memory_wf_writeDtab (memory_wf_writeEtab16 hm _ _) _ _

theorem putEntry8_wf {m : Memory} (hm : m.wf cfg = true) (e : BitVec 17) (cp : CodePoint) :
    (putEntry8 cfg e cp m).wf cfg = true := memory_wf_writeDtab (memory_wf_writeEtab8 hm _ _) _ _

theorem enumRound16_writes_dtab :
    RoundWrites cfg (enumRound (putEntry16 cfg) rs) (readDtab cfg) (repertoire rs)
      (fun k => dword 1#1 0#1 (bswap16 (BitVec.ofNat 16 k))) where
  wf _ _ hm := putEntry16_wf cfg hm _ _
  same _ _ hm := by
    rw [enumRound, putEntry16, readDtab_writeDtab (memory_wf_writeEtab16 hm _ _), if_pos rfl,
      BitVec.setWidth_ofNat_of_le (by decide)]
  other _ _ _ hm hne := by
    rw [enumRound, putEntry16, readDtab_writeDtab (memory_wf_writeEtab16 hm _ _), if_neg hne, readDtab_writeEtab16]

theorem enumRound8_writes_dtab :
    RoundWrites cfg (enumRound (putEntry8 cfg) rs) (readDtab cfg) (repertoire rs)
      (fun k => dword 1#1 1#1 ((BitVec.ofNat 8 k).setWidth 16)) where
  wf _ _ hm := putEntry8_wf cfg hm _ _
  same _ _ hm := by
    rw [enumRound, putEntry8, readDtab_writeDtab (memory_wf_writeEtab8 hm _ _), if_pos rfl,
      BitVec.setWidth_ofNat_of_le (by decide)]
  other _ _ _ hm hne := by
    rw [enumRound, putEntry8, readDtab_writeDtab (memory_wf_writeEtab8 hm _ _), if_neg hne, readDtab_writeEtab8]

theorem enumRound16_writes_etab16 :
    RoundWrites cfg (enumRound (putEntry16 cfg) rs) (readEtab16 cfg) (fun k => bswap16 (BitVec.ofNat 16 k))
      (repertoire rs) where
  wf _ _ hm := putEntry16_wf cfg hm _ _
  same _ _ hm := by
    rw [enumRound, putEntry16, readEtab16_writeDtab, readEtab16_writeEtab16 hm,
      BitVec.setWidth_ofNat_of_le (by decide), if_pos rfl]
  other _ _ _ hm hne := by
    rw [enumRound, putEntry16, readEtab16_writeDtab, readEtab16_writeEtab16 hm,
      BitVec.setWidth_ofNat_of_le (by decide), if_neg hne]

theorem enumRound8_writes_etab8 :
    RoundWrites cfg (enumRound (putEntry8 cfg) rs) (readEtab8 cfg) (fun k => BitVec.ofNat 8 k) (repertoire rs) where
  wf _ _ hm := putEntry8_wf cfg hm _ _
  same _ _ hm := by
    rw [enumRound, putEntry8, readEtab8_writeDtab, readEtab8_writeEtab8 hm,
      BitVec.setWidth_ofNat_of_le (by decide), if_pos rfl]
  other _ _ _ hm hne := by
    rw [enumRound, putEntry8, readEtab8_writeDtab, readEtab8_writeEtab8 hm,
      BitVec.setWidth_ofNat_of_le (by decide), if_neg hne]

/-- The rounds of the 8-bit family leave `ETAB16` alone. -/
theorem readEtab16_enumRounds8 (n : Nat) (m : Memory) (s : BitVec 16) :
    readEtab16 cfg (writeRounds (enumRound (putEntry8 cfg) rs) n m) s = readEtab16 cfg m s := by
  induction n with
  | zero => rfl
  | succ n ih => rw [writeRounds, enumRound, putEntry8, readEtab16_writeDtab, readEtab16_writeEtab8, ih]

end EntryWrites

/-- Every word of `DTAB` after the clearing loop is a miss. -/
theorem readDtab_buildClear {cfg : Config} {m : Memory} (hm : m.wf cfg = true) (c : CodePoint) :
    readDtab cfg (buildClear cfg dtabSize m) c = 0#18 := by
  have hinj : ∀ j < dtabSize, BitVec.ofNat 21 c.toNat = BitVec.ofNat 21 j → c.toNat = j := fun j hj e => by
    have := congrArg BitVec.toNat e
    simp only [dtabSize] at hj
    simp only [BitVec.toNat_ofNat] at this
    omega
  have h := (clear_writes_dtab cfg).read_key hm hinj c.isLt
  rwa [BitVec.ofNat_toNat, BitVec.setWidth_eq, ← buildClear_eq_writeRounds] at h

/-- A family whose ranges are in order enumerates no code point twice (R131, R135). -/
theorem repertoire_inj {rs : List Range} (ho : rangesOrdered rs = true) (ha : rangesAscend rs = true) {j k : Nat}
    (hj : j < rangesTotal rs) (hk : k < rangesTotal rs) (h : repertoire rs j = repertoire rs k) : j = k := by
  have hidx := congrArg (enumIndex rs) h
  rw [enumIndex_repertoire ho ha hj, enumIndex_repertoire ho ha hk] at hidx
  exact Option.some.inj hidx

/-- Rounds that write at the repertoire's code points reach the code points that have an index, each with its word. -/
theorem RoundWrites.read_of_enumIndex {β : Type} {cfg : Config} {put : Nat → Memory → Memory}
    {read : Memory → CodePoint → β} {val : Nat → β} {rs : List Range} {m : Memory}
    (hp : RoundWrites cfg put read (repertoire rs) val) (hm : m.wf cfg = true) (ho : rangesOrdered rs = true)
    (ha : rangesAscend rs = true) {c : CodePoint} {k : Nat} (hc : enumIndex rs c = some k) :
    read (writeRounds put (rangesTotal rs) m) c = val k := by
  obtain ⟨hk, rfl⟩ := repertoire_of_enumIndex hc
  exact hp.read_key hm (fun j hj => repertoire_inj ho ha hk hj) hk

theorem RoundWrites.read_of_enumIndex_none {β : Type} {cfg : Config} {put : Nat → Memory → Memory}
    {read : Memory → CodePoint → β} {val : Nat → β} {rs : List Range} {m : Memory}
    (hp : RoundWrites cfg put read (repertoire rs) val) (hm : m.wf cfg = true) (ho : rangesOrdered rs = true)
    (ha : rangesAscend rs = true) {c : CodePoint} (hc : enumIndex rs c = none) :
    read (writeRounds put (rangesTotal rs) m) c = read m c := by
  refine hp.read_other hm fun k hk e => ?_
  rw [e, enumIndex_repertoire ho ha hk] at hc
  cases hc

/-- `BUILD` as its three loops, each in rounds. -/
theorem build_eq_writeRounds (cfg : Config) (m : Memory) :
    build cfg m =
      writeRounds (enumRound (putEntry8 cfg) cfg.ranges8) (rangesTotal cfg.ranges8)
        (writeRounds (enumRound (putEntry16 cfg) cfg.ranges16) (rangesTotal cfg.ranges16)
          (buildClear cfg dtabSize m)) := by
  rw [build, buildRom8_eq_writeRounds, buildRom16_eq_writeRounds]

section Build

variable {cfg : Config} {m : Memory} (hok : cfg.ok = true) (hm : m.wf cfg = true)
include hok hm

theorem readDtab_build (c : CodePoint) : readDtab cfg (build cfg m) c = builtDtab cfg c.toNat := by
  obtain ⟨ho16, ho8, ha16, ha8, -⟩ := (config_ok_iff cfg).1 hok
  have hw16 := enumRound16_writes_dtab cfg cfg.ranges16
  have hw8 := enumRound8_writes_dtab cfg cfg.ranges8
  have hclear := memory_wf_buildClear hm dtabSize
  have hmid := hw16.writeRounds_wf hclear (rangesTotal cfg.ranges16)
  rw [build_eq_writeRounds]
  rcases h8 : enumIndex cfg.ranges8 c with _ | k
  · rw [hw8.read_of_enumIndex_none hmid ho8 ha8 h8]
    rcases h16 : enumIndex cfg.ranges16 c with _ | k
    · rw [hw16.read_of_enumIndex_none hclear ho16 ha16 h16, readDtab_buildClear hm]
      exact (builtDtab_miss (by rw [← enumIndex_isSome, h16]; rfl) (by rw [← enumIndex_isSome, h8]; rfl)).symm
    · rw [hw16.read_of_enumIndex hclear ho16 ha16 h16, builtDtab_of_index16 h16]
  · rw [hw8.read_of_enumIndex hmid ho8 ha8 h8, builtDtab_of_index8 hok h8]

theorem readEtab16_build (s : BitVec 16) : readEtab16 cfg (build cfg m) s = builtEtab16 cfg s.toNat := by
  obtain ⟨-, -, -, -, htotal, -⟩ := (config_ok_iff cfg).1 hok
  have hkey : bswap16 (BitVec.ofNat 16 (bswap16 s).toNat) = s := by simp
  have hinj : ∀ j < rangesTotal cfg.ranges16,
      bswap16 (BitVec.ofNat 16 (bswap16 s).toNat) = bswap16 (BitVec.ofNat 16 j) → (bswap16 s).toNat = j := by
    intro j hj e
    have := congrArg BitVec.toNat (congrArg bswap16 (hkey.symm.trans e))
    rw [htotal, nSym16] at hj
    rw [bswap16_bswap16, BitVec.toNat_ofNat] at this
    omega
  have h := (enumRound16_writes_etab16 cfg cfg.ranges16).read_key (memory_wf_buildClear hm dtabSize) hinj
    (htotal ▸ (bswap16 s).isLt)
  rw [build_eq_writeRounds, readEtab16_enumRounds8, builtEtab16, BitVec.ofNat_toNat, BitVec.setWidth_eq]
  rwa [hkey] at h

theorem readEtab8_build (s : BitVec 8) : readEtab8 cfg (build cfg m) s = builtEtab8 cfg s.toNat := by
  obtain ⟨-, -, -, -, -, htotal, -⟩ := (config_ok_iff cfg).1 hok
  have hinj : ∀ j < rangesTotal cfg.ranges8, BitVec.ofNat 8 s.toNat = BitVec.ofNat 8 j → s.toNat = j := by
    intro j hj e
    have := congrArg BitVec.toNat e
    rw [htotal, nSym8] at hj
    simp only [BitVec.toNat_ofNat] at this
    omega
  have hmid := (enumRound16_writes_dtab cfg cfg.ranges16).writeRounds_wf (memory_wf_buildClear hm dtabSize)
    (rangesTotal cfg.ranges16)
  have h := (enumRound8_writes_etab8 cfg cfg.ranges8).read_key hmid hinj (htotal ▸ s.isLt)
  rwa [BitVec.ofNat_toNat, BitVec.setWidth_eq, ← build_eq_writeRounds] at h

end Build

/-- RAMs in canonical form that read as the built words everywhere are the built ones. -/
theorem memory_eq_built {cfg : Config} {m : Memory} (hm : m.wf cfg = true)
    (h16 : ∀ s, readEtab16 cfg m s = builtEtab16 cfg s.toNat) (h8 : ∀ s, readEtab8 cfg m s = builtEtab8 cfg s.toNat)
    (hd : ∀ c, readDtab cfg m c = builtDtab cfg c.toNat) : m = Memory.built := by
  obtain ⟨wf16, wf8, wfd⟩ := (memory_wf_iff cfg m).1 hm
  have e16 : m.etab16 = [] := ramWf_eq_nil wf16 fun i hi => h16 (BitVec.ofNatLT i hi)
  have e8 : m.etab8 = [] := ramWf_eq_nil wf8 fun i hi => h8 (BitVec.ofNatLT i hi)
  have ed : m.dtab = [] := ramWf_eq_nil wfd fun i hi => hd (BitVec.ofNatLT i hi)
  cases m
  cases e16
  cases e8
  cases ed
  rfl

/-- `BUILD` leaves the built tables, whatever the RAMs held (R134). -/
theorem build_eq_built {cfg : Config} {m : Memory} (hok : cfg.ok = true) (hm : m.wf cfg = true) :
    build cfg m = Memory.built :=
  memory_eq_built (memory_wf_build hm) (readEtab16_build hok hm) (readEtab8_build hok hm) (readDtab_build hok hm)

end Sys2Proof.Machine

/-! ### What each group of instructions writes (10_state R73) -/

namespace Sys2Proof.Machine

section Frames

variable {s t : State}

theorem execEncOpen_next {wrap : BitVec 24} (h : execEncOpen wrap s = .next t) :
    t = respond ⟨.ok, 0#21, []⟩ { s with e := freshEnc wrap s.e } := (returnOk_next_iff _ _ _).1 h

theorem execDecOpen_next {ig : BitVec 1} (h : execDecOpen ig s = .next t) :
    t = respond ⟨.ok, 0#21, []⟩ { s with d := freshDec (ig == 1#1) s.d } := (returnOk_next_iff _ _ _).1 h

/-- An encode command writes its channel and the response, nothing else. -/
theorem exec_enc_frame {i : Instr} (hi : isEnc i = true) (h : exec i s = .next t) :
    t = { s with e := t.e, rsp := t.rsp } := by
  cases i with
  | encOpen wrap => obtain rfl := execEncOpen_next h; rfl
  | encByte b =>
    rw [exec_encByte] at h
    rcases execEncByte_next h with ⟨-, rfl⟩ | ⟨a, sym, c, -, -, -, rfl⟩
    · rfl
    · rfl
  | encFin =>
    rw [exec_encFin] at h
    rcases execEncFin_next h with ⟨-, rfl⟩ | ⟨a, ans, c, -, -, -, -, rfl⟩
    · rfl
    · rfl
  | _ => cases hi

theorem raise_frame {c : ErrCode} {info : CodePoint} (h : raise c info s = .next t) :
    t = { s with d := t.d, rsp := t.rsp } := by
  obtain rfl := (raise_next_iff _ _ _ _).1 h
  rfl

theorem decodeCp_frame {cp : CodePoint} {d : DecChan} (h : decodeCp cp d s = .next t) :
    t = { s with d := t.d, rsp := t.rsp } := by
  obtain ⟨-, w, -, hw⟩ := decodeCp_next h
  rcases hw with ⟨-, -, rfl⟩ | ⟨-, -, hr⟩ | ⟨-, -, hr⟩ | ⟨-, -, -, rfl⟩ | ⟨-, -, -, -, rfl⟩ | ⟨-, -, -, -, hr⟩
  · rfl
  · exact raise_frame hr
  · exact raise_frame hr
  · rfl
  · rfl
  · exact raise_frame hr

/-- A decode command writes its channel and the response, nothing else. -/
theorem exec_dec_frame {i : Instr} (hi : isDec i = true) (h : exec i s = .next t) :
    t = { s with d := t.d, rsp := t.rsp } := by
  cases i with
  | decOpen ig => obtain rfl := execDecOpen_next h; rfl
  | decUnit u =>
    rcases execDecUnit_next h with ⟨er, -, hr⟩ | ⟨-, ⟨v, -, -, hr⟩ | ⟨v, -, -, hr⟩ | ⟨-, -, rfl⟩ | ⟨-, -, -, hr⟩ |
      ⟨-, -, -, hr⟩⟩
    · obtain rfl := (refuseDead_next_iff _ _ _).1 hr; rfl
    · exact decodeCp_frame hr
    · exact raise_frame hr
    · rfl
    · exact raise_frame hr
    · exact decodeCp_frame hr
  | decFin =>
    rcases execDecFin_next h with ⟨er, -, hr⟩ | ⟨-, ⟨v, -, hr⟩ | ⟨-, rfl⟩⟩
    · obtain rfl := (refuseDead_next_iff _ _ _).1 hr; rfl
    · exact raise_frame hr
    · rfl
  | _ => cases hi

/-- What `LK.S2C16` does when it answers a next state (R140). -/
theorem execLkS2c16_next {v : BitVec 16} (h : execLkS2c16 v s = .next t) :
    s.cfg.ok = true ∧ t = respond ⟨.ok, 0#21, [.word ((readEtab16 s.cfg s.mem v).setWidth 32)]⟩ s := by
  unfold execLkS2c16 at h
  split at h
  · cases h
  · next cp hc =>
    obtain ⟨hok, rfl⟩ := (s2c16_ok_iff _ _ _).1 hc
    exact ⟨hok, (returnOk_next_iff _ _ _).1 h⟩

/-- What `LK.S2C8` does when it answers a next state (R141). -/
theorem execLkS2c8_next {v : BitVec 8} (h : execLkS2c8 v s = .next t) :
    s.cfg.ok = true ∧ t = respond ⟨.ok, 0#21, [.word ((readEtab8 s.cfg s.mem v).setWidth 32)]⟩ s := by
  unfold execLkS2c8 at h
  split at h
  · cases h
  · next cp hc =>
    obtain ⟨hok, rfl⟩ := (s2c8_ok_iff _ _ _).1 hc
    exact ⟨hok, (returnOk_next_iff _ _ _).1 h⟩

/-- What `LK.C2S` does when it answers a next state (R142). -/
theorem execLkC2s_next {cp : CodePoint} (h : execLkC2s cp s = .next t) :
    s.cfg.ok = true ∧ t = respond ⟨.ok, 0#21, [.word ((readDtab s.cfg s.mem cp).setWidth 32)]⟩ s := by
  unfold execLkC2s at h
  split at h
  · cases h
  · next w hc =>
    obtain ⟨hok, rfl⟩ := (c2s_ok_iff _ _ _).1 hc
    exact ⟨hok, (returnOk_next_iff _ _ _).1 h⟩

/-- A lookup command writes the response, nothing else. -/
theorem exec_lk_frame {i : Instr} (hi : isLk i = true) (h : exec i s = .next t) : t = { s with rsp := t.rsp } := by
  cases i with
  | lkS2c16 v => obtain ⟨-, rfl⟩ := execLkS2c16_next h; rfl
  | lkS2c8 v => obtain ⟨-, rfl⟩ := execLkS2c8_next h; rfl
  | lkC2s cp => obtain ⟨-, rfl⟩ := execLkC2s_next h; rfl
  | _ => cases hi

/-- A micro-operation writes the accumulator of its channel and its answer, nothing else (R107). -/
theorem exec_uop_frame {i : Instr} (hi : isCommand i = false) (h : exec i s = .next t) :
    ∃ ch r, t = answerUop ch r s := by
  cases i with
  | baIdle ch a => exact ⟨ch, _, (Host.Outcome.next.inj h).symm⟩
  | baPush ch b => exact ⟨ch, _, (Host.Outcome.next.inj h).symm⟩
  | baEmit ch w => exact ⟨ch, _, (Host.Outcome.next.inj h).symm⟩
  | baClear ch a => exact ⟨ch, _, (Host.Outcome.next.inj h).symm⟩
  | _ => cases hi

/-- A host command is of one of the three groups (R93). -/
theorem group_of_isCommand {i : Instr} (hi : isCommand i = true) : isEnc i = true ∨ isDec i = true ∨ isLk i = true := by
  cases i with
  | encOpen _ | encByte _ | encFin => exact .inl rfl
  | decOpen _ | decUnit _ | decFin => exact .inr (.inl rfl)
  | lkS2c16 _ | lkS2c8 _ | lkC2s _ => exact .inr (.inr rfl)
  | baIdle _ _ | baPush _ _ | baEmit _ _ | baClear _ _ => cases hi

end Frames

end Sys2Proof.Machine

/-! ### A held error -/

namespace Sys2Proof.Machine

theorem answerUop_err (ch : Channel) (r : Acc × Answer) (s : State) : (answerUop ch r s).d.err = s.d.err := by
  cases ch with
  | e => rw [answerUopE_d]
  | d => rw [answerUopD_d]

/-- In a dead session a unit is refused, whatever it is (R298). -/
theorem execDecUnit_next_of_err {u : CodeUnit} {s t : State} {er : DecError} (he : s.d.err = some er)
    (h : execDecUnit u s = .next t) : t.d = s.d := by
  rcases execDecUnit_next h with ⟨er', -, hr⟩ | ⟨hnone, -⟩
  · rw [(refuseDead_next_iff _ _ _).1 hr, respond_d]
  · rw [he] at hnone
    cases hnone

/-- In a dead session `DEC.FIN` is refused (R298). -/
theorem execDecFin_next_of_err {s t : State} {er : DecError} (he : s.d.err = some er) (h : execDecFin s = .next t) :
    t.d = s.d := by
  rcases execDecFin_next h with ⟨er', -, hr⟩ | ⟨hnone, -⟩
  · rw [(refuseDead_next_iff _ _ _).1 hr, respond_d]
  · rw [he] at hnone
    cases hnone

/-- Settles O32: the encode and lookup groups leave the decode channel alone, a micro-operation writes only an
accumulator, and a dead session refuses the two decode commands that could write `D.ERR`. -/
theorem errorIsStickyUntilDecOpen : Obligations.ErrorIsStickyUntilDecOpen := by
  intro i s t er hopen he h
  rcases hc : isCommand i with _ | _
  · obtain ⟨ch, r, rfl⟩ := exec_uop_frame hc h
    rw [answerUop_err, he]
  · rcases group_of_isCommand hc with henc | hdec | hlk
    · rw [exec_enc_frame henc h, he]
    · cases i with
      | decOpen g => exact absurd rfl (hopen g)
      | decUnit u => rw [execDecUnit_next_of_err he h, he]
      | decFin => rw [execDecFin_next_of_err he h, he]
      | _ => cases hdec
    · rw [exec_lk_frame hlk h, he]

end Sys2Proof.Machine

/-! ### The invariant of the block (10_state R28, 41_bit_accumulator R167) -/

namespace Sys2Proof.Machine

theorem encInv_freshEnc (wrap : BitVec 24) (e : EncChan) : EncInv (freshEnc wrap e) :=
  ⟨rfl, fun _ => rfl, fun hw => (BitVec.pos_iff_ne_zero _).2 hw⟩

theorem decInv_freshDec (ig : Bool) (d : DecChan) : DecInv (freshDec ig d) := ⟨rfl, fun _ hh => by cases hh⟩

/-- `EMITCP` keeps the column below the wrap length (R28 c, R194). -/
theorem encInv_emitCp {e : EncChan} (he : EncInv e) (cfg : Config) (cp : CodePoint) :
    EncInv (emitCp cfg cp e).1 := by
  obtain ⟨hba, hoff, hon⟩ := he
  rcases emitCp_cases cfg cp e with ⟨-, heq⟩ | ⟨hw, -, heq⟩ | ⟨hw, hne, heq⟩
  · rw [heq]
    exact ⟨hba, hoff, hon⟩
  · rw [heq]
    exact ⟨hba, fun h0 => absurd h0 hw, fun h0 => (BitVec.pos_iff_ne_zero _).2 h0⟩
  · rw [heq]
    have hlt := hon hw
    refine ⟨hba, fun h0 => absurd h0 hw, fun _ => ?_⟩
    show e.col + 1#24 < e.wrap
    bv_omega

/-- Two bytes pushed at width 16 fill the accumulator once and leave it empty (R192). -/
theorem pushBits16_pair_empty (a b : BitVec 16) :
    (pushBits 16#5 8 b (pushBits 16#5 8 a Acc.empty).1).1 = Acc.empty := by
  obtain ⟨-, hn, hz⟩ := pushBits_short (width := 16#5) 8 a accWf_empty (by decide) (by decide)
  have hn8 : (pushBits 16#5 8 a Acc.empty).1.n.toNat = 8 := hn
  have hwf : AccWf (pushBits 16#5 8 a Acc.empty).1 := by
    refine ⟨by omega, ?_⟩
    rw [hn8, hz]
    simp only [Acc.empty, BitVec.toNat_ofNat]
    omega
  obtain ⟨sym, heq, -⟩ := pushBits_fill (width := 16#5) 8 b hwf (by decide) (by rw [hn8]; rfl) (by decide)
  rw [heq]

/-- Eight bits pushed at width 8 leave an empty accumulator empty (R223). -/
theorem pushBits8_byte_empty (v : BitVec 16) : (pushBits 8#5 8 v Acc.empty).1 = Acc.empty := by
  obtain ⟨sym, heq, -⟩ := pushBits_fill (width := 8#5) 8 v accWf_empty (by decide) (by decide) (by decide)
  rw [heq]

/-- Sixteen bits pushed at width 8 leave an empty accumulator empty (R223). -/
theorem pushBits8_pair_empty (v : BitVec 16) : (pushBits 8#5 16 v Acc.empty).1 = Acc.empty := by
  have hsplit := congrArg Prod.fst (pushBits_add 8#5 8 8 v Acc.empty)
  simpa only [Nat.reduceAdd, pushBits8_byte_empty] using hsplit

/-- Every encode command keeps R28 (a), (c). -/
theorem exec_enc_keeps_encInv {i : Instr} {s t : State} (hi : isEnc i = true) (he : EncInv s.e)
    (h : exec i s = .next t) : EncInv t.e := by
  obtain ⟨hba, hoff, hon⟩ := he
  cases i with
  | encOpen wrap =>
    rw [execEncOpen_next h, respond_e]
    exact encInv_freshEnc _ _
  | encByte b =>
    rw [exec_encByte] at h
    rcases execEncByte_next h with ⟨-, rfl⟩ | ⟨a, sym, c, -, -, hpush, rfl⟩
    · exact ⟨hba, hoff, hon⟩
    · have hc : c = Acc.empty := by
        rw [hba] at hpush
        rw [← pushBits16_pair_empty (a.setWidth 16) (b.setWidth 16), hpush]
      have hmid : EncInv { s.e with ba := c, pend := none } := ⟨hc, hoff, hon⟩
      exact encInv_emitCp hmid _ _
  | encFin =>
    rw [exec_encFin] at h
    rcases execEncFin_next h with ⟨-, rfl⟩ | ⟨a, ans, c, -, -, -, -, rfl⟩
    · exact encInv_freshEnc _ _
    · exact encInv_freshEnc _ _
  | _ => cases hi

/-- Taking an error writes neither the accumulator nor the pending unit (R296). -/
theorem raise_keeps_decInv {c : ErrCode} {info : CodePoint} {s t : State} (hs : DecInv s.d)
    (h : raise c info s = .next t) : DecInv t.d := by
  rw [(raise_next_iff _ _ _ _).1 h, respond_d]
  exact hs

/-- `DECODE_CP` leaves the accumulator empty, and the pending unit of `s` or of the channel as the command has it. -/
theorem decodeCp_keeps_decInv {cp : CodePoint} {d : DecChan} {s t : State} (hs : DecInv s.d) (hd : DecInv d)
    (h : decodeCp cp d s = .next t) : DecInv t.d := by
  obtain ⟨hba, hhs⟩ := hd
  obtain ⟨-, w, -, hw⟩ := decodeCp_next h
  rw [hba] at hw
  rcases hw with ⟨-, -, rfl⟩ | ⟨-, -, hr⟩ | ⟨-, -, hr⟩ | ⟨-, -, -, rfl⟩ | ⟨-, -, -, -, rfl⟩ | ⟨-, -, -, -, hr⟩
  · exact ⟨hba, hhs⟩
  · exact raise_keeps_decInv hs hr
  · exact raise_keeps_decInv hs hr
  · rw [respond_d, pushBits8_pair_empty]
    exact ⟨rfl, hhs⟩
  · rw [respond_d, pushBits8_byte_empty]
    exact ⟨rfl, hhs⟩
  · exact raise_keeps_decInv hs hr

theorem decInv_noHs {d : DecChan} (hd : DecInv d) : DecInv { d with hs := none } :=
  ⟨hd.1, fun _ hh => by cases hh⟩

/-- Every decode command keeps R28 (b), (e). -/
theorem exec_dec_keeps_decInv {i : Instr} {s t : State} (hi : isDec i = true) (hd : DecInv s.d)
    (h : exec i s = .next t) : DecInv t.d := by
  cases i with
  | decOpen ig =>
    rw [execDecOpen_next h, respond_d]
    exact decInv_freshDec _ _
  | decUnit u =>
    rcases execDecUnit_next h with ⟨er, -, hr⟩ | ⟨-, ⟨v, -, -, hr⟩ | ⟨v, -, -, hr⟩ | ⟨-, hu, rfl⟩ | ⟨-, -, -, hr⟩ |
      ⟨-, -, -, hr⟩⟩
    · rw [(refuseDead_next_iff _ _ _).1 hr, respond_d]
      exact hd
    · exact decodeCp_keeps_decInv hd (decInv_noHs hd) hr
    · exact raise_keeps_decInv hd hr
    · refine ⟨hd.1, fun v hv => ?_⟩
      cases hv
      exact hu
    · exact raise_keeps_decInv hd hr
    · exact decodeCp_keeps_decInv hd hd hr
  | decFin =>
    rcases execDecFin_next h with ⟨er, -, hr⟩ | ⟨-, ⟨v, -, hr⟩ | ⟨-, rfl⟩⟩
    · rw [(refuseDead_next_iff _ _ _).1 hr, respond_d]
      exact hd
    · exact raise_keeps_decInv hd hr
    · exact ⟨rfl, hd.2⟩
  | _ => cases hi

theorem isCommand_of_ifReservedZero {n : Nat} {r : BitVec n} {i j : Instr} (hj : isCommand j = true)
    (h : ifReservedZero r j = .ok i) : isCommand i = true := by
  rcases ifReservedZero_cases r j with ⟨-, heq⟩ | ⟨-, heq⟩
  · rw [heq] at h
    cases h
    exact hj
  · rw [heq] at h
    cases h

/-- A word at `CMD` decodes to a host command, never to a micro-operation (R90, R107). -/
theorem isCommand_of_decodeCmd {w : CmdWord} {i : Instr} (h : decodeCmd w = .ok i) : isCommand i = true := by
  unfold decodeCmd decodeS2c at h
  split_ifs at h
  case pos => cases h; rfl
  all_goals exact isCommand_of_ifReservedZero rfl h

theorem isCommand_of_hostInput {p : PortWord} {i : Instr} (hp : hostInput (.word p) = true)
    (h : decode p = .ok i) : isCommand i = true := by
  cases p with
  | cmd w => exact isCommand_of_decodeCmd h
  | uop ch w => cases hp

section Inv

variable {s t : State}

/-- A change of the channels and the responses alone keeps the invariant when it keeps R28 on each channel. -/
theorem Inv.of_channels (hs : Inv s) {e : EncChan} {d : DecChan} {rsp : List Response}
    (he : EncInv s.e → EncInv e) (hd : DecInv s.d → DecInv d) : Inv { s with e := e, d := d, rsp := rsp } where
  config := hs.config
  canonical := hs.canonical
  host := hs.host
  tables := hs.tables
  enc hr := he (hs.enc hr)
  dec hr := hd (hs.dec hr)

/-- Taking the head of what the host offers keeps the invariant. -/
theorem Inv.after_takeHead (hs : Inv s) {x : Input} {rest : List Input} (hinp : s.inp = x :: rest) :
    Inv { s with inp := rest } where
  config := hs.config
  canonical := hs.canonical
  host y hy := hs.host y (hinp ▸ List.mem_cons_of_mem x hy)
  tables := hs.tables
  enc := hs.enc
  dec := hs.dec

theorem Inv.after_assertReset (hs : Inv s) : Inv (assertReset s) where
  config := hs.config
  canonical := hs.canonical
  host := hs.host
  tables hr := by cases hr
  enc hr := by cases hr
  dec hr := by cases hr

/-- The reset sequence establishes what holds with `READY = 1` (R331). -/
theorem Inv.after_resetSequence (hs : Inv s) (h : resetSequence s = .next t) : Inv t := by
  obtain ⟨hok, rfl⟩ := (resetSequence_next_iff _ _).1 h
  exact ⟨hok, memory_wf_build hs.canonical, hs.host, fun _ => build_eq_built hok hs.canonical,
    fun _ => encInv_freshEnc _ _, fun _ => decInv_freshDec _ _⟩

/-- Every host command keeps the invariant. -/
theorem Inv.after_exec (hs : Inv s) {i : Instr} (hi : isCommand i = true) (h : exec i s = .next t) : Inv t := by
  rcases group_of_isCommand hi with henc | hdec | hlk
  · rw [exec_enc_frame henc h]
    exact hs.of_channels (fun he => exec_enc_keeps_encInv henc he h) id
  · rw [exec_dec_frame hdec h]
    exact hs.of_channels id (fun hd => exec_dec_keeps_decInv hdec hd h)
  · rw [exec_lk_frame hlk h]
    exact hs.of_channels id id

end Inv

/-- Settles O44, by the five things a step can do (`step_next`): it waits, takes a reset request, runs the reset sequence,
runs a host command, or answers an illegal word. -/
theorem stepKeepsTheInvariant : Obligations.StepKeepsTheInvariant := by
  intro s t hs h
  obtain ⟨-, hcases⟩ := step_next h
  rcases hcases with ⟨-, -, rfl⟩ | ⟨rest, hinp, rfl⟩ | ⟨-, -, hreset⟩ | ⟨p, i, rest, hinp, -, hdec, hexec⟩ |
    ⟨p, er, rest, hinp, -, -, hill⟩
  · exact hs
  · exact (hs.after_takeHead hinp).after_assertReset
  · exact hs.after_resetSequence hreset
  · have hhost : hostInput (.word p) = true := hs.host _ (hinp ▸ List.mem_cons_self)
    exact (hs.after_takeHead hinp).after_exec (isCommand_of_hostInput hhost hdec) hexec
  · rw [(refuseIllegal_next_iff _ _).1 hill]
    exact (hs.after_takeHead hinp).of_channels id id

/-- Settles O45: no RAM differs from its built contents, and both channels are as a fresh session leaves them. -/
theorem resetMeetsTheInvariant : Obligations.ResetMeetsTheInvariant where
  config := by decide
  canonical := memory_wf_reset
  host _ hx := by cases hx
  tables _ := rfl
  enc _ := encInv_freshEnc 0#24 EncChan.atReset
  dec _ := decInv_freshDec false DecChan.atReset

/-- Settles O41: the table words are those of the built RAMs, and a fresh session of either channel is the channel after
reset. -/
theorem resetStateHasTheStatedValues : Obligations.ResetStateHasTheStatedValues :=
  ⟨rfl, rfl, rfl, readEtab16_built _, readEtab8_built _, readDtab_built _, rfl, rfl⟩

end Sys2Proof.Machine

/-! ### Frames of a step and of the command groups (20_memory R65, R73) -/

namespace Sys2Proof.Machine

section TablesKept

variable {s t : State}

theorem answerUop_cfg (ch : Channel) (r : Acc × Answer) (s : State) : (answerUop ch r s).cfg = s.cfg := by
  cases ch <;> rfl

theorem answerUop_mem (ch : Channel) (r : Acc × Answer) (s : State) : (answerUop ch r s).mem = s.mem := by
  cases ch <;> rfl

/-- No instruction writes the configuration or a table: the builder alone does (R65). -/
theorem exec_keeps_tables {i : Instr} (h : exec i s = .next t) : t.cfg = s.cfg ∧ t.mem = s.mem := by
  rcases hc : isCommand i with _ | _
  · obtain ⟨ch, r, rfl⟩ := exec_uop_frame hc h
    exact ⟨answerUop_cfg ch r s, answerUop_mem ch r s⟩
  · rcases group_of_isCommand hc with henc | hdec | hlk
    · rw [exec_enc_frame henc h]; exact ⟨rfl, rfl⟩
    · rw [exec_dec_frame hdec h]; exact ⟨rfl, rfl⟩
    · rw [exec_lk_frame hlk h]; exact ⟨rfl, rfl⟩

/-- Only the reset sequence writes the RAMs, and it runs with `READY = 0` (R65, R331). -/
theorem step_keeps_tables (h : step s = .next t) : t.cfg = s.cfg ∧ (s.ready = true → t.mem = s.mem) := by
  obtain ⟨-, hcases⟩ := step_next h
  rcases hcases with ⟨-, -, rfl⟩ | ⟨rest, -, rfl⟩ | ⟨hready, -, hreset⟩ | ⟨p, i, rest, -, -, -, hexec⟩ |
    ⟨p, er, rest, -, -, -, hill⟩
  · exact ⟨rfl, fun _ => rfl⟩
  · exact ⟨rfl, fun _ => rfl⟩
  · obtain ⟨-, rfl⟩ := (resetSequence_next_iff _ _).1 hreset
    exact ⟨rfl, fun hr => by rw [hready] at hr; cases hr⟩
  · obtain ⟨hcfg, hmem⟩ := exec_keeps_tables hexec
    exact ⟨hcfg, fun _ => hmem⟩
  · obtain rfl := (refuseIllegal_next_iff _ _).1 hill
    exact ⟨rfl, fun _ => rfl⟩

end TablesKept

/-- Settles O47: a step with `READY = 1` keeps the RAMs, so every word reads as before. -/
theorem tablesAreReadOnlyAfterReady : Obligations.TablesAreReadOnlyAfterReady := by
  intro s t h
  obtain ⟨hcfg, hmem⟩ := step_keeps_tables h
  refine ⟨hcfg, fun hready c a b => ?_⟩
  rw [hcfg, hmem hready]
  exact ⟨rfl, rfl, rfl⟩

/-- Settles O49, by the frame of each group. -/
theorem commandsTouchOnlyTheirGroup : Obligations.CommandsTouchOnlyTheirGroup :=
  fun _ _ _ h => ⟨fun hi => exec_enc_frame hi h, fun hi => exec_dec_frame hi h, fun hi => exec_lk_frame hi h⟩

/-! ### Commands of different groups commute (20_memory R73) -/

/-- From `s`, `f` answers a response and writes channel E, the same whatever channel D and the earlier responses hold; it
changes nothing else. -/
def KeepsToEnc (f : State → Host.Outcome State Fault Refusal) (s : State) : Prop :=
  ∃ e r, ∀ d rsp, f { s with d := d, rsp := rsp } = .next (respond r { s with e := e, d := d, rsp := rsp })

/-- From `s`, `f` answers a response and writes channel D, the same whatever channel E and the earlier responses hold; it
changes nothing else. -/
def KeepsToDec (f : State → Host.Outcome State Fault Refusal) (s : State) : Prop :=
  ∃ d r, ∀ e rsp, f { s with e := e, rsp := rsp } = .next (respond r { s with e := e, d := d, rsp := rsp })

/-- What O50 asks of `i` and `j`, whose next states from `s` are `s1` and `s2`: both orders complete, each command answers the
same in either order, and the final states differ in the order of the two responses only. -/
def CommuteFrom (i j : Instr) (s s1 s2 : State) : Prop :=
  ∃ r q t1 t2, s1.rsp = s.rsp ++ [r] ∧ s2.rsp = s.rsp ++ [q] ∧ exec j s1 = .next t1 ∧ exec i s2 = .next t2 ∧
    t1.rsp = s.rsp ++ [r, q] ∧ t2.rsp = s.rsp ++ [q, r] ∧ { t1 with rsp := [] } = { t2 with rsp := [] }

section Commute

variable {s t s1 s2 : State} {i j : Instr}

theorem CommuteFrom.symm (h : CommuteFrom i j s s1 s2) : CommuteFrom j i s s2 s1 := by
  obtain ⟨r, q, t1, t2, hs1, hs2, ht1, ht2, hrsp1, hrsp2, heq⟩ := h
  exact ⟨q, r, t2, t1, hs2, hs1, ht2, ht1, hrsp2, hrsp1, heq.symm⟩

/-- A command that keeps to channel E and one that keeps to channel D commute: neither reads what the other writes. -/
theorem commuteFrom_of_keepsTo (hi : KeepsToEnc (exec i) s) (hj : KeepsToDec (exec j) s) (h1 : exec i s = .next s1)
    (h2 : exec j s = .next s2) : CommuteFrom i j s s1 s2 := by
  obtain ⟨e, r, hi⟩ := hi
  obtain ⟨d, q, hj⟩ := hj
  have hs1 := h1.symm.trans (hi s.d s.rsp)
  have hs2 := h2.symm.trans (hj s.e s.rsp)
  cases hs1
  cases hs2
  exact ⟨r, q, _, _, rfl, rfl, hj e _, hi d _, by simp, by simp, rfl⟩

/-- An encode command that completes keeps to channel E. -/
theorem exec_enc_keepsToEnc (hi : isEnc i = true) (h : exec i s = .next t) : KeepsToEnc (exec i) s := by
  cases i with
  | encOpen wrap => exact ⟨freshEnc wrap s.e, _, fun _ _ => rfl⟩
  | encByte b =>
    rw [exec_encByte] at h
    rcases execEncByte_next h with ⟨hp, -⟩ | ⟨a, sym, c, hp, hok, hpush, -⟩
    · exact ⟨_, _, fun d rsp => by simp only [exec_encByte, execEncByte, hp]; rfl⟩
    · exact ⟨_, _, fun d rsp => by simp only [exec_encByte, execEncByte, hp, hpush, s2c16_eq, hok]; rfl⟩
  | encFin =>
    rw [exec_encFin] at h
    rcases execEncFin_next h with ⟨hp, -⟩ | ⟨a, ans, c, hp, hok, hfull, hemit, -⟩
    · exact ⟨_, _, fun d rsp => by simp only [exec_encFin, execEncFin, hp]; rfl⟩
    · exact ⟨_, _, fun d rsp => by simp only [exec_encFin, execEncFin, hp, hemit, hfull, s2c8_eq, hok, if_true]; rfl⟩
  | _ => cases hi

theorem raise_keepsToDec (c : ErrCode) (info : CodePoint) (s : State) : KeepsToDec (raise c info) s :=
  ⟨{ s.d with err := some ⟨c, info⟩ }, _, fun _ _ => rfl⟩

theorem refuseDead_keepsToDec (er : DecError) (s : State) : KeepsToDec (refuseDead er) s := ⟨s.d, _, fun _ _ => rfl⟩

theorem returnOk_keepsToDec (out : List Item) (d : DecChan) (s : State) :
    KeepsToDec (fun x => returnOk out { x with d := d }) s := ⟨d, _, fun _ _ => rfl⟩

/-- `f` keeps to channel D when it does what `g` does in all states that have channel D, the tables and the ports of `s`. -/
theorem KeepsToDec.of_eq {f g : State → Host.Outcome State Fault Refusal} (hg : KeepsToDec g s)
    (hfg : ∀ e rsp, f { s with e := e, rsp := rsp } = g { s with e := e, rsp := rsp }) : KeepsToDec f s := by
  obtain ⟨d, r, hg⟩ := hg
  exact ⟨d, r, fun e rsp => (hfg e rsp).trans (hg e rsp)⟩

/-- `DECODE_CP` reads the channel it is given and `DTAB`, both the same whatever channel E holds (R223). -/
theorem decodeCp_keepsToDec {cp : CodePoint} {d : DecChan} (h : decodeCp cp d s = .next t) :
    KeepsToDec (decodeCp cp d) s := by
  obtain ⟨hok, -⟩ := decodeCp_next h
  have hc2s : ∀ e rsp, c2s { s with e := e, rsp := rsp } cp = .ok (readDtab s.cfg s.mem cp) := fun _ _ => c2s_eq hok cp
  simp only [KeepsToDec, decodeCp, hc2s]
  split_ifs
  · exact returnOk_keepsToDec _ _ s
  · exact raise_keepsToDec _ _ s
  · exact raise_keepsToDec _ _ s
  · exact returnOk_keepsToDec _ _ s
  · exact returnOk_keepsToDec _ _ s
  · exact raise_keepsToDec _ _ s

theorem execDecUnit_keepsToDec {u : CodeUnit} (h : execDecUnit u s = .next t) : KeepsToDec (execDecUnit u) s := by
  rcases execDecUnit_next h with ⟨er, he, -⟩ | ⟨he, ⟨v, hhs, hlow, hr⟩ | ⟨v, hhs, hlow, -⟩ | ⟨hhs, hhigh, -⟩ |
    ⟨hhs, hhigh, hlow, -⟩ | ⟨hhs, hhigh, hlow, hr⟩⟩
  · exact (refuseDead_keepsToDec er s).of_eq fun _ _ => by simp [execDecUnit, he]
  · exact (decodeCp_keepsToDec hr).of_eq fun _ _ => by simp [execDecUnit, he, hhs, hlow]
  · exact (raise_keepsToDec .invalidSourceText (v.setWidth 21) s).of_eq fun _ _ => by
      simp [execDecUnit, he, hhs, hlow]
  · exact (returnOk_keepsToDec [] { s.d with hs := some u } s).of_eq fun _ _ => by
      simp [execDecUnit, he, hhs, hhigh]
  · exact (raise_keepsToDec .invalidSourceText (u.setWidth 21) s).of_eq fun _ _ => by
      simp [execDecUnit, he, hhs, hhigh, hlow]
  · exact (decodeCp_keepsToDec hr).of_eq fun _ _ => by simp [execDecUnit, he, hhs, hhigh, hlow]

theorem execDecFin_keepsToDec (s : State) : KeepsToDec execDecFin s := by
  rcases he : s.d.err with _ | er
  · rcases hhs : s.d.hs with _ | v
    · exact (returnOk_keepsToDec [] { s.d with ba := Acc.empty, term := false } s).of_eq fun _ _ => by
        simp [execDecFin, he, hhs, accClear_eq]
    · exact (raise_keepsToDec .invalidSourceText (v.setWidth 21) s).of_eq fun _ _ => by
        simp [execDecFin, he, hhs]
  · exact (refuseDead_keepsToDec er s).of_eq fun _ _ => by simp [execDecFin, he]

/-- A decode command that completes keeps to channel D. -/
theorem exec_dec_keepsToDec (hi : isDec i = true) (h : exec i s = .next t) : KeepsToDec (exec i) s := by
  cases i with
  | decOpen ig => exact returnOk_keepsToDec [] (freshDec (ig == 1#1) s.d) s
  | decUnit u => exact execDecUnit_keepsToDec h
  | decFin => exact execDecFin_keepsToDec s
  | _ => cases hi

/-- A lookup that completes answers the same word whatever the channels and the earlier responses hold. -/
theorem exec_lk_answers (hi : isLk i = true) (h : exec i s = .next t) :
    ∃ r, ∀ e d rsp, exec i { s with e := e, d := d, rsp := rsp } =
      .next (respond r { s with e := e, d := d, rsp := rsp }) := by
  cases i with
  | lkS2c16 v =>
    obtain ⟨hok, -⟩ := execLkS2c16_next h
    exact ⟨_, fun _ _ _ => by simp only [exec_lkS2c16, execLkS2c16, s2c16_eq, hok]; rfl⟩
  | lkS2c8 v =>
    obtain ⟨hok, -⟩ := execLkS2c8_next h
    exact ⟨_, fun _ _ _ => by simp only [exec_lkS2c8, execLkS2c8, s2c8_eq, hok]; rfl⟩
  | lkC2s cp =>
    obtain ⟨hok, -⟩ := execLkC2s_next h
    exact ⟨_, fun _ _ _ => by simp only [exec_lkC2s, execLkC2s, c2s_eq, hok]; rfl⟩
  | _ => cases hi

theorem exec_lk_keepsToEnc (hi : isLk i = true) (h : exec i s = .next t) : KeepsToEnc (exec i) s := by
  obtain ⟨r, hr⟩ := exec_lk_answers hi h
  exact ⟨s.e, r, fun d rsp => hr s.e d rsp⟩

theorem exec_lk_keepsToDec (hi : isLk i = true) (h : exec i s = .next t) : KeepsToDec (exec i) s := by
  obtain ⟨r, hr⟩ := exec_lk_answers hi h
  exact ⟨s.d, r, fun e rsp => hr e s.d rsp⟩

end Commute

/-- Settles O50: of two groups one keeps to channel E and the other to channel D, a lookup to either. -/
theorem commandsOfDifferentGroupsCommute : Obligations.CommandsOfDifferentGroupsCommute := by
  intro i j s s1 s2 hgroups h1 h2
  show CommuteFrom i j s s1 s2
  rcases hgroups with ⟨hi, hj⟩ | ⟨hi, hj⟩ | ⟨hi, hj⟩
  · exact commuteFrom_of_keepsTo (exec_enc_keepsToEnc hi h1) (exec_dec_keepsToDec hj h2) h1 h2
  · exact commuteFrom_of_keepsTo (exec_enc_keepsToEnc hi h1) (exec_lk_keepsToDec hj h2) h1 h2
  · exact (commuteFrom_of_keepsTo (exec_lk_keepsToEnc hj h2) (exec_dec_keepsToDec hi h1) h2 h1).symm

end Sys2Proof.Machine

/-! ### Words and instructions (30_encoding R92 to R103, R107, R108) -/

namespace Sys2Proof.Machine

/-- The fields of a command word as R94 to R102 give them for each command: its opcode, its reserved bits zero, its operand.
No command word carries a micro-operation. -/
def HasFields (w : CmdWord) : Instr → Prop
  | .encOpen wrap => opcOf w = 0x01#8 ∧ argOf w = wrap
  | .encByte b => opcOf w = 0x02#8 ∧ argField w 8 16 = 0#16 ∧ argField w 0 8 = b
  | .encFin => opcOf w = 0x03#8 ∧ argOf w = 0#24
  | .decOpen ig => opcOf w = 0x11#8 ∧ argField w 1 23 = 0#23 ∧ argField w 0 1 = ig
  | .decUnit u => opcOf w = 0x12#8 ∧ argField w 16 8 = 0#8 ∧ argField w 0 16 = u
  | .decFin => opcOf w = 0x13#8 ∧ argOf w = 0#24
  | .lkS2c16 v => opcOf w = 0x21#8 ∧ argField w 16 1 = 0#1 ∧ argField w 17 7 = 0#7 ∧ argField w 0 16 = v
  | .lkS2c8 v => opcOf w = 0x21#8 ∧ argField w 16 1 ≠ 0#1 ∧ argField w 17 7 ++ argField w 8 8 = 0#15 ∧ argField w 0 8 = v
  | .lkC2s cp => opcOf w = 0x22#8 ∧ argField w 21 3 = 0#3 ∧ argField w 0 21 = cp
  | .baIdle _ _ | .baPush _ _ | .baEmit _ _ | .baClear _ _ => False

theorem ifReservedZero_eq_ok_iff {n : Nat} {r : BitVec n} {i j : Instr} :
    ifReservedZero r j = .ok i ↔ r = 0#n ∧ j = i := by
  rcases ifReservedZero_cases r j with ⟨hr, heq⟩ | ⟨hr, heq⟩
  · rw [heq]; simp [hr]
  · rw [heq]; simp [hr]

/-- The word the decoder accepts as a command is a word that has the command's fields: the tests of the decoder's branch are
the fields of the row (R94 to R103). -/
theorem hasFields_of_decodeCmd {w : CmdWord} {i : Instr} (h : decodeCmd w = .ok i) : HasFields w i := by
  unfold decodeCmd decodeS2c at h
  split_ifs at h with h01 h02 h03 h11 h12 h13 h21 hsel h22
  · cases h
    exact ⟨h01, rfl⟩
  all_goals obtain ⟨hres, rfl⟩ := ifReservedZero_eq_ok_iff.1 h
  · exact ⟨h02, hres, rfl⟩
  · exact ⟨h03, hres⟩
  · exact ⟨h11, hres, rfl⟩
  · exact ⟨h12, hres, rfl⟩
  · exact ⟨h13, hres⟩
  · exact ⟨h21, hsel, hres, rfl⟩
  · exact ⟨h21, hsel, hres, rfl⟩
  · exact ⟨h22, hres, rfl⟩

theorem decodeCmd_of_hasFields {w : CmdWord} {i : Instr} (h : HasFields w i) : decodeCmd w = .ok i := by
  cases i with
  | encOpen _ | encByte _ | encFin | decOpen _ | decUnit _ | decFin | lkC2s _ =>
    simp only [HasFields] at h
    simp [decodeCmd, ifReservedZero_eq_ok_iff, h]
  | lkS2c16 _ | lkS2c8 _ =>
    simp only [HasFields] at h
    simp [decodeCmd, decodeS2c, ifReservedZero_eq_ok_iff, h]
  | baIdle _ _ | baPush _ _ | baEmit _ _ | baClear _ _ => cases h

theorem decodeCmd_eq_ok_iff {w : CmdWord} {i : Instr} : decodeCmd w = .ok i ↔ HasFields w i :=
  ⟨hasFields_of_decodeCmd, decodeCmd_of_hasFields⟩

/-- The encoder puts each field where the decoder reads it: both sides are one equation between numbers, of the word and
of its fields. -/
theorem encode_eq_cmd_iff {w : CmdWord} {i : Instr} : encode i = .cmd w ↔ HasFields w i := by
  have hw := w.isLt
  cases i with
  | encOpen v | encByte v | decOpen v | decUnit v | lkS2c16 v | lkS2c8 v | lkC2s v =>
    have hv := v.isLt
    simp only [encode, HasFields, PortWord.cmd.injEq, Ne, ← BitVec.toNat_inj, opcOf_toNat, argOf_toNat, argField_toNat,
      toNat_append_add, BitVec.toNat_ofNat]
    omega
  | encFin | decFin =>
    simp only [encode, HasFields, PortWord.cmd.injEq, ← BitVec.toNat_inj, opcOf_toNat, argOf_toNat, BitVec.toNat_ofNat]
    omega
  | baIdle ch a | baPush ch a | baEmit ch a | baClear ch a => exact ⟨nofun, nofun⟩

theorem encode_decodeUop (ch : Channel) (w : UopWord) : encode (decodeUop ch w) = .uop ch w := by
  cases ch with
  | e => revert w; decide
  | d => revert w; decide

theorem encode_eq_uop_iff {ch : Channel} {w : UopWord} {i : Instr} : encode i = .uop ch w ↔ decodeUop ch w = i := by
  constructor
  · intro h
    cases i with
    | baIdle ch' a | baPush ch' a | baEmit ch' a | baClear ch' a =>
      cases h
      revert a
      cases ch with
      | e => decide
      | d => decide
    | _ => cases h
  · rintro rfl
    exact encode_decodeUop ch w

/-- The encoder and the decoder are each other's inverse: every word belongs to at most one instruction, its own. -/
theorem decode_eq_ok_iff {p : PortWord} {i : Instr} : decode p = .ok i ↔ encode i = p := by
  cases p with
  | cmd w => exact decodeCmd_eq_ok_iff.trans encode_eq_cmd_iff.symm
  | uop ch w => simp only [decode, Except.ok.injEq, encode_eq_uop_iff]

/-- Settles O1: the inverse, from the instruction to its word and back. -/
theorem decodeOfEncodeIsTheInstruction : Obligations.DecodeOfEncodeIsTheInstruction :=
  fun _ => decode_eq_ok_iff.2 rfl

/-- Settles O2: the inverse, from the word to its instruction and back. -/
theorem encodeOfDecodeIsTheWord : Obligations.EncodeOfDecodeIsTheWord :=
  fun _ _ h => decode_eq_ok_iff.1 h

/-- Settles O4: each word is the encoding of its instruction. -/
theorem writtenWordsDecode : Obligations.WrittenWordsDecode :=
  ⟨decodeOfEncodeIsTheInstruction (.encOpen 76#24), decodeOfEncodeIsTheInstruction (.encByte 0x68#8),
    decodeOfEncodeIsTheInstruction .encFin, decodeOfEncodeIsTheInstruction (.decOpen 1#1),
    decodeOfEncodeIsTheInstruction (.decUnit 0xD808#16), decodeOfEncodeIsTheInstruction .decFin,
    decodeOfEncodeIsTheInstruction (.lkS2c16 0xFF00#16), decodeOfEncodeIsTheInstruction (.lkS2c8 0xFF#8),
    decodeOfEncodeIsTheInstruction (.lkC2s 0x1FFFFF#21), decodeOfEncodeIsTheInstruction (.baIdle .d 1#1),
    decodeOfEncodeIsTheInstruction (.baPush .e 1#1), decodeOfEncodeIsTheInstruction (.baEmit .d 1#1),
    decodeOfEncodeIsTheInstruction (.baClear .e 0#1)⟩

end Sys2Proof.Machine

/-! ### The nine rows of the command table (30_encoding R103) -/

namespace Sys2Proof.Machine

/-- A row's mask keeps the fixed upper bits: a word in the row is the row's fixed bits and an operand. -/
theorem eq_append_of_and_mask {m n : Nat} {w : BitVec (m + n)} {p : BitVec m}
    (h : w &&& (BitVec.allOnes m ++ 0#n) = p ++ 0#n) : w = p ++ w.extractLsb' 0 n := by
  have hsplit : w = w.extractLsb' n m ++ w.extractLsb' 0 n := by
    rw [BitVec.extractLsb'_append_extractLsb'_eq_extractLsb' (by omega), BitVec.extractLsb'_eq_self]
  rw [hsplit, append_and_append, BitVec.and_allOnes, BitVec.and_zero] at h
  rw [← (BitVec.append_left_inj _).1 h]
  exact hsplit

theorem mem_commandRows_of_commandRowOf {i : Instr} {r : Row} (h : commandRowOf i = some r) : r ∈ commandRows := by
  cases i with
  | baIdle _ _ | baPush _ _ | baEmit _ _ | baClear _ _ => cases h
  | _ => cases h; decide

/-- The command word of an instruction lies in its row (`Laws.RowMatch`). -/
theorem covered_of_encode {i : Instr} {w : CmdWord} (h : encode i = .cmd w) :
    ∃ r ∈ commandRows, w &&& r.mask = r.pattern := by
  have hrow : ∃ r, commandRowOf i = some r ∧ w &&& r.mask = r.pattern := by
    cases i with
    | encOpen wrap => cases h; exact Laws.RowMatch.encOpen wrap
    | encByte b => cases h; exact Laws.RowMatch.encByte b
    | encFin => cases h; exact Laws.RowMatch.encFin
    | decOpen ig => cases h; exact Laws.RowMatch.decOpen ig
    | decUnit u => cases h; exact Laws.RowMatch.decUnit u
    | decFin => cases h; exact Laws.RowMatch.decFin
    | lkS2c16 v => cases h; exact Laws.RowMatch.lkS2c16 v
    | lkS2c8 v => cases h; exact Laws.RowMatch.lkS2c8 v
    | lkC2s cp => cases h; exact Laws.RowMatch.lkC2s cp
    | _ => cases h
  obtain ⟨r, hr, hw⟩ := hrow
  exact ⟨r, mem_commandRows_of_commandRowOf hr, hw⟩

/-- A word of a row is the word of the row's instruction at the operand that the word holds. -/
theorem encode_of_covered {w : CmdWord} (h : ∃ r ∈ commandRows, w &&& r.mask = r.pattern) : ∃ i, encode i = .cmd w := by
  obtain ⟨r, hr, hw⟩ := h
  simp only [commandRows, List.mem_cons, List.not_mem_nil, or_false] at hr
  rcases hr with rfl | rfl | rfl | rfl | rfl | rfl | rfl | rfl | rfl
  · exact ⟨.encOpen _, congrArg PortWord.cmd (eq_append_of_and_mask (p := 0x01#8) hw).symm⟩
  · exact ⟨.encByte _, congrArg PortWord.cmd (eq_append_of_and_mask (p := 0x020000#24) hw).symm⟩
  · exact ⟨.encFin, congrArg PortWord.cmd (hw.symm.trans BitVec.and_allOnes)⟩
  · exact ⟨.decOpen _, congrArg PortWord.cmd (eq_append_of_and_mask (p := 0x11#8 ++ 0#23) hw).symm⟩
  · exact ⟨.decUnit _, congrArg PortWord.cmd (eq_append_of_and_mask (p := 0x1200#16) hw).symm⟩
  · exact ⟨.decFin, congrArg PortWord.cmd (hw.symm.trans BitVec.and_allOnes)⟩
  · exact ⟨.lkS2c16 _, congrArg PortWord.cmd (eq_append_of_and_mask (p := 0x2100#16) hw).symm⟩
  · exact ⟨.lkS2c8 _, congrArg PortWord.cmd (eq_append_of_and_mask (p := 0x210100#24) hw).symm⟩
  · exact ⟨.lkC2s _, congrArg PortWord.cmd (eq_append_of_and_mask (p := 0x22#8 ++ 0#3) hw).symm⟩

theorem decodes_iff_covered (w : CmdWord) :
    (∃ i, decode (.cmd w) = .ok i) ↔ ∃ r ∈ commandRows, w &&& r.mask = r.pattern := by
  simp only [decode_eq_ok_iff]
  exact ⟨fun ⟨_, hi⟩ => covered_of_encode hi, encode_of_covered⟩

/-- Two rows are told apart by the bits that both fix: on those no pattern agrees with another. -/
theorem commandRows_disjoint (w : CmdWord) :
    commandRows.Pairwise fun r r' => ¬(w &&& r.mask = r.pattern ∧ w &&& r'.mask = r'.pattern) := by
  have hbits : commandRows.Pairwise fun r r' => r.pattern &&& r'.mask ≠ r'.pattern &&& r.mask := by decide
  refine hbits.imp fun hne hboth => hne ?_
  obtain ⟨hr, hr'⟩ := hboth
  rw [← hr, ← hr']
  ac_rfl

end Sys2Proof.Machine

/-! ### The kinds of step (30_encoding R91, R103; 70_reset_and_hazards R330, R331, R340) -/

namespace Sys2Proof.Machine

section Steps

variable {s : State} {rest : List Input} {p : PortWord}

theorem step_waiting (hok : s.cfg.ok = true) (hready : s.ready = true) (hinp : s.inp = []) : step s = .next s := by
  simp [step, takeInput, hok, hready, hinp]

theorem step_resetRequest (hok : s.cfg.ok = true) (hinp : s.inp = .reset :: rest) :
    step s = .next (assertReset { s with inp := rest }) := by
  simp [step, takeInput, hok, hinp]

theorem step_notReady (hok : s.cfg.ok = true) (hready : s.ready = false) (hinp : ∀ rest, s.inp ≠ .reset :: rest) :
    step s = resetSequence s := by
  rcases h : s.inp with _ | ⟨_ | p, rest⟩
  · simp [step, takeInput, hok, hready, h]
  · exact absurd h (hinp rest)
  · simp [step, takeInput, hok, hready, h]

theorem step_decoded (hok : s.cfg.ok = true) (hready : s.ready = true) (hinp : s.inp = .word p :: rest) {i : Instr}
    (hdec : decode p = .ok i) : step s = exec i { s with inp := rest } := by
  simp [step, takeInput, hok, hready, hinp, hdec]

theorem step_illegal (hok : s.cfg.ok = true) (hready : s.ready = true) (hinp : s.inp = .word p :: rest)
    {er : DecodeError} (hdec : decode p = .error er) : step s = refuseIllegal { s with inp := rest } := by
  simp [step, takeInput, hok, hready, hinp, hdec]

theorem resetSequence_eq (hok : s.cfg.ok = true) : resetSequence s =
    .next { s with mem := build s.cfg s.mem, e := freshEnc 0#24 s.e, d := freshDec false s.d, ready := true } :=
  if_pos hok

end Steps

/-- Settles O3: a word outside every row is no encoding, so the decoder refuses it and the step answers it as illegal. -/
theorem legalWordsRunAndIllegalOnesChangeNothing : Obligations.LegalWordsRunAndIllegalOnesChangeNothing := by
  refine ⟨decodes_iff_covered, commandRows_disjoint, fun s w rest hok hready hinp hill => ?_⟩
  rcases hdec : decode (.cmd w) with er | i
  · exact step_illegal hok hready hinp hdec
  · obtain ⟨r, hr, hw⟩ := (decodes_iff_covered w).1 ⟨i, hdec⟩
    exact absurd hw (hill r hr)

/-- Settles O5, by the equation of a step that takes a legal word. -/
theorem stepRunsTheDecodedInstruction : Obligations.StepRunsTheDecodedInstruction :=
  fun _ _ _ _ hok hready hinp hdec => step_decoded hok hready hinp hdec

theorem decodeTableWord_eq_some_iff {nbits w : Nat} {i : Instr} :
    decodeTableWord nbits w = some i ↔ decode (tableWord nbits w) = .ok i := by
  rcases hdec : decode (tableWord nbits w) with er | j
  · simp [decodeTableWord, hdec]
  · simp [decodeTableWord, hdec]

/-- Settles O6: the word placed is at the head of the queue, and what is left when the step has taken it is what was offered
before. -/
theorem tableWordRunsNext : Obligations.TableWordRunsNext :=
  fun s nbits w _ hok hdec =>
    step_decoded (s := s.withFetchWord nbits w) hok rfl rfl (decodeTableWord_eq_some_iff.1 hdec)

/-- Settles O43: the step is the reset sequence, which leaves the ports alone. -/
theorem noCommandIsAcceptedBeforeReady : Obligations.NoCommandIsAcceptedBeforeReady := by
  intro s p rest hok hready hinp
  have hword : ∀ rest', s.inp ≠ .reset :: rest' := by simp [hinp]
  exact ⟨_, (step_notReady hok hready hword).trans (resetSequence_eq hok), rfl, rfl, rfl, rfl⟩

end Sys2Proof.Machine

/-! ### Assembler lines (30_encoding R109) -/

namespace Sys2Proof.Machine

theorem ofNat_eq_zero_append {n : Nat} (m k : Nat) (hn : n < 2 ^ k) : BitVec.ofNat (m + k) n = 0#m ++ BitVec.ofNat k n := by
  have hlt : n < 2 ^ (m + k) := hn.trans_le (Nat.pow_le_pow_right (by decide) (Nat.le_add_left k m))
  apply BitVec.eq_of_toNat_eq
  simp only [toNat_append_add, BitVec.toNat_ofNat, Nat.mod_eq_of_lt hlt, Nat.mod_eq_of_lt hn, Nat.zero_mod, Nat.zero_mul,
    Nat.zero_add]

/-- An operand in range is or-ed into the word's zero bits. -/
theorem append_ofNat_eq_or {m k n : Nat} (p : BitVec m) (hn : n < 2 ^ k) :
    p ++ BitVec.ofNat k n = (p ++ 0#k) ||| BitVec.ofNat (m + k) n := by
  rw [ofNat_eq_zero_append m k hn, BitVec.or_append, BitVec.or_zero, BitVec.zero_or]

section Lines

variable {ch : Channel} {l : AsmLine}

theorem assembleLine_eq_none (h : l.wellFormed = false) : assembleLine ch l = none := by
  simp [assembleLine, h]

theorem assembleLine_isSome (ch : Channel) (l : AsmLine) : (assembleLine ch l).isSome = l.wellFormed := by
  rcases hl : l.wellFormed with _ | _
  · rw [assembleLine_eq_none hl, Option.isSome_none]
  · unfold assembleLine
    rw [if_pos hl]
    cases l <;> rfl

theorem word_of_line {i : Instr} {p : PortWord} (hl : assembleLine ch l = some i) (hp : encode i = p) :
    (assembleLine ch l).map encode = some p := by
  rw [hl, Option.map_some, hp]

end Lines

/-- Settles O52: in range, the operand is or-ed into its row's fixed bits (`append_ofNat_eq_or`); out of range, the line is not
well formed. -/
theorem assembledLinesHaveTheirWords : Obligations.AssembledLinesHaveTheirWords := by
  intro ch
  refine ⟨assembleLine_isSome ch, fun n hn => ?_, fun n hn => ?_, rfl, fun n hn => ?_, fun n hn => ?_, rfl, fun n hn => ?_,
    fun n hn => ?_, fun n hn => ?_, rfl, fun n hn => ?_, rfl, rfl, rfl, ?_⟩
  · exact word_of_line (if_pos (decide_eq_true hn)) (congrArg PortWord.cmd (append_ofNat_eq_or 0x01#8 (by omega)))
  · exact word_of_line (if_pos (decide_eq_true hn)) (congrArg PortWord.cmd (append_ofNat_eq_or 0x020000#24 (by omega)))
  · exact word_of_line (if_pos (decide_eq_true hn)) (congrArg PortWord.cmd (append_ofNat_eq_or (0x11#8 ++ 0#23) (by omega)))
  · exact word_of_line (if_pos (decide_eq_true hn)) (congrArg PortWord.cmd (append_ofNat_eq_or 0x1200#16 (by omega)))
  · exact word_of_line (if_pos (decide_eq_true hn)) (congrArg PortWord.cmd (append_ofNat_eq_or 0x2100#16 (by omega)))
  · exact word_of_line (if_pos (decide_eq_true hn)) (congrArg PortWord.cmd (append_ofNat_eq_or 0x210100#24 (by omega)))
  · exact word_of_line (if_pos (decide_eq_true hn)) (congrArg PortWord.cmd (append_ofNat_eq_or (0x22#8 ++ 0#3) (by omega)))
  · exact word_of_line (if_pos (decide_eq_true hn)) (congrArg (PortWord.uop ch) (append_ofNat_eq_or 0b01#2 (by omega)))
  · refine ⟨?_, ?_, ?_, ?_, ?_, ?_, ?_, ?_, fun n h16 h8 => assembleLine_eq_none (decide_eq_false (by omega))⟩
    all_goals exact fun n hn => assembleLine_eq_none (decide_eq_false (by omega))

end Sys2Proof.Machine

/-! ### Response words (30_encoding R106) -/

namespace Sys2Proof.Machine

/-- The header as a number: the fields side by side. -/
theorem responseHeader_toNat {r : Response} (hlen : r.out.length ≤ 3) : (responseHeader r).toNat =
    (statusCode r.status).toNat * 2 ^ 28 + r.out.length * 2 ^ 26 + r.info.toNat := by
  simp only [responseHeader, toNat_append_add, BitVec.toNat_ofNat]
  omega

/-- Settles O51: each field is cut out of the header's number; the numbers of the codes are by definition. -/
theorem responseHeaderHoldsItsFields : Obligations.ResponseHeaderHoldsItsFields := by
  intro r hlen
  have hnum := responseHeader_toNat hlen
  have hstatus := (statusCode r.status).isLt
  have hinfo := r.info.isLt
  refine ⟨responseHeader r, rfl, ?_, ?_, ?_, ?_, fun _ => rfl, fun _ => rfl, fun _ => rfl, rfl, rfl, rfl, rfl, rfl, rfl,
    rfl, rfl, rfl, rfl, rfl⟩
  · apply BitVec.eq_of_toNat_eq
    rw [toNat_extractLsb'_div, hnum]
    omega
  · rw [toNat_extractLsb'_div, hnum]
    omega
  · apply BitVec.eq_of_toNat_eq
    rw [toNat_extractLsb'_div, hnum, BitVec.toNat_ofNat]
    omega
  · apply BitVec.eq_of_toNat_eq
    rw [toNat_extractLsb'_div, hnum]
    omega

end Sys2Proof.Machine

/-! ### Under the invariant every command completes (30_encoding R91, 70_reset_and_hazards R342) -/

namespace Sys2Proof.Machine

/-- The first byte of a pair waits in the accumulator as its eight bits (R192, R193). -/
theorem pushBits16_byte (a : BitVec 16) :
    (pushBits 16#5 8 a Acc.empty).1.n.toNat = 8 ∧ AccWf (pushBits 16#5 8 a Acc.empty).1 := by
  obtain ⟨-, hn, hz⟩ := pushBits_short (width := 16#5) 8 a accWf_empty (by decide) (by decide)
  have hn8 : (pushBits 16#5 8 a Acc.empty).1.n.toNat = 8 := hn
  refine ⟨hn8, by omega, ?_⟩
  rw [hn8, hz]
  simp only [Acc.empty, BitVec.toNat_ofNat]
  omega

/-- The second byte completes one symbol (R192). -/
theorem pushBits16_pair (a b : BitVec 16) :
    ∃ sym, pushBits 16#5 8 b (pushBits 16#5 8 a Acc.empty).1 = (Acc.empty, [sym]) := by
  obtain ⟨hn, hwf⟩ := pushBits16_byte a
  obtain ⟨sym, heq, -⟩ := pushBits_fill (width := 16#5) 8 b hwf (by decide) (by rw [hn]; rfl) (by decide)
  exact ⟨sym, heq⟩

/-- A pending byte fills the width of the terminal symbol with no padding (R193). -/
theorem accEmit_pendingByte_full (a : BitVec 16) :
    (accEmit 8#5 (padTo8 8 (pushBits 16#5 8 a Acc.empty).1)).2.full = true := by
  obtain ⟨hn, -⟩ := pushBits16_byte a
  have hn8 : (pushBits 16#5 8 a Acc.empty).1.n = 8#5 := BitVec.eq_of_toNat_eq hn
  rw [padTo8_of_le hn.ge, accEmit, if_pos hn8]

/-- The outcome is a next state, no fault and no refusal. -/
def Completes (o : Host.Outcome State Fault Refusal) : Prop := ∃ t, o = .next t

theorem returnOk_completes (out : List Item) (s : State) : Completes (returnOk out s) := ⟨_, rfl⟩
theorem raise_completes (c : ErrCode) (info : CodePoint) (s : State) : Completes (raise c info s) := ⟨_, rfl⟩
theorem refuseDead_completes (er : DecError) (s : State) : Completes (refuseDead er s) := ⟨_, rfl⟩

section Completes

variable {s : State}

theorem execEncByte_completes (hok : s.cfg.ok = true) (hba : s.e.ba = Acc.empty) (b : Byte) :
    Completes (execEncByte b s) := by
  rcases hp : s.e.pend with _ | a
  · simp only [execEncByte, hp]
    exact returnOk_completes _ _
  · obtain ⟨sym, hsym⟩ := pushBits16_pair (a.setWidth 16) (b.setWidth 16)
    simp only [execEncByte, hp, hba, hsym, s2c16_eq hok]
    exact returnOk_completes _ _

theorem execEncFin_completes (hok : s.cfg.ok = true) (hba : s.e.ba = Acc.empty) : Completes (execEncFin s) := by
  rcases hp : s.e.pend with _ | a
  · simp only [execEncFin, hp]
    exact returnOk_completes _ _
  · simp only [execEncFin, hp, hba, accEmit_pendingByte_full, if_true, s2c8_eq hok]
    exact returnOk_completes _ _

theorem decodeCp_completes (hok : s.cfg.ok = true) (cp : CodePoint) (d : DecChan) : Completes (decodeCp cp d s) := by
  simp only [decodeCp, c2s_eq hok]
  split_ifs
  · exact returnOk_completes _ _
  · exact raise_completes _ _ _
  · exact raise_completes _ _ _
  · exact returnOk_completes _ _
  · exact returnOk_completes _ _
  · exact raise_completes _ _ _

theorem execDecUnit_completes (hok : s.cfg.ok = true) (u : CodeUnit) : Completes (execDecUnit u s) := by
  unfold execDecUnit
  split
  · exact refuseDead_completes _ _
  · split <;> split_ifs
    · exact decodeCp_completes hok _ _
    · exact raise_completes _ _ _
    · exact returnOk_completes _ _
    · exact raise_completes _ _ _
    · exact decodeCp_completes hok _ _

theorem execDecFin_completes (s : State) : Completes (execDecFin s) := by
  unfold execDecFin
  split
  · exact refuseDead_completes _ _
  · split
    · exact raise_completes _ _ _
    · exact returnOk_completes _ _

/-- A host command faults only on a malformed range parameter, and in the encode group on an accumulator that was not empty
before it. -/
theorem exec_command_completes {i : Instr} (hi : isCommand i = true) (hok : s.cfg.ok = true) (hba : s.e.ba = Acc.empty) :
    Completes (exec i s) := by
  cases i with
  | encOpen wrap => exact returnOk_completes _ _
  | encByte b => exact execEncByte_completes hok hba b
  | encFin => exact execEncFin_completes hok hba
  | decOpen ig => exact returnOk_completes _ _
  | decUnit u => exact execDecUnit_completes hok u
  | decFin => exact execDecFin_completes s
  | lkS2c16 v => simp only [exec_lkS2c16, execLkS2c16, s2c16_eq hok]; exact returnOk_completes _ _
  | lkS2c8 v => simp only [exec_lkS2c8, execLkS2c8, s2c8_eq hok]; exact returnOk_completes _ _
  | lkC2s cp => simp only [exec_lkC2s, execLkC2s, c2s_eq hok]; exact returnOk_completes _ _
  | baIdle _ _ | baPush _ _ | baEmit _ _ | baClear _ _ => cases hi

theorem Inv.exec_completes (hs : Inv s) (hready : s.ready = true) {i : Instr} (hi : isCommand i = true) :
    Completes (exec i s) :=
  exec_command_completes hi hs.config (hs.enc hready).1

end Completes

/-- Settles O46, by the kinds of step: only running an instruction could stop the block, and the host offers commands
alone. -/
theorem stepsUnderTheInvariantComplete : Obligations.StepsUnderTheInvariantComplete := by
  intro s hs
  show Completes (step s)
  rcases hready : s.ready with _ | _
  · by_cases hreset : ∃ rest, s.inp = .reset :: rest
    · obtain ⟨rest, hinp⟩ := hreset
      exact ⟨_, step_resetRequest hs.config hinp⟩
    · exact ⟨_, (step_notReady hs.config hready (not_exists.1 hreset)).trans (resetSequence_eq hs.config)⟩
  · rcases hinp : s.inp with _ | ⟨_ | p, rest⟩
    · exact ⟨s, step_waiting hs.config hready hinp⟩
    · exact ⟨_, step_resetRequest hs.config hinp⟩
    · rcases hdec : decode p with er | i
      · exact ⟨_, step_illegal hs.config hready hinp hdec⟩
      · have hhost : hostInput (.word p) = true := hs.host _ (hinp ▸ List.mem_cons_self)
        rw [step_decoded hs.config hready hinp hdec]
        exact (hs.after_takeHead hinp).exec_completes hready (isCommand_of_hostInput hhost hdec)

/-! ### The response of a command (30_encoding R104) -/

theorem utf16_length_le (cp : CodePoint) : (utf16 cp).length ≤ 2 := by
  unfold utf16
  split_ifs
  · exact Nat.le_succ 1
  · exact le_rfl

/-- The line break is a single unit (R135 item 6). -/
theorem utf16_wrapCp_length {cfg : Config} (hok : cfg.ok = true) : (utf16 cfg.wrapCp).length = 1 := by
  obtain ⟨-, -, -, -, -, -, -, -, -, hwrap⟩ := (config_ok_iff cfg).1 hok
  simp only [wrapCpOk, Bool.and_eq_true, decide_eq_true_eq] at hwrap
  obtain ⟨⟨-, hlt⟩, -⟩ := hwrap
  rw [utf16, if_pos hlt, List.length_singleton]

theorem emitCp_length_le {cfg : Config} (hok : cfg.ok = true) (cp : CodePoint) (e : EncChan) :
    (emitCp cfg cp e).2.length ≤ 3 := by
  have hcp := utf16_length_le cp
  have hbreak := utf16_wrapCp_length hok
  rcases emitCp_cases cfg cp e with ⟨-, heq⟩ | ⟨-, -, heq⟩ | ⟨-, -, heq⟩
  · rw [heq]; exact Nat.le_succ_of_le hcp
  · rw [heq, List.length_append]; omega
  · rw [heq]; exact Nat.le_succ_of_le hcp

theorem pushBits8_byte_length (v : BitVec 16) : (pushBits 8#5 8 v Acc.empty).2.length = 1 := by
  obtain ⟨sym, heq, -⟩ := pushBits_fill (width := 8#5) 8 v accWf_empty (by decide) (by decide) (by decide)
  rw [heq, List.length_singleton]

theorem pushBits8_pair_length (v : BitVec 16) : (pushBits 8#5 16 v Acc.empty).2.length = 2 := by
  have hsplit := congrArg (List.length ∘ Prod.snd) (pushBits_add 8#5 8 8 v Acc.empty)
  simpa only [Function.comp_apply, List.length_append, pushBits8_byte_empty, pushBits8_byte_length] using hsplit

/-- What R104 asks of the response of `i`: at most three items, of the kind of `i`'s group, none with a status other than
OK; and no info with status OK. -/
structure ResponseFits (i : Instr) (r : Response) : Prop where
  count : r.out.length ≤ 3
  noneOnError : r.status ≠ .ok → r.out = []
  infoOnOk : r.status = .ok → r.info = 0#21
  kind : ∀ x ∈ r.out, itemOfGroup i x = true

theorem responseFits_ok {i : Instr} {out : List Item} (hlen : out.length ≤ 3) (hkind : ∀ x ∈ out, itemOfGroup i x = true) :
    ResponseFits i ⟨.ok, 0#21, out⟩ := ⟨hlen, fun h => absurd rfl h, fun _ => rfl, hkind⟩

theorem responseFits_failed (i : Instr) {st : Status} (info : CodePoint) (hst : st ≠ .ok) : ResponseFits i ⟨st, info, []⟩ :=
  ⟨Nat.zero_le 3, fun _ => rfl, fun h => absurd h hst, nofun⟩

/-- From `s` to `t` one response came to `RSP`, one that R104 allows for `i`. -/
def AnswersOnce (i : Instr) (s t : State) : Prop := ∃ r, t.rsp = s.rsp ++ [r] ∧ ResponseFits i r

theorem answersOnce_respond {i : Instr} {s t : State} {r : Response} (hr : ResponseFits i r) (hs : t.rsp = s.rsp) :
    AnswersOnce i s (respond r t) := ⟨r, by rw [respond_rsp, hs], hr⟩

theorem errStatus_ne_ok (c : ErrCode) : errStatus c ≠ .ok := by cases c <;> decide

section Answers

variable {i : Instr} {s t : State}

theorem answersOnce_raise {c : ErrCode} {info : CodePoint} (h : raise c info s = .next t) : AnswersOnce i s t := by
  obtain rfl := (raise_next_iff _ _ _ _).1 h
  exact answersOnce_respond (responseFits_failed i info (errStatus_ne_ok c)) rfl

theorem answersOnce_refuseDead {er : DecError} (h : refuseDead er s = .next t) : AnswersOnce i s t := by
  obtain rfl := (refuseDead_next_iff _ _ _).1 h
  exact answersOnce_respond (responseFits_failed i _ (by decide)) rfl

/-- The units of one code point are a response that R104 allows for an encode command. -/
theorem responseFits_units (hi : isEnc i = true) {us : List CodeUnit} (hlen : us.length ≤ 3) :
    ResponseFits i ⟨.ok, 0#21, us.map .unit⟩ := by
  refine responseFits_ok (by rwa [List.length_map]) fun x hx => ?_
  obtain ⟨u, -, rfl⟩ := List.mem_map.1 hx
  exact hi

theorem responseFits_bytes (hi : isDec i = true) {syms : List Symbol} (hlen : syms.length ≤ 3) :
    ResponseFits i ⟨.ok, 0#21, byteItems syms⟩ := by
  refine responseFits_ok (by rwa [byteItems, List.length_map]) fun x hx => ?_
  obtain ⟨v, -, rfl⟩ := List.mem_map.1 hx
  exact hi

theorem responseFits_word (hi : isLk i = true) (w : BitVec 32) : ResponseFits i ⟨.ok, 0#21, [.word w]⟩ := by
  refine responseFits_ok (Nat.le_add_left 1 2) fun x hx => ?_
  obtain rfl := List.mem_singleton.1 hx
  exact hi

theorem responseFits_nil (i : Instr) : ResponseFits i ⟨.ok, 0#21, []⟩ := responseFits_ok (Nat.zero_le 3) nofun

theorem exec_enc_answersOnce (hi : isEnc i = true) (h : exec i s = .next t) : AnswersOnce i s t := by
  cases i with
  | encOpen wrap =>
    obtain rfl := execEncOpen_next h
    exact answersOnce_respond (responseFits_nil _) rfl
  | encByte b =>
    rw [exec_encByte] at h
    rcases execEncByte_next h with ⟨-, rfl⟩ | ⟨a, sym, c, -, hok, -, rfl⟩
    · exact answersOnce_respond (responseFits_nil _) rfl
    · exact answersOnce_respond (responseFits_units hi (emitCp_length_le hok _ _)) rfl
  | encFin =>
    rw [exec_encFin] at h
    rcases execEncFin_next h with ⟨-, rfl⟩ | ⟨a, ans, c, -, hok, -, -, rfl⟩
    · exact answersOnce_respond (responseFits_nil _) rfl
    · exact answersOnce_respond (responseFits_units hi (emitCp_length_le hok _ _)) rfl
  | _ => cases hi

theorem decodeCp_answersOnce (hi : isDec i = true) {cp : CodePoint} {d : DecChan} (h : decodeCp cp d s = .next t)
    (hba : d.ba = Acc.empty) : AnswersOnce i s t := by
  obtain ⟨-, w, -, hw⟩ := decodeCp_next h
  rw [hba] at hw
  rcases hw with ⟨-, -, rfl⟩ | ⟨-, -, hr⟩ | ⟨-, -, hr⟩ | ⟨-, -, -, rfl⟩ | ⟨-, -, -, -, rfl⟩ | ⟨-, -, -, -, hr⟩
  · exact answersOnce_respond (responseFits_nil i) rfl
  · exact answersOnce_raise hr
  · exact answersOnce_raise hr
  · exact answersOnce_respond (responseFits_bytes hi (by rw [pushBits8_pair_length]; decide)) rfl
  · exact answersOnce_respond (responseFits_bytes hi (by rw [pushBits8_byte_length]; decide)) rfl
  · exact answersOnce_raise hr

theorem exec_dec_answersOnce (hi : isDec i = true) (hba : s.d.ba = Acc.empty) (h : exec i s = .next t) :
    AnswersOnce i s t := by
  cases i with
  | decOpen ig =>
    obtain rfl := execDecOpen_next h
    exact answersOnce_respond (responseFits_nil _) rfl
  | decUnit u =>
    rw [exec_decUnit] at h
    rcases execDecUnit_next h with ⟨er, -, hr⟩ | ⟨-, ⟨v, -, -, hr⟩ | ⟨v, -, -, hr⟩ | ⟨-, -, rfl⟩ | ⟨-, -, -, hr⟩ |
      ⟨-, -, -, hr⟩⟩
    · exact answersOnce_refuseDead hr
    · exact decodeCp_answersOnce hi hr hba
    · exact answersOnce_raise hr
    · exact answersOnce_respond (responseFits_nil _) rfl
    · exact answersOnce_raise hr
    · exact decodeCp_answersOnce hi hr hba
  | decFin =>
    rw [exec_decFin] at h
    rcases execDecFin_next h with ⟨er, -, hr⟩ | ⟨-, ⟨v, -, hr⟩ | ⟨-, rfl⟩⟩
    · exact answersOnce_refuseDead hr
    · exact answersOnce_raise hr
    · exact answersOnce_respond (responseFits_nil _) rfl
  | _ => cases hi

theorem exec_lk_answersOnce (hi : isLk i = true) (h : exec i s = .next t) : AnswersOnce i s t := by
  cases i with
  | lkS2c16 v => obtain ⟨-, rfl⟩ := execLkS2c16_next h; exact answersOnce_respond (responseFits_word hi _) rfl
  | lkS2c8 v => obtain ⟨-, rfl⟩ := execLkS2c8_next h; exact answersOnce_respond (responseFits_word hi _) rfl
  | lkC2s cp => obtain ⟨-, rfl⟩ := execLkC2s_next h; exact answersOnce_respond (responseFits_word hi _) rfl
  | _ => cases hi

theorem exec_command_answersOnce (hi : isCommand i = true) (hba : s.d.ba = Acc.empty) (h : exec i s = .next t) :
    AnswersOnce i s t := by
  rcases group_of_isCommand hi with henc | hdec | hlk
  · exact exec_enc_answersOnce henc h
  · exact exec_dec_answersOnce hdec hba h
  · exact exec_lk_answersOnce hlk h

/-- A host command leaves the input ports and the accumulators' answers alone. -/
theorem exec_command_ports (hi : isCommand i = true) (h : exec i s = .next t) : t.inp = s.inp ∧ t.ans = s.ans := by
  rcases group_of_isCommand hi with henc | hdec | hlk
  · rw [exec_enc_frame henc h]; exact ⟨rfl, rfl⟩
  · rw [exec_dec_frame hdec h]; exact ⟨rfl, rfl⟩
  · rw [exec_lk_frame hlk h]; exact ⟨rfl, rfl⟩

end Answers

/-- Settles O48: an illegal word is answered with nothing; a legal one is run, completes under the invariant and answers
once. -/
theorem oneResponsePerCommand : Obligations.OneResponsePerCommand := by
  intro s w rest hs hready hinp
  rcases hdec : decode (.cmd w) with er | i
  · exact ⟨_, _, step_illegal hs.config hready hinp hdec, rfl, rfl, rfl, Nat.zero_le 3, fun _ => rfl, nofun, nofun⟩
  · have hi : isCommand i = true := isCommand_of_decodeCmd hdec
    have hs' : Inv { s with inp := rest } := hs.after_takeHead hinp
    obtain ⟨t, ht⟩ := hs'.exec_completes hready hi
    obtain ⟨r, hrsp, hfits⟩ := exec_command_answersOnce hi (hs'.dec hready).1 ht
    obtain ⟨hports, hans⟩ := exec_command_ports hi ht
    refine ⟨t, r, (step_decoded hs.config hready hinp hdec).trans ht, hports, hrsp, hans, hfits.count, hfits.noneOnError,
      hfits.infoOnOk, fun j hj => ?_⟩
    cases hj
    exact hfits.kind

end Sys2Proof.Machine

/-! ### The enumeration and the built tables (40_range_table R131 to R133, R143; 20_memory R64) -/

namespace Sys2Proof.Machine

/-- Past the first ranges the enumeration goes on with the rest (R131). -/
theorem repertoire_append (before rs : List Range) (e : Nat) :
    repertoire (before ++ rs) (rangesTotal before + e) = repertoire rs e := by
  induction before with
  | nil => rw [rangesTotal, Nat.zero_add, List.nil_append]
  | cons r before ih =>
    have hbeyond : ¬r.size + rangesTotal before + e < r.size := by omega
    rw [rangesTotal, List.cons_append, repertoire_beyond hbeyond, Nat.add_assoc, Nat.add_sub_cancel_left, ih]

/-- Settles O36: the ranges before are passed over (`repertoire_append`), and `k` is inside the range. -/
theorem enumerationIsInDeclaredOrder : Obligations.EnumerationIsInDeclaredOrder :=
  fun before _ _ k hk => (repertoire_append before _ k).trans (repertoire_below hk)

/-- A code point outside the scalar values is in no range of a family (R135 item 5). -/
theorem rangesHave_of_not_scalar {rs : List Range} (h : rangesScalar rs = true) {c : CodePoint}
    (hc : isScalar c = false) : rangesHave rs c = false := by
  by_contra hne
  have hscalar := rangesHave_scalar h (by simpa using hne)
  rw [hc] at hscalar
  cases hscalar

/-- A concatenation determines its fields (R12). -/
theorem append_fields {m n : Nat} {a a' : BitVec m} {b b' : BitVec n} (e : a ++ b = a' ++ b') : a = a' ∧ b = b' := by
  have hhigh := congrArg (BitVec.extractLsb' n m) e
  have hlow := congrArg (BitVec.extractLsb' 0 n) e
  rw [BitVec.extractLsb'_append_eq_left, BitVec.extractLsb'_append_eq_left] at hhigh
  rw [BitVec.extractLsb'_append_eq_right, BitVec.extractLsb'_append_eq_right] at hlow
  exact ⟨hhigh, hlow⟩

/-- A `DTAB` word determines its three fields (R64). -/
theorem dword_fields {h h' w w' : BitVec 1} {v v' : BitVec 16} (e : dword h w v = dword h' w' v') :
    h = h' ∧ w = w' ∧ v = v' := by
  obtain ⟨hhw, hv⟩ := append_fields e
  obtain ⟨hh, hw⟩ := append_fields hhw
  exact ⟨hh, hw, hv⟩

/-- An 8-bit symbol is the low byte of its 16-bit value. -/
theorem setWidth16_inj {v v' : BitVec 8} (e : v.setWidth 16 = v'.setWidth 16) : v = v' := by
  have hlow := congrArg (BitVec.setWidth 8) e
  rwa [BitVec.setWidth_setWidth_of_le _ (by decide), BitVec.setWidth_setWidth_of_le _ (by decide), BitVec.setWidth_eq,
    BitVec.setWidth_eq] at hlow

section Built

variable {cfg : Config} (hok : cfg.ok = true)
include hok

/-- Every 16-bit index is one of the enumeration, and its code point has that index (R131, R135). -/
theorem enumIndex_ranges16 (e : BitVec 16) :
    enumIndex cfg.ranges16 (repertoire cfg.ranges16 e.toNat) = some e.toNat := by
  obtain ⟨ho, -, ha, -, htotal, -⟩ := (config_ok_iff cfg).1 hok
  exact enumIndex_repertoire ho ha (htotal ▸ e.isLt)

theorem enumIndex_ranges8 (e : BitVec 8) :
    enumIndex cfg.ranges8 (repertoire cfg.ranges8 e.toNat) = some e.toNat := by
  obtain ⟨-, ho, -, ha, -, htotal, -⟩ := (config_ok_iff cfg).1 hok
  exact enumIndex_repertoire ho ha (htotal ▸ e.isLt)

/-- The built `DTAB` undoes the built `ETAB16` (R143). -/
theorem readDtab_readEtab16 (v : BitVec 16) :
    readDtab cfg Memory.built (readEtab16 cfg Memory.built v) = dword 1#1 0#1 v := by
  rw [readDtab_built, readEtab16_built, builtDtab_of_index16 (enumIndex_ranges16 hok (bswap16 v)), BitVec.ofNat_toNat,
    BitVec.setWidth_eq, bswap16_bswap16]

/-- The built `DTAB` undoes the built `ETAB8` (R143). -/
theorem readDtab_readEtab8 (v : BitVec 8) :
    readDtab cfg Memory.built (readEtab8 cfg Memory.built v) = dword 1#1 1#1 (v.setWidth 16) := by
  rw [readDtab_built, readEtab8_built, builtDtab_of_index8 hok (enumIndex_ranges8 hok v), BitVec.ofNat_toNat,
    BitVec.setWidth_eq]

/-- All that the built `DTAB` can answer: the 16-bit symbol of the code point, its 8-bit symbol, or a miss (R64). -/
theorem readDtab_built_cases (c : CodePoint) :
    (∃ v, readEtab16 cfg Memory.built v = c ∧ readDtab cfg Memory.built c = dword 1#1 0#1 v) ∨
      (∃ v : BitVec 8, readEtab8 cfg Memory.built v = c ∧
        readDtab cfg Memory.built c = dword 1#1 1#1 (v.setWidth 16)) ∨
      readDtab cfg Memory.built c = 0#18 := by
  obtain ⟨-, -, -, -, htotal16, htotal8, -⟩ := (config_ok_iff cfg).1 hok
  rcases h16 : enumIndex cfg.ranges16 c with _ | e
  · rcases h8 : enumIndex cfg.ranges8 c with _ | e
    · have hno16 : rangesHave cfg.ranges16 c = false := by rw [← enumIndex_isSome, h16]; rfl
      have hno8 : rangesHave cfg.ranges8 c = false := by rw [← enumIndex_isSome, h8]; rfl
      exact .inr (.inr (builtDtab_miss hno16 hno8))
    · obtain ⟨he, hc⟩ := repertoire_of_enumIndex h8
      have hv : readEtab8 cfg Memory.built (BitVec.ofNatLT e (he.trans_eq htotal8)) = c := hc
      exact .inr (.inl ⟨_, hv, hv ▸ readDtab_readEtab8 hok _⟩)
  · obtain ⟨he, hc⟩ := repertoire_of_enumIndex h16
    have hv : readEtab16 cfg Memory.built (bswap16 (BitVec.ofNatLT e (he.trans_eq htotal16))) = c := by
      rw [readEtab16_built, bswap16_bswap16]
      exact hc
    exact .inl ⟨_, hv, hv ▸ readDtab_readEtab16 hok _⟩

/-- The built `DTAB` misses outside the scalar values (R64, R135 item 5). -/
theorem readDtab_of_not_scalar {c : CodePoint} (hc : isScalar c = false) : readDtab cfg Memory.built c = 0#18 := by
  obtain ⟨-, -, -, -, -, -, -, hs16, hs8, -⟩ := (config_ok_iff cfg).1 hok
  exact builtDtab_miss (rangesHave_of_not_scalar hs16 hc) (rangesHave_of_not_scalar hs8 hc)

end Built

/-- Settles O38: the two reads of `DTAB` at a symbol's code point are the first two clauses, and injectivity and disjointness
follow from them, since a word determines its fields; the others go through all that `DTAB` can answer. -/
theorem lookupsAreInverse : Obligations.LookupsAreInverse := by
  intro cfg hok
  have h16 := readDtab_readEtab16 hok
  have h8 := readDtab_readEtab8 hok
  refine ⟨h16, h8, fun c v hv => ?hit16, fun c hhit hw8 => ?hit8, fun c hmiss => ?miss, fun v v' e => ?inj16,
    fun v v' e => ?inj8, fun v v' e => ?apart⟩
  case hit16 =>
    rcases readDtab_built_cases hok c with ⟨x, rfl, hx⟩ | ⟨x, -, hx⟩ | hx
    · obtain ⟨-, -, rfl⟩ := dword_fields (hv.symm.trans hx)
      rfl
    · exact absurd (dword_fields (hv.symm.trans hx)).2.1 (by decide)
    · exact absurd (dword_fields ((hv.symm.trans hx).trans dword_miss.symm)).1 (by decide)
  case hit8 =>
    rcases readDtab_built_cases hok c with ⟨x, -, hx⟩ | ⟨x, hxc, hx⟩ | hx
    · rw [hx, dwordW8_dword] at hw8
      cases hw8
    · exact ⟨x, hx, hxc⟩
    · rw [hx] at hhit
      cases hhit
  case miss =>
    rcases readDtab_built_cases hok c with ⟨x, -, hx⟩ | ⟨x, -, hx⟩ | hx
    · rw [hx, dwordHit_dword] at hmiss
      cases hmiss
    · rw [hx, dwordHit_dword] at hmiss
      cases hmiss
    · exact hx
  case inj16 =>
    obtain ⟨-, -, hv⟩ := dword_fields ((h16 v).symm.trans (e ▸ h16 v'))
    exact hv
  case inj8 =>
    obtain ⟨-, -, hv⟩ := dword_fields ((h8 v).symm.trans (e ▸ h8 v'))
    exact setWidth16_inj hv
  case apart =>
    obtain ⟨-, hw8, -⟩ := dword_fields ((h16 v).symm.trans (e ▸ h8 v'))
    cases hw8

/-- Settles O40: every word reads as built after `BUILD`, and the canonical form of such RAMs is empty (`build_eq_built`). -/
theorem builderFillsTheTables : Obligations.BuilderFillsTheTables := fun _ _ hok hm => build_eq_built hok hm

/-- Settles O37: the encode tables read the enumeration, and `DTAB` undoes them. -/
theorem builtTablesFollowTheEnumeration : Obligations.BuiltTablesFollowTheEnumeration := by
  intro cfg hok
  have hrep16 : ∀ e, readEtab16 cfg Memory.built (bswap16 e) = repertoire cfg.ranges16 e.toNat := fun e => by
    rw [readEtab16_built, bswap16_bswap16]
  exact ⟨fun e => ⟨hrep16 e, hrep16 e ▸ readDtab_readEtab16 hok (bswap16 e)⟩,
    fun e => ⟨readEtab8_built cfg e, readDtab_readEtab8 hok e⟩⟩

end Sys2Proof.Machine

/-! ### The lookup commands (40_range_table R140 to R142) -/

namespace Sys2Proof.Machine

section Lookup

variable {s : State} (hok : s.cfg.ok = true)
include hok

theorem exec_lkS2c16_eq (v : BitVec 16) : exec (.lkS2c16 v) s =
    .next { s with rsp := s.rsp ++ [⟨.ok, 0#21, [.word ((readEtab16 s.cfg s.mem v).setWidth 32)]⟩] } := by
  rw [exec_lkS2c16, execLkS2c16, s2c16_eq hok]
  rfl

theorem exec_lkS2c8_eq (v : BitVec 8) : exec (.lkS2c8 v) s =
    .next { s with rsp := s.rsp ++ [⟨.ok, 0#21, [.word ((readEtab8 s.cfg s.mem v).setWidth 32)]⟩] } := by
  rw [exec_lkS2c8, execLkS2c8, s2c8_eq hok]
  rfl

theorem exec_lkC2s_eq (c : CodePoint) : exec (.lkC2s c) s =
    .next { s with rsp := s.rsp ++ [⟨.ok, 0#21, [.word ((readDtab s.cfg s.mem c).setWidth 32)]⟩] } := by
  rw [exec_lkC2s, execLkC2s, c2s_eq hok]
  rfl

end Lookup

/-- Settles O34: under R135 neither read port faults, and the answer is the word read. -/
theorem lookupReadsTheEncodeTable : Obligations.LookupReadsTheEncodeTable :=
  fun _ hok => ⟨exec_lkS2c16_eq hok, exec_lkS2c8_eq hok⟩

/-- In the result word of `LK.C2S` the `DTAB` word stands below 14 zero bits (R142). -/
theorem setWidth32_eq_append (w : DWord) : w.setWidth 32 = 0#14 ++ w := BitVec.setWidth_eq_append (by decide)

/-- The result word of a `DTAB` word is its flags in bits 17 and 16, or-ed with `val` (R142). -/
theorem setWidth32_dword (hit w8 : BitVec 1) (val : BitVec 16) :
    (dword hit w8 val).setWidth 32 = ((0#14 ++ (hit ++ w8)) ++ 0#16) ||| val.setWidth 32 := by
  have hval : val.setWidth 32 = 0#16 ++ val := BitVec.setWidth_eq_append (by decide)
  calc (dword hit w8 val).setWidth 32
      = 0#14 ++ ((hit ++ w8) ++ val) := setWidth32_eq_append _
    _ = (0#14 ++ (hit ++ w8)) ++ val := by
      apply BitVec.eq_of_toNat_eq
      simp only [toNat_append_add]
      omega
    _ = ((0#14 ++ (hit ++ w8)) ++ 0#16) ||| val.setWidth 32 := by
      rw [hval, BitVec.or_append, BitVec.or_zero, BitVec.zero_or]

/-- Settles O35: the word read is a miss outside the scalar values and the symbol's own at a symbol's code point; the
fields are cut out of the concatenation. -/
theorem lookupReadsTheDecodeTable : Obligations.LookupReadsTheDecodeTable := by
  intro c s hok
  have hexec := exec_lkC2s_eq hok c
  refine ⟨hexec, fun hmem hc => ?miss, fun v hmem hv => ?hit16, fun v hmem hv => ?hit8,
    fun w => ⟨?_, ?_, ?_, ?_⟩, fun hit w8 val => ⟨?_, ?_, ?_⟩⟩
  case miss =>
    rw [hexec, hmem, readDtab_of_not_scalar hok hc]
    rfl
  case hit16 =>
    rw [hexec, ← hv, hmem, readDtab_readEtab16 hok, setWidth32_dword]
    rfl
  case hit8 =>
    have hval : (v.setWidth 16).setWidth 32 = v.setWidth 32 := BitVec.setWidth_setWidth (by decide)
    rw [hexec, ← hv, hmem, readDtab_readEtab8 hok, setWidth32_dword, hval]
    rfl
  · rw [dwordHit, BitVec.getLsbD_setWidth]; rfl
  · rw [dwordW8, BitVec.getLsbD_setWidth]; rfl
  · rw [dwordVal, BitVec.extractLsb'_setWidth_of_le (by decide)]
  · rw [setWidth32_eq_append, BitVec.extractLsb'_append_eq_left]
  · rw [BitVec.extractLsb'_setWidth_of_le (by decide), dword, BitVec.extractLsb'_append_eq_of_le (by decide)]
    exact BitVec.extractLsb'_append_eq_left
  · rw [BitVec.extractLsb'_setWidth_of_le (by decide), dword, BitVec.extractLsb'_append_eq_of_le (by decide)]
    exact BitVec.extractLsb'_append_eq_right
  · rw [BitVec.extractLsb'_setWidth_of_le (by decide), dword, BitVec.extractLsb'_append_eq_right]

end Sys2Proof.Machine

/-! ### The closed form under the default ranges (40_range_table R137, R138) -/

namespace Sys2Proof.Machine

/-- The presumed ranges satisfy R135. -/
theorem defaultConfig_ok : defaultConfig.ok = true := by decide

/-- Ranges of whole blocks of 256 code points: within a block of indices the code points are consecutive. -/
theorem repertoire_block {rs : List Range} (hblocks : ∀ r ∈ rs, 256 ∣ r.size) {k b : Nat} (hb : b < 256)
    (hk : 256 * k + b < rangesTotal rs) :
    (repertoire rs (256 * k + b)).toNat = (repertoire rs (256 * k)).toNat + b := by
  induction rs generalizing k with
  | nil => exact absurd hk (Nat.not_lt_zero _)
  | cons r rs ih =>
    obtain ⟨n, hn⟩ := hblocks r List.mem_cons_self
    have hrest : ∀ q ∈ rs, 256 ∣ q.size := fun q hq => hblocks q (List.mem_cons_of_mem r hq)
    by_cases hkn : k < n
    · have hlast : 256 * k + b < r.size := by omega
      have hfirst : 256 * k < r.size := by omega
      rw [repertoire_below hlast, repertoire_below hfirst, range_first_add hlast, range_first_add hfirst, Nat.add_assoc]
    · have hlast : 256 * k + b - r.size = 256 * (k - n) + b := by omega
      have hfirst : 256 * k - r.size = 256 * (k - n) := by omega
      rw [repertoire_beyond (by omega), repertoire_beyond (by omega), hlast, hfirst]
      rw [rangesTotal] at hk
      exact ih hrest (by omega)

/-- The first code point of each of the 256 blocks (R138). -/
theorem repertoire_defaultRanges16_start :
    ∀ k : Byte, (repertoire defaultRanges16 (256 * k.toNat)).toNat = defaultBlock k := by decide

theorem readEtab16_default (b1 b2 : Byte) :
    (readEtab16 defaultConfig Memory.built (b1 ++ b2)).toNat = defaultBlock b2 + b1.toNat := by
  have htotal : rangesTotal defaultRanges16 = nSym16 := by decide
  have hindex : 256 * b2.toNat + b1.toNat < rangesTotal defaultRanges16 := by
    rw [htotal, nSym16]
    omega
  rw [readEtab16_built, bswap16_pair, ← repertoire_defaultRanges16_start]
  exact repertoire_block (by decide) b1.isLt hindex

theorem readEtab8_default (b : Byte) : (readEtab8 defaultConfig Memory.built b).toNat = 0x1500 + b.toNat :=
  (congrArg BitVec.toNat (repertoire_below b.isLt)).trans (range_first_add b.isLt)

/-- Settles O39: the third clause is the first, read back by `DTAB`. -/
theorem defaultTablesHaveTheirClosedForm : Obligations.DefaultTablesHaveTheirClosedForm := by
  refine ⟨readEtab16_default, readEtab8_default, fun c k hck => ?_⟩
  have hc : readEtab16 defaultConfig Memory.built (c.extractLsb' 0 8 ++ k) = c := by
    apply BitVec.eq_of_toNat_eq
    rw [readEtab16_default, toNat_extractLsb'_div]
    omega
  rw [← readDtab_readEtab16 defaultConfig_ok, hc]

end Sys2Proof.Machine

/-! ### The micro-operations (41_bit_accumulator R161 to R164) -/

namespace Sys2Proof.Machine

/-- A result that leaves the accumulator as it is writes its answer, nothing else. -/
theorem answerUop_accOf (ch : Channel) (x : Answer) (s : State) :
    answerUop ch (accOf ch s, x) s = { s with ans := s.ans ++ [(ch, x)] } := by
  cases ch with
  | e => rfl
  | d => rfl

/-- A refused push writes the `ovf` answer, nothing else (R162). -/
theorem exec_baPush_full {ch : Channel} {s : State} (h : (accOf ch s).n = 16#5) (b : BitVec 1) :
    exec (.baPush ch b) s = .next { s with ans := s.ans ++ [(ch, ⟨false, 0#16, true⟩)] } := by
  rw [exec_baPush, execBaPush, accPush, if_pos h, answerUop_accOf]

/-- A push below 16 shifts its bit in and counts it (R162). -/
theorem exec_baPush_room {ch : Channel} {s : State} (h : (accOf ch s).n ≠ 16#5) (b : BitVec 1) :
    exec (.baPush ch b) s =
      .next (answerUop ch (⟨((accOf ch s).z <<< 1) + b.setWidth 16, (accOf ch s).n + 1#5⟩, noAnswer) s) := by
  rw [exec_baPush, execBaPush, accPush, if_neg h]

/-- An emit at the count's width answers the value and empties the accumulator (R163). -/
theorem exec_baEmit_full {ch : Channel} {s : State} {w : BitVec 1} (h : (accOf ch s).n = emitWidth w) :
    exec (.baEmit ch w) s = .next (answerUop ch (Acc.empty, ⟨true, (accOf ch s).z, false⟩) s) := by
  rw [exec_baEmit, execBaEmit, accEmit, if_pos h]

/-- An emit at any other width answers zeros, nothing else (R163). -/
theorem exec_baEmit_short {ch : Channel} {s : State} {w : BitVec 1} (h : (accOf ch s).n ≠ emitWidth w) :
    exec (.baEmit ch w) s = .next { s with ans := s.ans ++ [(ch, noAnswer)] } := by
  rw [exec_baEmit, execBaEmit, accEmit, if_neg h, answerUop_accOf]

/-- The operand of `BA.EMIT` and its width (R107). -/
theorem emitWidth_eq {w : BitVec 1} {width : BitVec 5} (h : (w = 0#1 ∧ width = 16#5) ∨ (w = 1#1 ∧ width = 8#5)) :
    emitWidth w = width := by
  rcases h with ⟨rfl, rfl⟩ | ⟨rfl, rfl⟩
  · rfl
  · rfl

/-- Settles O7: an idle result leaves the accumulator as it is. -/
theorem baIdleChangesNothing : Obligations.BaIdleChangesNothing := by
  intro ch a s
  rw [exec_baIdle, execBaIdle, answerUop_accOf, noAnswer]

/-- Settles O8: the two cases of a push, on each channel. -/
theorem baPushShiftsInOneBit : Obligations.BaPushShiftsInOneBit := fun b _ =>
  ⟨fun h => exec_baPush_full (ch := .e) h b, fun h => exec_baPush_room (ch := .e) h b,
    fun h => exec_baPush_full (ch := .d) h b, fun h => exec_baPush_room (ch := .d) h b⟩

/-- Settles O9: the two cases of an emit, on each channel. -/
theorem baEmitTestsEquality : Obligations.BaEmitTestsEquality := by
  intro w s width hw
  obtain rfl := emitWidth_eq hw
  exact ⟨fun h => exec_baEmit_full (ch := .e) h, fun h => exec_baEmit_short (ch := .e) h,
    fun h => exec_baEmit_full (ch := .d) h, fun h => exec_baEmit_short (ch := .d) h⟩

/-- Settles O10: on either channel the meaning is the empty accumulator written, whatever was held. -/
theorem baClearEmptiesTheAccumulator : Obligations.BaClearEmptiesTheAccumulator := by
  intro a s
  rw [exec_baClear, exec_baClear, execBaClear, execBaClear, accClear_eq, accClear_eq]
  exact ⟨rfl, rfl⟩

end Sys2Proof.Machine

/-! ### The bounds of the accumulators (41_bit_accumulator R167) -/

namespace Sys2Proof.Machine

theorem accPush_keeps_accWf {a : Acc} (h : AccWf a) (b : BitVec 1) : AccWf (accPush b a).1 := by
  rcases accPush_cases b a with ⟨-, heq⟩ | ⟨hne, -⟩
  · rwa [heq]
  · obtain ⟨hn, hz⟩ := h
    have hlt : a.n.toNat < 16 := lt_of_le_of_ne hn fun e => hne (BitVec.eq_of_toNat_eq e)
    obtain ⟨hn', hz'⟩ := accPush_toNat b ⟨hn, hz⟩ hlt
    refine ⟨by omega, ?_⟩
    rw [hn', hz', Nat.pow_succ]
    omega

theorem accEmit_keeps_accWf {a : Acc} (h : AccWf a) (width : BitVec 5) : AccWf (accEmit width a).1 := by
  rcases accEmit_cases width a with ⟨-, heq⟩ | ⟨-, heq⟩
  · rw [heq]
    exact accWf_empty
  · rwa [heq]

/-- An emit brings a count of at most the width below it. -/
theorem accEmit_count_lt {width : BitVec 5} {a : Acc} (hpos : 0#5 < width) (h : a.n ≤ width) :
    (accEmit width a).1.n < width := by
  rcases accEmit_cases width a with ⟨-, heq⟩ | ⟨hne, heq⟩
  · rwa [heq]
  · rw [heq]
    exact BitVec.lt_of_le_ne h hne

theorem accPush_not_ovf {a : Acc} (h : a.n ≠ 16#5) (b : BitVec 1) : (accPush b a).2.ovf = false := by
  rw [accPush, if_neg h, noAnswer]

/-- Settles O12: below the width the push has room and counts one bit, so the emit finds at most the width. -/
theorem pushEmitPairStaysBelowTheWidth : Obligations.PushEmitPairStaysBelowTheWidth := by
  intro width b a hwidth hwf hlt
  obtain ⟨hpos, hle⟩ : 0#5 < width ∧ width ≤ 16#5 := by
    rcases hwidth with rfl | rfl
    · decide
    · decide
  have hroom : a.n < 16#5 := Nat.lt_of_lt_of_le hlt hle
  obtain ⟨hcount, -⟩ := accPush_toNat b hwf (BitVec.lt_def.1 hroom)
  have hpushed : (accPush b a).1.n ≤ width := by
    rw [BitVec.le_def, hcount]
    exact hlt
  exact ⟨accPush_not_ovf (BitVec.ne_of_lt hroom) b, accEmit_keeps_accWf (accPush_keeps_accWf hwf b) width,
    accEmit_count_lt hpos hpushed⟩

theorem accOf_wf {s : State} (he : AccWf s.e.ba) (hd : AccWf s.d.ba) (ch : Channel) : AccWf (accOf ch s) := by
  cases ch with
  | e => exact he
  | d => exact hd

/-- A result within the bounds keeps both accumulators within them: one is written, the other is not. -/
theorem answerUop_keeps_accWf {ch : Channel} {r : Acc × Answer} {s : State} (hr : AccWf r.1) (he : AccWf s.e.ba)
    (hd : AccWf s.d.ba) : AccWf (answerUop ch r s).e.ba ∧ AccWf (answerUop ch r s).d.ba := by
  cases ch with
  | e => exact ⟨hr, hd⟩
  | d => exact ⟨he, hr⟩

/-- Settles O13: each micro-operation writes an accumulator within the bounds to its channel. -/
theorem microOperationsKeepAccumulatorBounds : Obligations.MicroOperationsKeepAccumulatorBounds := by
  intro i s hi he hd
  have hacc := accOf_wf he hd
  cases i with
  | baIdle ch a => exact ⟨_, exec_baIdle ch a s, answerUop_keeps_accWf (hacc ch) he hd⟩
  | baPush ch b => exact ⟨_, exec_baPush ch b s, answerUop_keeps_accWf (accPush_keeps_accWf (hacc ch) b) he hd⟩
  | baEmit ch w => exact ⟨_, exec_baEmit ch w s, answerUop_keeps_accWf (accEmit_keeps_accWf (hacc ch) _) he hd⟩
  | baClear ch a => exact ⟨_, exec_baClear ch a s, answerUop_keeps_accWf accWf_empty he hd⟩
  | _ => cases hi

end Sys2Proof.Machine

/-! ### The values of `BA_PUSHBITS` (41_bit_accumulator R165) -/

namespace Sys2Proof.Machine

/-- Eight bits pushed at width 8 are one symbol, the low byte. -/
theorem pushBits8_byte (v : BitVec 16) :
    pushBits 8#5 8 v Acc.empty = (Acc.empty, [(v.extractLsb' 0 8).setWidth 16]) := by
  obtain ⟨sym, heq, hsym⟩ := pushBits_fill (width := 8#5) 8 v accWf_empty (by decide) (by decide) (by decide)
  have hval : sym = (v.extractLsb' 0 8).setWidth 16 := by
    apply BitVec.eq_of_toNat_eq
    rw [hsym, BitVec.toNat_setWidth, toNat_extractLsb'_div]
    simp only [Acc.empty, BitVec.toNat_ofNat]
    omega
  rw [heq, hval]

/-- Sixteen bits pushed at width 8 are two symbols, the high byte first. -/
theorem pushBits8_pair (v : BitVec 16) :
    pushBits 8#5 16 v Acc.empty =
      (Acc.empty, [(v.extractLsb' 8 8).setWidth 16, (v.extractLsb' 0 8).setWidth 16]) := by
  have hhigh : (v >>> 8).extractLsb' 0 8 = v.extractLsb' 8 8 := by
    apply BitVec.eq_of_toNat_eq
    rw [toNat_extractLsb'_div, toNat_extractLsb'_div, BitVec.toNat_ushiftRight, Nat.shiftRight_eq_div_pow, pow_zero,
      Nat.div_one]
  rw [pushBits_add 8#5 8 8 v, pushBits8_byte, hhigh, pushBits8_byte]
  rfl

theorem acc_ext {a a' : Acc} (hz : a.z = a'.z) (hn : a.n = a'.n) : a = a' := by
  cases a
  cases a'
  exact congrArg₂ Acc.mk hz hn

/-- A byte pushed at width 16 waits in the accumulator. -/
theorem pushBits16_byte_eq (b : Byte) :
    pushBits 16#5 8 (b.setWidth 16) Acc.empty = (⟨b.setWidth 16, 8#5⟩, []) := by
  obtain ⟨hout, hn, hz⟩ := pushBits_short (width := 16#5) 8 (b.setWidth 16) accWf_empty (by decide) (by decide)
  have hcount : (pushBits 16#5 8 (b.setWidth 16) Acc.empty).1.n = 8#5 := BitVec.eq_of_toNat_eq hn
  have hval : (pushBits 16#5 8 (b.setWidth 16) Acc.empty).1.z = b.setWidth 16 := by
    apply BitVec.eq_of_toNat_eq
    rw [hz, BitVec.toNat_setWidth]
    simp only [Acc.empty, BitVec.toNat_ofNat]
    omega
  exact Prod.ext (acc_ext hval hcount) hout

/-- A byte pushed at width 16 onto a waiting byte completes the symbol of the two. -/
theorem pushBits16_second_byte (b1 b2 : Byte) :
    pushBits 16#5 8 (b2.setWidth 16) ⟨b1.setWidth 16, 8#5⟩ = (Acc.empty, [b1 ++ b2]) := by
  have hwf : AccWf ⟨b1.setWidth 16, 8#5⟩ := by
    have hfirst := (pushBits16_byte (b1.setWidth 16)).2
    rwa [pushBits16_byte_eq] at hfirst
  obtain ⟨sym, heq, hsym⟩ := pushBits_fill (width := 16#5) 8 (b2.setWidth 16) hwf (by decide) rfl (by decide)
  have hval : sym = b1 ++ b2 := by
    apply BitVec.eq_of_toNat_eq
    rw [hsym, toNat_append_add, BitVec.toNat_setWidth, BitVec.toNat_setWidth]
    omega
  rw [heq, hval]

/-- Settles O11: one lemma for each of the four values. -/
theorem pushBitsCutsSymbols : Obligations.PushBitsCutsSymbols :=
  ⟨pushBits8_pair, pushBits8_byte, fun b1 b2 => ⟨pushBits16_byte_eq b1, pushBits16_second_byte b1 b2⟩⟩

end Sys2Proof.Machine

/-! ### The commands of the encoder (42_encoder R191 to R195) -/

namespace Sys2Proof.Machine

/-- Settles O14: the meaning is the fresh session written, whatever the channel held. -/
theorem encOpenStartsFreshSession : Obligations.EncOpenStartsFreshSession := fun _ _ => rfl

theorem emitCp_wrapOff {e : EncChan} (h : e.wrap = 0#24) (cfg : Config) (cp : CodePoint) :
    emitCp cfg cp e = (e, utf16 cp) := if_pos h

/-- Settles O17: below the wrap length the column counts without overflow, so the test of the two registers is the test of
the two numbers. -/
theorem emitCpBreaksAfterEveryNth : Obligations.EmitCpBreaksAfterEveryNth := by
  intro cfg cp e hcol
  refine ⟨fun hoff => emitCp_wrapOff hoff cfg cp, fun hon hfull => ?full, fun hon hroom => ?room⟩
  case full =>
    have htest : e.col + 1#24 = e.wrap := by bv_omega
    rw [emitCp, if_neg hon, if_pos htest]
  case room =>
    have hlt := hcol hon
    have htest : e.col + 1#24 ≠ e.wrap := by bv_omega
    have hcount : (e.col + 1#24).toNat = e.col.toNat + 1 := by bv_omega
    exact ⟨e.col + 1#24, hcount, by rw [emitCp, if_neg hon, if_neg htest]⟩

section EncCommands

variable {s : State} {a : Byte}

theorem exec_encByte_first (hp : s.e.pend = none) (b : Byte) :
    exec (.encByte b) s = .next (respond (okUnits []) { s with e := { s.e with pend := some b } }) := by
  rw [exec_encByte, execEncByte, hp]
  rfl

/-- The second byte of a pair completes the symbol `{a, b}`, whose code point is emitted (R192). -/
theorem exec_encByte_second (hp : s.e.pend = some a) (hba : s.e.ba = Acc.empty) (hok : s.cfg.ok = true) (b : Byte) :
    exec (.encByte b) s = .next
      (respond (okUnits (emitCp s.cfg (readEtab16 s.cfg s.mem (a ++ b)) { s.e with pend := none }).2)
        { s with e := (emitCp s.cfg (readEtab16 s.cfg s.mem (a ++ b)) { s.e with pend := none }).1 }) := by
  simp only [exec_encByte, execEncByte, hp, hba, pushBits16_byte_eq, pushBits16_second_byte, s2c16_eq hok]
  rfl

theorem exec_encFin_empty (hp : s.e.pend = none) :
    exec .encFin s = .next (respond (okUnits []) { s with e := freshEnc s.e.wrap s.e }) := by
  rw [exec_encFin, execEncFin, hp]
  rfl

/-- A pending byte has the width of the terminal symbol with no padding, and is that symbol (R193). -/
theorem accEmit_pendingByte (a : Byte) :
    accEmit 8#5 (padTo8 8 (pushBits 16#5 8 (a.setWidth 16) Acc.empty).1) =
      (Acc.empty, ⟨true, a.setWidth 16, false⟩) := by
  rw [pushBits16_byte_eq, padTo8_of_le (le_refl 8)]
  rfl

/-- `ENC.FIN` emits the code point of the pending byte (R193). -/
theorem exec_encFin_pending (hp : s.e.pend = some a) (hba : s.e.ba = Acc.empty) (hok : s.cfg.ok = true) :
    exec .encFin s = .next
      (respond (okUnits (emitCp s.cfg (readEtab8 s.cfg s.mem a) { s.e with pend := none }).2)
        { s with e := freshEnc s.e.wrap s.e }) := by
  have hsym : (a.setWidth 16).setWidth 8 = a := by
    rw [BitVec.setWidth_setWidth_of_le _ (by decide), BitVec.setWidth_eq]
  simp only [exec_encFin, execEncFin, hp, hba, accEmit_pendingByte, if_true, hsym, s2c8_eq hok]
  rfl

end EncCommands

/-- Settles O15: one equation for each half of a pair. -/
theorem encByteDefersThenEmitsThePair : Obligations.EncByteDefersThenEmitsThePair :=
  fun b _ => ⟨fun hp => exec_encByte_first hp b, fun _ hp hba hok => exec_encByte_second hp hba hok b⟩

/-- Settles O16: one equation for a session with nothing pending, one for a pending byte. -/
theorem encFinFlushesThePendingByte : Obligations.EncFinFlushesThePendingByte :=
  fun _ => ⟨exec_encFin_empty, fun _ hp hba hok => exec_encFin_pending hp hba hok⟩

end Sys2Proof.Machine

/-! ### The units of a code point (42_encoder R195) -/

namespace Sys2Proof.Machine

/-- The scalar values in numbers (R135 item 5). -/
theorem isScalar_iff (c : CodePoint) :
    isScalar c = true ↔ c.toNat ≤ 0x10FFFF ∧ (c.toNat < 0xD800 ∨ 0xDFFF < c.toNat) := by
  simp [isScalar, BitVec.le_def, BitVec.lt_def]

theorem isHighSurrogate_iff (u : CodeUnit) : isHighSurrogate u = true ↔ 0xD800 ≤ u.toNat ∧ u.toNat ≤ 0xDBFF := by
  simp [isHighSurrogate, BitVec.le_def]

theorem isLowSurrogate_iff (u : CodeUnit) : isLowSurrogate u = true ↔ 0xDC00 ≤ u.toNat ∧ u.toNat ≤ 0xDFFF := by
  simp [isLowSurrogate, BitVec.le_def]

theorem utf16_single {cp : CodePoint} (h : cp.toNat < 0x10000) : utf16 cp = [cp.setWidth 16] := if_pos h

/-- The two units of a code point from `0x10000` up, in numbers (R195). -/
theorem utf16_pair {cp : CodePoint} (hlo : 0x10000 ≤ cp.toNat) (hhi : cp.toNat ≤ 0x10FFFF) :
    ∃ hi lo : CodeUnit, utf16 cp = [hi, lo] ∧ hi.toNat = 0xD800 + (cp.toNat - 0x10000) / 1024 ∧
      lo.toNat = 0xDC00 + (cp.toNat - 0x10000) % 1024 := by
  have hc : ((cp - 0x10000#21).setWidth 20).toNat = cp.toNat - 0x10000 := by
    rw [BitVec.toNat_setWidth]
    bv_omega
  refine ⟨_, _, if_neg (Nat.not_lt.2 hlo), ?_, ?_⟩
  · rw [BitVec.toNat_add, BitVec.toNat_setWidth, toNat_extractLsb'_div, hc, BitVec.toNat_ofNat]
    omega
  · rw [BitVec.toNat_add, BitVec.toNat_setWidth, toNat_extractLsb'_div, hc, BitVec.toNat_ofNat]
    omega

/-- Settles O18: below `0x10000` the unit is the code point's own number; from there up the two numbers lie in the two
surrogate ranges. -/
theorem utf16UnitsOfScalarValues : Obligations.Utf16UnitsOfScalarValues := by
  intro cp hscalar
  obtain ⟨hmax, hnot⟩ := (isScalar_iff cp).1 hscalar
  refine ⟨fun hlt => ?single, fun hle => ?pair⟩
  case single =>
    have hu : (cp.setWidth 16 : CodeUnit).toNat = cp.toNat := by
      rw [BitVec.toNat_setWidth]
      exact Nat.mod_eq_of_lt hlt
    refine ⟨_, utf16_single hlt, hu, ?_, ?_⟩
    · rw [Bool.eq_false_iff, Ne, isHighSurrogate_iff, hu]
      omega
    · rw [Bool.eq_false_iff, Ne, isLowSurrogate_iff, hu]
      omega
  case pair =>
    obtain ⟨hi, lo, hunits, hhi, hlo⟩ := utf16_pair hle hmax
    refine ⟨hi, lo, hunits, (isHighSurrogate_iff hi).2 ?_, (isLowSurrogate_iff lo).2 ?_, hhi, hlo⟩
    · omega
    · omega

end Sys2Proof.Machine

/-! ### Runs of commands, one command at a time (30_encoding R91) -/

namespace Sys2Proof.Machine

/-- A run takes its first command and goes on from the state that command leaves, when the command does the same whatever is
offered behind it (R91). -/
theorem runCommands_cons {i : Instr} {s t : State} (hok : s.cfg.ok = true) (hready : s.ready = true) (hs : s.inp = [])
    (ht : t.inp = []) (hexec : ∀ q, exec i { s with inp := q } = .next { t with inp := q }) (is : List Instr) :
    runCommands (i :: is) s = runCommands is t := by
  have hoffered : (offerWords ((i :: is).map encode) s).inp = .word (encode i) :: (is.map encode).map .word := by
    rw [offerWords_inp, hs]
    rfl
  have hstep : step (offerWords ((i :: is).map encode) s) = .next { t with inp := (is.map encode).map .word } :=
    (step_decoded (s := offerWords ((i :: is).map encode) s) hok hready hoffered
      (decodeOfEncodeIsTheInstruction i)).trans (hexec _)
  rw [runCommands, List.length_cons, runSteps, hstep, runCommands, offerWords, ht]
  rfl

theorem runCommands_nil (s : State) : runCommands [] s = .next s := by
  rw [runCommands, List.map_nil, offerWords, List.map_nil, List.append_nil]
  rfl

end Sys2Proof.Machine

/-! ### The closed form of `encode` (42_encoder R196) -/

namespace Sys2Proof.Machine

/-- The code point of the symbol `{a, b}` in the built table (R133). -/
theorem TablesReady.readEtab16_pair {s : State} (h : TablesReady s) (a b : Byte) :
    readEtab16 s.cfg s.mem (a ++ b) = repertoire s.cfg.ranges16 (256 * b.toNat + a.toNat) := by
  rw [h.2, readEtab16_built, bswap16_pair]

/-- The code point of the terminal symbol `a` in the built table (R132). -/
theorem TablesReady.readEtab8_byte {s : State} (h : TablesReady s) (a : Byte) :
    readEtab8 s.cfg s.mem a = repertoire s.cfg.ranges8 a.toNat := by
  rw [h.2, readEtab8_built]

/-- `s` in the course of an `encode` session with wrapping off: what the host offers, the byte that waits, and the responses
so far. -/
def duringEncode (s : State) (q : List Input) (pend : Option Byte) (out : List Response) : State :=
  { s with e := { EncChan.atReset with pend := pend }, inp := q, rsp := s.rsp ++ out }

theorem respond_duringEncode (s : State) (q : List Input) (pend : Option Byte) (out : List Response) (r : Response) :
    respond r (duringEncode s q pend out) = duringEncode s q pend (out ++ [r]) := by
  rw [respond, duringEncode, duringEncode, List.append_assoc]

theorem exec_encOpen_duringEncode (s : State) (q : List Input) :
    exec (.encOpen 0#24) { s with inp := q } = .next (duringEncode s q none [okUnits []]) := rfl

section ExecDuringEncode

variable {s : State} (htab : TablesReady s) (q : List Input) (out : List Response) (a b : Byte)

theorem exec_encByte_duringEncode_first :
    exec (.encByte a) (duringEncode s q none out) = .next (duringEncode s q (some a) (out ++ [okUnits []])) := by
  rw [← respond_duringEncode]
  exact exec_encByte_first rfl a

theorem exec_encFin_duringEncode_empty :
    exec .encFin (duringEncode s q none out) = .next (duringEncode s q none (out ++ [okUnits []])) := by
  rw [← respond_duringEncode]
  exact exec_encFin_empty rfl

include htab

/-- With built tables, the second byte of a pair gives the units of `REP16[256 * b + a]` (R133, R192). -/
theorem exec_encByte_duringEncode_second :
    exec (.encByte b) (duringEncode s q (some a) out) = .next
      (duringEncode s q none (out ++ [okUnits (utf16 (repertoire s.cfg.ranges16 (256 * b.toNat + a.toNat)))])) := by
  rw [exec_encByte_second (s := duringEncode s q (some a) out) rfl rfl htab.1, emitCp_wrapOff rfl, ← htab.readEtab16_pair,
    ← respond_duringEncode]
  rfl

/-- With built tables, `ENC.FIN` gives the units of `REP8[a]` for a waiting byte (R132, R193). -/
theorem exec_encFin_duringEncode_pending :
    exec .encFin (duringEncode s q (some a) out) = .next
      (duringEncode s q none (out ++ [okUnits (utf16 (repertoire s.cfg.ranges8 a.toNat))])) := by
  rw [exec_encFin_pending (s := duringEncode s q (some a) out) rfl rfl htab.1, emitCp_wrapOff rfl, ← htab.readEtab8_byte,
    ← respond_duringEncode]
  rfl

end ExecDuringEncode

section EncodeRun

variable {s : State} (htab : TablesReady s) (hready : s.ready = true)
include htab hready

theorem runCommands_duringEncode {i : Instr} {pend pend' : Option Byte} {out out' : List Response}
    (hexec : ∀ q, exec i (duringEncode s q pend out) = .next (duringEncode s q pend' out')) (is : List Instr) :
    runCommands (i :: is) (duringEncode s [] pend out) = runCommands is (duringEncode s [] pend' out') :=
  runCommands_cons (s := duringEncode s [] pend out) (t := duringEncode s [] pend' out') htab.1 hready rfl rfl hexec is

/-- The bytes of a stream and the `ENC.FIN` after them: after each pair nothing waits, so the rest of the stream does as the
whole (R196). -/
theorem runCommands_encBytes_fin (out : List Response) (bs : List Byte) :
    runCommands (bs.map .encByte ++ [.encFin]) (duringEncode s [] none out) =
      .next (duringEncode s [] none (out ++ encodeResponses s.cfg bs)) := by
  induction bs using encodeResponses.induct generalizing out with
  | case1 =>
    have hfin := runCommands_duringEncode htab hready (exec_encFin_duringEncode_empty · out)
    rw [List.map_nil, List.nil_append, hfin, runCommands_nil, encodeResponses]
  | case2 a =>
    have hfirst := runCommands_duringEncode htab hready (exec_encByte_duringEncode_first · out a)
    have hfin := runCommands_duringEncode htab hready (exec_encFin_duringEncode_pending htab · (out ++ [okUnits []]) a)
    rw [List.map_singleton, List.singleton_append, hfirst, hfin, runCommands_nil, encodeResponses, List.append_assoc,
      List.singleton_append]
  | case3 a b bs ih =>
    have hfirst := runCommands_duringEncode htab hready (exec_encByte_duringEncode_first · out a)
    have hsecond := runCommands_duringEncode htab hready
      (exec_encByte_duringEncode_second htab · (out ++ [okUnits []]) a b)
    rw [List.map_cons, List.map_cons, List.cons_append, List.cons_append, hfirst, hsecond, ih, encodeResponses,
      List.append_assoc, List.append_assoc, List.singleton_append, List.singleton_append]

end EncodeRun

/-- Settles O54: `ENC.OPEN` starts a session with wrapping off, whatever the channel held, and an induction over the pairs of
bytes (`runCommands_encBytes_fin`) does the rest. -/
theorem encodeHasItsClosedForm : Obligations.EncodeHasItsClosedForm := by
  intro bs s htab hready hinp
  have hopen : ∀ is, runCommands (.encOpen 0#24 :: is) s = runCommands is (duringEncode s [] none [okUnits []]) :=
    runCommands_cons (t := duringEncode s [] none [okUnits []]) htab.1 hready hinp rfl (exec_encOpen_duringEncode s)
  have hrun : runCommands (expand (.encode bs)) s =
      .next (duringEncode s [] none ([okUnits []] ++ encodeResponses s.cfg bs)) :=
    (hopen _).trans (runCommands_encBytes_fin htab hready _ bs)
  refine ⟨_, hrun, List.drop_left, ?_⟩
  rw [duringEncode, ← hinp]
  rfl

end Sys2Proof.Machine

/-! ### The commands of the decoder (43_decoder R221 to R224) -/

namespace Sys2Proof.Machine

/-- Settles O22: the meaning is the fresh session written, whatever the channel held. -/
theorem decOpenStartsFreshSession : Obligations.DecOpenStartsFreshSession := fun _ _ => rfl

theorem isHighSurrogate_of_isLowSurrogate {u : CodeUnit} (h : isLowSurrogate u = true) : isHighSurrogate u = false := by
  rw [isLowSurrogate_iff] at h
  rw [Bool.eq_false_iff, Ne, isHighSurrogate_iff]
  omega

theorem extractLsb'_setWidth_byte (b : Byte) : (b.setWidth 16).extractLsb' 0 8 = b := by
  apply BitVec.eq_of_toNat_eq
  rw [toNat_extractLsb'_div, BitVec.toNat_setWidth]
  omega

theorem paddingHolds_empty : paddingHolds Acc.empty = true := by decide

section DecodeCp

variable {cp : CodePoint} {d : DecChan} {s : State} {w : DWord} (hok : s.cfg.ok = true) (hw : readDtab s.cfg s.mem cp = w)
include hok hw

theorem decodeCp_miss_skipped (hmiss : dwordHit w = false) (hig : d.ig = true) :
    decodeCp cp d s = returnOk [] { s with d := d } := by
  simp only [decodeCp, c2s_eq hok, hw, hmiss, hig, if_true]

theorem decodeCp_miss_raises (hmiss : dwordHit w = false) (hig : d.ig = false) :
    decodeCp cp d s = raise .invalidCodePoint cp s := by
  simp [decodeCp, c2s_eq hok, hw, hmiss, hig]

variable (hhit : dwordHit w = true)
include hhit

theorem decodeCp_hit_afterTerminal (hterm : d.term = true) :
    decodeCp cp d s = raise .sequenceContinuedAfterFinalByte cp s := by
  simp [decodeCp, c2s_eq hok, hw, hhit, hterm]

variable (hterm : d.term = false) {a : Acc} {syms : List Symbol}
include hterm

theorem decodeCp_hit16 (hw8 : dwordW8 w = false) (hpush : pushBits 8#5 16 (dwordVal w) d.ba = (a, syms)) :
    decodeCp cp d s = returnOk (byteItems syms) { s with d := { d with ba := a } } := by
  simp [decodeCp, c2s_eq hok, hw, hhit, hterm, hw8, hpush]

variable (hw8 : dwordW8 w = true) (hpush : pushBits 8#5 8 (lowByte (dwordVal w)) d.ba = (a, syms))
include hw8 hpush

theorem decodeCp_hit8_padded (hpad : paddingHolds a = true) :
    decodeCp cp d s = returnOk (byteItems syms) { s with d := { d with ba := a, term := true } } := by
  simp [decodeCp, c2s_eq hok, hw, hhit, hterm, hw8, hpush, hpad]

theorem decodeCp_hit8_mismatch (hpad : paddingHolds a = false) : decodeCp cp d s = raise .paddingMismatch cp s := by
  simp [decodeCp, c2s_eq hok, hw, hhit, hterm, hw8, hpush, hpad]

end DecodeCp

/-- All that a unit can be to a channel that holds no error (R222): it completes a code point, is a high surrogate that waits,
or shows that a half has no partner. -/
theorem unit_cases (u : CodeUnit) (d : DecChan) :
    (∃ cp, completedCp d u = some cp) ∨ (d.hs = none ∧ isHighSurrogate u = true) ∨
      (d.hs = none ∧ isLowSurrogate u = true) ∨ ∃ h, d.hs = some h ∧ isLowSurrogate u = false := by
  rcases hhs : d.hs with _ | v <;> rcases hlow : isLowSurrogate u with _ | _
  · rcases hhigh : isHighSurrogate u with _ | _
    · exact .inl ⟨_, by rw [completedCp, hhs, hhigh, hlow]; rfl⟩
    · exact .inr (.inl ⟨rfl, rfl⟩)
  · exact .inr (.inr (.inl ⟨rfl, rfl⟩))
  · exact .inr (.inr (.inr ⟨v, rfl, rfl⟩))
  · exact .inl ⟨_, by rw [completedCp, hhs, hlow]; rfl⟩

theorem noHs_eq {d : DecChan} (hhs : d.hs = none) : { d with hs := none } = d := by
  rw [← hhs]

section DecUnit

variable {u h : CodeUnit} {s : State} {er : DecError}

theorem exec_decUnit_dead (herr : s.d.err = some er) (u : CodeUnit) : exec (.decUnit u) s = refuseDead er s := by
  rw [exec_decUnit, execDecUnit, herr]

theorem exec_decFin_dead (herr : s.d.err = some er) : exec .decFin s = refuseDead er s := by
  rw [exec_decFin, execDecFin, herr]

theorem exec_decFin_halfRead (herr : s.d.err = none) (hhs : s.d.hs = some h) :
    exec .decFin s = raise .invalidSourceText (h.setWidth 21) s := by
  rw [exec_decFin, execDecFin, herr, hhs]

theorem exec_decFin_live (herr : s.d.err = none) (hhs : s.d.hs = none) :
    exec .decFin s = returnOk [] { s with d := ⟨Acc.empty, false, none, s.d.ig, none⟩ } := by
  simp [execDecFin, herr, hhs, accClear_eq]

variable (herr : s.d.err = none)
include herr

/-- A high surrogate with none pending waits for its other half (R222). -/
theorem exec_decUnit_high (hhs : s.d.hs = none) (hhigh : isHighSurrogate u = true) :
    exec (.decUnit u) s = returnOk [] { s with d := { s.d with hs := some u } } := by
  rw [exec_decUnit, execDecUnit, herr, hhs]
  exact if_pos hhigh

theorem exec_decUnit_loneLow (hhs : s.d.hs = none) (hlow : isLowSurrogate u = true) :
    exec (.decUnit u) s = raise .invalidSourceText (u.setWidth 21) s := by
  simp [execDecUnit, herr, hhs, hlow, isHighSurrogate_of_isLowSurrogate]

theorem exec_decUnit_unpairedHigh (hhs : s.d.hs = some h) (hlow : isLowSurrogate u = false) :
    exec (.decUnit u) s = raise .invalidSourceText (h.setWidth 21) s := by
  simp [execDecUnit, herr, hhs, hlow]

/-- A unit that completes a code point uses up the pending half and goes through `DECODE_CP` (R222). -/
theorem exec_decUnit_completed {cp : CodePoint} (hcp : completedCp s.d u = some cp) :
    exec (.decUnit u) s = decodeCp cp { s.d with hs := none } s := by
  rcases hhs : s.d.hs with _ | v
  · simp only [completedCp, hhs, Option.ite_none_left_eq_some, Bool.or_eq_true, not_or, Bool.not_eq_true,
      Option.some.injEq] at hcp
    obtain ⟨⟨hhigh, hlow⟩, rfl⟩ := hcp
    rw [noHs_eq hhs]
    simp [execDecUnit, herr, hhs, hhigh, hlow]
  · simp only [completedCp, hhs, Option.ite_none_right_eq_some, Option.some.injEq] at hcp
    obtain ⟨hlow, rfl⟩ := hcp
    simp [execDecUnit, herr, hhs, hlow]

variable {cp : CodePoint} {w : DWord} (hok : s.cfg.ok = true) (hcp : completedCp s.d u = some cp)
  (hw : readDtab s.cfg s.mem cp = w)
include hok hcp hw

theorem exec_decUnit_miss_skipped (hmiss : dwordHit w = false) (hig : s.d.ig = true) :
    exec (.decUnit u) s = returnOk [] { s with d := { s.d with hs := none } } := by
  rw [exec_decUnit_completed herr hcp]
  exact decodeCp_miss_skipped hok hw hmiss hig

theorem exec_decUnit_miss_raises (hmiss : dwordHit w = false) (hig : s.d.ig = false) :
    exec (.decUnit u) s = raise .invalidCodePoint cp s := by
  rw [exec_decUnit_completed herr hcp]
  exact decodeCp_miss_raises hok hw hmiss hig

variable (hhit : dwordHit w = true)
include hhit

theorem exec_decUnit_afterTerminal (hterm : s.d.term = true) :
    exec (.decUnit u) s = raise .sequenceContinuedAfterFinalByte cp s := by
  rw [exec_decUnit_completed herr hcp]
  exact decodeCp_hit_afterTerminal hok hw hhit hterm

variable (hterm : s.d.term = false) (hba : s.d.ba = Acc.empty)
include hterm hba

/-- A 16-bit symbol is cut into its two bytes, the high one first, and the accumulator is left empty (R223, R225). -/
theorem exec_decUnit_hit16 (hw8 : dwordW8 w = false) :
    exec (.decUnit u) s = returnOk [.byte ((dwordVal w).extractLsb' 8 8),
      .byte ((dwordVal w).extractLsb' 0 8)] { s with d := { s.d with hs := none } } := by
  rw [exec_decUnit_completed herr hcp, decodeCp_hit16 (d := { s.d with hs := none }) hok hw hhit hterm hw8
    ((congrArg _ hba).trans (pushBits8_pair _))]
  simp [byteItems, hba]

/-- An 8-bit symbol is one byte, passes the padding test and terminates (R223, R225). -/
theorem exec_decUnit_hit8 (hw8 : dwordW8 w = true) :
    exec (.decUnit u) s = returnOk [.byte ((dwordVal w).extractLsb' 0 8)]
      { s with d := { s.d with hs := none, term := true } } := by
  rw [exec_decUnit_completed herr hcp, decodeCp_hit8_padded (d := { s.d with hs := none }) hok hw hhit hterm hw8
    ((congrArg _ hba).trans (pushBits8_byte _)) paddingHolds_empty]
  simp [byteItems, lowByte, extractLsb'_setWidth_byte, hba]

end DecUnit

/-- Settles O23: one equation for each unit that completes no code point. -/
theorem decUnitPairsSurrogates : Obligations.DecUnitPairsSurrogates :=
  fun _ _ herr => ⟨exec_decUnit_high herr, exec_decUnit_loneLow herr, fun _ => exec_decUnit_unpairedHigh herr⟩

/-- Settles O27: one equation for each of the three states of the channel. -/
theorem decFinEndsTheText : Obligations.DecFinEndsTheText :=
  ⟨⟨rfl, rfl, rfl, rfl⟩, fun _ => ⟨fun _ => exec_decFin_dead, fun _ => exec_decFin_halfRead, exec_decFin_live⟩⟩

/-- Settles O26: one equation for each width. -/
theorem decUnitGivesTheBytesOfTheSymbol : Obligations.DecUnitGivesTheBytesOfTheSymbol :=
  fun _ _ _ hok herr hba hterm hcp hhit =>
    ⟨exec_decUnit_hit16 herr hok hcp rfl hhit hterm hba, exec_decUnit_hit8 herr hok hcp rfl hhit hterm hba⟩

end Sys2Proof.Machine

/-! ### Surrogate pairs (43_decoder R222) -/

namespace Sys2Proof.Machine

/-- The code point of a pair in numbers (R222). -/
theorem combineSurrogates_toNat {hi lo : CodeUnit} (hhi : isHighSurrogate hi = true) (hlo : isLowSurrogate lo = true) :
    (combineSurrogates hi lo).toNat = 0x10000 + (hi.toNat - 0xD800) * 1024 + (lo.toNat - 0xDC00) := by
  rw [isHighSurrogate_iff] at hhi
  rw [isLowSurrogate_iff] at hlo
  have hhigh : (hi - 0xD800#16).toNat = hi.toNat - 0xD800 := by bv_omega
  have hlow : (lo - 0xDC00#16).toNat = lo.toNat - 0xDC00 := by bv_omega
  simp only [combineSurrogates, BitVec.toNat_add, BitVec.toNat_shiftLeft, BitVec.toNat_setWidth, hhigh, hlow,
    Nat.shiftLeft_eq, BitVec.toNat_ofNat]
  omega

/-- A code point is determined by its units (R195, R222). -/
theorem utf16_combineSurrogates {hi lo : CodeUnit} (hhi : isHighSurrogate hi = true) (hlo : isLowSurrogate lo = true) :
    utf16 (combineSurrogates hi lo) = [hi, lo] := by
  have hnum := combineSurrogates_toNat hhi hlo
  rw [isHighSurrogate_iff] at hhi
  rw [isLowSurrogate_iff] at hlo
  obtain ⟨hi', lo', hunits, hhi', hlo'⟩ := utf16_pair (cp := combineSurrogates hi lo) (by omega) (by omega)
  have ehi : hi' = hi := BitVec.eq_of_toNat_eq (by omega)
  have elo : lo' = lo := BitVec.eq_of_toNat_eq (by omega)
  rw [hunits, ehi, elo]

/-- Settles O19: the three parts of the number stay in their own bits, so the split takes them apart again. -/
theorem surrogatePairCombines : Obligations.SurrogatePairCombines := by
  intro hi lo hhi hlo
  have hnum := combineSurrogates_toNat hhi hlo
  refine ⟨hnum, (isScalar_iff _).2 ?_, utf16_combineSurrogates hhi hlo⟩
  rw [isHighSurrogate_iff] at hhi
  rw [isLowSurrogate_iff] at hlo
  omega

/-- The units of a scalar value as the decoder sees them: one unit that is no half, or the two halves that combine to it
(R195, R222). -/
theorem utf16_cases {c : CodePoint} (hc : isScalar c = true) :
    (∃ u : CodeUnit, utf16 c = [u] ∧ isHighSurrogate u = false ∧ isLowSurrogate u = false ∧ u.setWidth 21 = c) ∨
      ∃ hi lo : CodeUnit, utf16 c = [hi, lo] ∧ isHighSurrogate hi = true ∧ isLowSurrogate lo = true ∧
        combineSurrogates hi lo = c := by
  obtain ⟨hsingle, hpair⟩ := utf16UnitsOfScalarValues c hc
  rcases Nat.lt_or_ge c.toNat 0x10000 with hlt | hge
  · obtain ⟨u, hunits, hu, hhigh, hlow⟩ := hsingle hlt
    refine .inl ⟨u, hunits, hhigh, hlow, BitVec.eq_of_toNat_eq ?_⟩
    rw [BitVec.toNat_setWidth, hu]
    exact Nat.mod_eq_of_lt c.isLt
  · obtain ⟨hi, lo, hunits, hhigh, hlow, hhi, hlo⟩ := hpair hge
    refine .inr ⟨hi, lo, hunits, hhigh, hlow, BitVec.eq_of_toNat_eq ?_⟩
    rw [combineSurrogates_toNat hhigh hlow]
    omega

end Sys2Proof.Machine

/-! ### The padding test (43_decoder R229) -/

namespace Sys2Proof.Machine

/-- From `s` to `t` one response came to `RSP`, with a status other than `st`. -/
def AnswersNot (st : Status) (s t : State) : Prop := ∃ r, t.rsp = s.rsp ++ [r] ∧ r.status ≠ st

section AnswersNot

variable {st : Status} {s t : State}

theorem answersNot_respond {r : Response} (hr : r.status ≠ st) (ht : t.rsp = s.rsp) : AnswersNot st s (respond r t) :=
  ⟨r, by rw [respond_rsp, ht], hr⟩

theorem answersNot_raise {c : ErrCode} {info : CodePoint} (hc : errStatus c ≠ st) (h : raise c info s = .next t) :
    AnswersNot st s t := by
  obtain rfl := (raise_next_iff _ _ _ _).1 h
  exact answersNot_respond hc rfl

theorem answersNot_refuseDead {er : DecError} (hst : .sessionInError ≠ st) (h : refuseDead er s = .next t) :
    AnswersNot st s t := by
  obtain rfl := (refuseDead_next_iff _ _ _).1 h
  exact answersNot_respond hst rfl

theorem AnswersNot.status_ne (h : AnswersNot st s t) {r : Response} (hr : t.rsp = s.rsp ++ [r]) : r.status ≠ st := by
  obtain ⟨r', hr', hne⟩ := h
  obtain rfl : r' = r := by simpa using hr'.symm.trans hr
  exact hne

end AnswersNot

section NoMismatch

variable {i : Instr} {s t : State}

/-- A response with status OK is not `PaddingMismatch`. -/
theorem answersNoMismatch_ok {out : List Item} (ht : t.rsp = s.rsp) :
    AnswersNot .paddingMismatch s (respond ⟨.ok, 0#21, out⟩ t) := answersNot_respond Status.noConfusion ht

theorem exec_enc_answersNoMismatch (hi : isEnc i = true) (h : exec i s = .next t) :
    AnswersNot .paddingMismatch s t := by
  cases i with
  | encOpen wrap =>
    obtain rfl := execEncOpen_next h
    exact answersNoMismatch_ok rfl
  | encByte b =>
    rw [exec_encByte] at h
    rcases execEncByte_next h with ⟨-, rfl⟩ | ⟨a, sym, c, -, -, -, rfl⟩
    · exact answersNoMismatch_ok rfl
    · exact answersNoMismatch_ok rfl
  | encFin =>
    rw [exec_encFin] at h
    rcases execEncFin_next h with ⟨-, rfl⟩ | ⟨a, ans, c, -, -, -, -, rfl⟩
    · exact answersNoMismatch_ok rfl
    · exact answersNoMismatch_ok rfl
  | _ => cases hi

/-- Eight bits pushed onto an empty accumulator at width 8 are emitted, and the padding test passes on what is left. -/
theorem decodeCp_answersNoMismatch {cp : CodePoint} {d : DecChan} (h : decodeCp cp d s = .next t) (hba : d.ba = Acc.empty) :
    AnswersNot .paddingMismatch s t := by
  obtain ⟨-, w, -, hw⟩ := decodeCp_next h
  rcases hw with ⟨-, -, rfl⟩ | ⟨-, -, hr⟩ | ⟨-, -, hr⟩ | ⟨-, -, -, rfl⟩ | ⟨-, -, -, -, rfl⟩ | ⟨-, -, -, hpad, -⟩
  · exact answersNoMismatch_ok rfl
  · exact answersNot_raise (by decide) hr
  · exact answersNot_raise (by decide) hr
  · exact answersNoMismatch_ok rfl
  · exact answersNoMismatch_ok rfl
  · rw [hba, pushBits8_byte_empty, paddingHolds_empty] at hpad
    cases hpad

theorem exec_dec_answersNoMismatch (hi : isDec i = true) (hba : s.d.ba = Acc.empty) (h : exec i s = .next t) :
    AnswersNot .paddingMismatch s t := by
  cases i with
  | decOpen ig =>
    obtain rfl := execDecOpen_next h
    exact answersNoMismatch_ok rfl
  | decUnit u =>
    rcases execDecUnit_next h with ⟨er, -, hr⟩ | ⟨-, ⟨v, -, -, hr⟩ | ⟨v, -, -, hr⟩ | ⟨-, -, rfl⟩ | ⟨-, -, -, hr⟩ |
      ⟨-, -, -, hr⟩⟩
    · exact answersNot_refuseDead (by decide) hr
    · exact decodeCp_answersNoMismatch hr hba
    · exact answersNot_raise (by decide) hr
    · exact answersNoMismatch_ok rfl
    · exact answersNot_raise (by decide) hr
    · exact decodeCp_answersNoMismatch hr hba
  | decFin =>
    rcases execDecFin_next h with ⟨er, -, hr⟩ | ⟨-, ⟨v, -, hr⟩ | ⟨-, rfl⟩⟩
    · exact answersNot_refuseDead (by decide) hr
    · exact answersNot_raise (by decide) hr
    · exact answersNoMismatch_ok rfl
  | _ => cases hi

theorem exec_lk_answersNoMismatch (hi : isLk i = true) (h : exec i s = .next t) :
    AnswersNot .paddingMismatch s t := by
  cases i with
  | lkS2c16 v =>
    obtain ⟨-, rfl⟩ := execLkS2c16_next h
    exact answersNoMismatch_ok rfl
  | lkS2c8 v =>
    obtain ⟨-, rfl⟩ := execLkS2c8_next h
    exact answersNoMismatch_ok rfl
  | lkC2s cp =>
    obtain ⟨-, rfl⟩ := execLkC2s_next h
    exact answersNoMismatch_ok rfl
  | _ => cases hi

end NoMismatch

/-- Settles O30: no response of the encode and lookup groups is an error, and `DECODE_CP` starts from the empty accumulator of
R28 (b). -/
theorem paddingMismatchIsUnreachable : Obligations.PaddingMismatchIsUnreachable := by
  refine ⟨fun v => ⟨pushBits8_byte_empty v, ?_⟩, fun i s t r hs hready hi h hr => ?_⟩
  · rw [pushBits8_byte_empty]
    exact paddingHolds_empty
  · rcases group_of_isCommand hi with henc | hdec | hlk
    · exact (exec_enc_answersNoMismatch henc h).status_ne hr
    · exact (exec_dec_answersNoMismatch hdec (hs.dec hready).1 h).status_ne hr
    · exact (exec_lk_answersNoMismatch hlk h).status_ne hr

end Sys2Proof.Machine

/-! ### The garbage option (43_decoder R226) -/

namespace Sys2Proof.Machine

/-- `s` with `D.IG = 1`. -/
def ignoringGarbage (s : State) : State := { s with d := { s.d with ig := true } }

/-- `o`, the outcome with `D.IG = 1` of a command that leads from `s` to `t` with `D.IG = 0`, is the same when the command
does not answer `InvalidCodePoint`, and skips the code point when it does (R226); `d` is the channel on which a code point
that it completes is decoded. -/
def SameOrSkipped (d : DecChan) (s t : State) (o : Host.Outcome State Fault Refusal) : Prop :=
  (AnswersNot .invalidCodePoint s t ∧ o = .next (ignoringGarbage t)) ∨
    ((∃ cp, raise .invalidCodePoint cp s = .next t) ∧
      o = returnOk [] { s with d := { d with ig := true } })

section IgnoringGarbage

variable {d : DecChan} {s t : State}

theorem returnOk_sameOrSkipped {out : List Item} {d' : DecChan} (h : returnOk out { s with d := d' } = .next t) :
    SameOrSkipped d s t (returnOk out { s with d := { d' with ig := true } }) := by
  obtain rfl := (returnOk_next_iff _ _ _).1 h
  exact .inl ⟨answersNot_respond Status.noConfusion rfl, rfl⟩

theorem raise_sameOrSkipped {c : ErrCode} {info : CodePoint} (hc : errStatus c ≠ .invalidCodePoint)
    (h : raise c info s = .next t) : SameOrSkipped d s t (raise c info (ignoringGarbage s)) := by
  refine .inl ⟨answersNot_raise hc h, ?_⟩
  obtain rfl := (raise_next_iff _ _ _ _).1 h
  rfl

theorem refuseDead_sameOrSkipped {er : DecError} (h : refuseDead er s = .next t) :
    SameOrSkipped d s t (refuseDead er (ignoringGarbage s)) := by
  refine .inl ⟨answersNot_refuseDead (by decide) h, ?_⟩
  obtain rfl := (refuseDead_next_iff _ _ _).1 h
  rfl

/-- `DECODE_CP` reads `D.IG` at a miss only (R223). -/
theorem decodeCp_sameOrSkipped {cp : CodePoint} (hig : d.ig = false) (h : decodeCp cp d s = .next t) :
    SameOrSkipped d s t (decodeCp cp { d with ig := true } (ignoringGarbage s)) := by
  obtain ⟨hok, w, hw, hcases⟩ := decodeCp_next h
  rcases hcases with ⟨-, hig', -⟩ | ⟨hmiss, -, hr⟩ | ⟨hhit, hterm, hr⟩ | ⟨hhit, hterm, hw8, ht⟩ |
    ⟨hhit, hterm, hw8, hpad, ht⟩ | ⟨hhit, hterm, hw8, hpad, hr⟩
  · exact absurd (hig.symm.trans hig') Bool.noConfusion
  · have hskip := decodeCp_miss_skipped (d := { d with ig := true }) (s := ignoringGarbage s) hok hw.symm hmiss rfl
    exact .inr ⟨⟨cp, hr⟩, hskip⟩
  · rw [decodeCp_hit_afterTerminal (d := { d with ig := true }) (s := ignoringGarbage s) hok hw.symm hhit hterm]
    exact raise_sameOrSkipped (by decide) hr
  · rcases hpush : pushBits 8#5 16 (dwordVal w) d.ba with ⟨a, syms⟩
    rw [hpush] at ht
    rw [decodeCp_hit16 (d := { d with ig := true }) (s := ignoringGarbage s) hok hw.symm hhit hterm hw8 hpush]
    exact returnOk_sameOrSkipped ((returnOk_next_iff _ _ _).2 ht)
  · rcases hpush : pushBits 8#5 8 (lowByte (dwordVal w)) d.ba with ⟨a, syms⟩
    rw [hpush] at ht hpad
    rw [decodeCp_hit8_padded (d := { d with ig := true }) (s := ignoringGarbage s) hok hw.symm hhit hterm hw8
      hpush hpad]
    exact returnOk_sameOrSkipped ((returnOk_next_iff _ _ _).2 ht)
  · rcases hpush : pushBits 8#5 8 (lowByte (dwordVal w)) d.ba with ⟨a, syms⟩
    rw [hpush] at hpad
    rw [decodeCp_hit8_mismatch (d := { d with ig := true }) (s := ignoringGarbage s) hok hw.symm hhit hterm hw8
      hpush hpad]
    exact raise_sameOrSkipped (by decide) hr

theorem exec_decUnit_sameOrSkipped {u : CodeUnit} (hig : s.d.ig = false) (h : exec (.decUnit u) s = .next t) :
    SameOrSkipped { s.d with hs := none } s t (exec (.decUnit u) (ignoringGarbage s)) := by
  rcases herr : s.d.err with _ | er
  · rcases unit_cases u s.d with ⟨cp, hcp⟩ | ⟨hhs, hhigh⟩ | ⟨hhs, hlow⟩ | ⟨v, hhs, hlow⟩
    · rw [exec_decUnit_completed herr hcp] at h
      rw [exec_decUnit_completed (s := ignoringGarbage s) herr hcp]
      exact decodeCp_sameOrSkipped (d := { s.d with hs := none }) hig h
    · rw [exec_decUnit_high herr hhs hhigh] at h
      rw [exec_decUnit_high (s := ignoringGarbage s) herr hhs hhigh]
      exact returnOk_sameOrSkipped h
    · rw [exec_decUnit_loneLow herr hhs hlow] at h
      rw [exec_decUnit_loneLow (s := ignoringGarbage s) herr hhs hlow]
      exact raise_sameOrSkipped (by decide) h
    · rw [exec_decUnit_unpairedHigh herr hhs hlow] at h
      rw [exec_decUnit_unpairedHigh (s := ignoringGarbage s) herr hhs hlow]
      exact raise_sameOrSkipped (by decide) h
  · rw [exec_decUnit_dead herr] at h
    rw [exec_decUnit_dead (s := ignoringGarbage s) herr]
    exact refuseDead_sameOrSkipped h

theorem exec_decFin_sameOrSkipped (h : exec .decFin s = .next t) :
    SameOrSkipped { s.d with hs := none } s t (exec .decFin (ignoringGarbage s)) := by
  rcases herr : s.d.err with _ | er
  · rcases hhs : s.d.hs with _ | v
    · rw [exec_decFin_live herr hhs] at h
      rw [exec_decFin_live (s := ignoringGarbage s) herr hhs]
      exact returnOk_sameOrSkipped h
    · rw [exec_decFin_halfRead herr hhs] at h
      rw [exec_decFin_halfRead (s := ignoringGarbage s) herr hhs]
      exact raise_sameOrSkipped (by decide) h
  · rw [exec_decFin_dead herr] at h
    rw [exec_decFin_dead (s := ignoringGarbage s) herr]
    exact refuseDead_sameOrSkipped h

end IgnoringGarbage

/-- Settles O31: `D.IG` is read in one place, at a miss (`decodeCp_sameOrSkipped`). -/
theorem ignoreGarbageChangesOnlyTheMiss : Obligations.IgnoreGarbageChangesOnlyTheMiss := by
  intro i s t r hi hopen hig h hr
  have hcases : SameOrSkipped { s.d with hs := none } s t (exec i (ignoringGarbage s)) := by
    cases i with
    | decOpen g => exact absurd rfl (hopen g)
    | decUnit u => exact exec_decUnit_sameOrSkipped hig h
    | decFin => exact exec_decFin_sameOrSkipped h
    | _ => cases hi
  rcases hcases with ⟨hnot, hsame⟩ | ⟨⟨cp, hraise⟩, hskip⟩
  · exact ⟨fun _ => hsame, fun hst => absurd hst (hnot.status_ne hr)⟩
  · refine ⟨fun hst => absurd ?_ hst, fun _ => hskip⟩
    obtain rfl := (raise_next_iff _ _ _ _).1 hraise
    obtain rfl : _ = r := by simpa using hr
    rfl

end Sys2Proof.Machine

/-! ### Responses of a run of commands (30_encoding R91, R110) -/

namespace Sys2Proof.Machine

/-- The block waits for the host: R135 holds, `READY = 1`, nothing is offered. -/
structure Idle (s : State) : Prop where
  config : s.cfg.ok = true
  ready : s.ready = true
  waiting : s.inp = []

/-- The block after it has answered `r` from `s`, with the channels as that command leaves them. -/
def answered (s : State) (e : EncChan) (d : DecChan) (r : Response) : State :=
  respond r { s with e := e, d := d }

/-- From `s` the commands run to their end, answer `rs` and write nothing but the channels. -/
def RunAnswers (is : List Instr) (s : State) (rs : List Response) : Prop :=
  ∃ e d, runCommands is s = .next { s with e := e, d := d, rsp := s.rsp ++ rs }

/-- The command does the same whatever is offered behind it: it answers `r` and leaves the channels `e` and `d`. -/
def CommandAnswers (i : Instr) (s : State) (e : EncChan) (d : DecChan) (r : Response) : Prop :=
  ∀ q, exec i { s with inp := q } = .next { answered s e d r with inp := q }

section RunAnswers

variable {s : State}

theorem Idle.answered (hs : Idle s) (e : EncChan) (d : DecChan) (r : Response) : Idle (answered s e d r) :=
  ⟨hs.config, hs.ready, hs.waiting⟩

theorem runAnswers_nil (s : State) : RunAnswers [] s [] :=
  ⟨s.e, s.d, by rw [runCommands_nil, List.append_nil]⟩

theorem runAnswers_cons (hs : Idle s) {i : Instr} {e : EncChan} {d : DecChan} {r : Response} {is : List Instr}
    {rs : List Response} (hi : CommandAnswers i s e d r) (his : RunAnswers is (answered s e d r) rs) :
    RunAnswers (i :: is) s (r :: rs) := by
  obtain ⟨e', d', hrun⟩ := his
  refine ⟨e', d', ?_⟩
  rw [runCommands_cons (t := answered s e d r) hs.config hs.ready hs.waiting hs.waiting hi, hrun, answered, respond_rsp,
    List.append_assoc, List.singleton_append]
  rfl

end RunAnswers

/-- A response with status OK and a list of bytes. -/
def okBytes (bs : List Byte) : Response := ⟨.ok, 0#21, bs.map .byte⟩

theorem prependBytes_nil (v : DecodeValue) : prependBytes [] v = v := by cases v <;> rfl

/-- The bytes of a response with status OK come first in the value of `decode`. -/
theorem decodeValue_okBytes (bs : List Byte) (rs : List Response) :
    decodeValue (okBytes bs :: rs) = prependBytes bs (decodeValue rs) := by
  have hfind : (okBytes bs :: rs).find? (fun r => r.status != .ok) = rs.find? (fun r => r.status != .ok) := rfl
  have hbytes : bytOf (okBytes bs :: rs) = bs ++ bytOf rs := by simp [bytOf, okBytes, List.filterMap_map]
  rw [decodeValue, decodeValue, hfind, hbytes]
  split <;> rfl

/-- The first status that is not OK decides the value of `decode`. -/
theorem decodeValue_failed {r : Response} (hr : r.status ≠ .ok) (rs : List Response) :
    decodeValue (r :: rs) = .failed r.status r.info := by
  simp [decodeValue, hr]

end Sys2Proof.Machine

/-! ### The closed form of `decode` (43_decoder R227) -/

namespace Sys2Proof.Machine

/-- From `s` the units and the `DEC.FIN` after them run to their end, and the value read off their responses is `v`. -/
def DecodesTo (s : State) (us : List CodeUnit) (v : DecodeValue) : Prop :=
  ∃ rs, RunAnswers (us.map .decUnit ++ [.decFin]) s rs ∧ decodeValue rs = v

section DecodesTo

variable {s : State} {us : List CodeUnit} {u : CodeUnit} {v : DecodeValue}

/-- A dead session answers every unit and `DEC.FIN` (R298). -/
theorem runAnswers_dead (hs : Idle s) {er : DecError} (herr : s.d.err = some er) (us : List CodeUnit) :
    ∃ rs, RunAnswers (us.map .decUnit ++ [.decFin]) s rs := by
  induction us generalizing s with
  | nil =>
    have hfin : CommandAnswers .decFin s s.e s.d ⟨.sessionInError, (errNumber er.code).setWidth 21, []⟩ :=
      fun q => exec_decFin_dead (s := { s with inp := q }) herr
    exact ⟨_, runAnswers_cons hs hfin (runAnswers_nil _)⟩
  | cons u us ih =>
    have hu : CommandAnswers (.decUnit u) s s.e s.d ⟨.sessionInError, (errNumber er.code).setWidth 21, []⟩ :=
      fun q => exec_decUnit_dead (s := { s with inp := q }) herr u
    obtain ⟨rs, hrs⟩ := ih (hs.answered s.e s.d _) herr
    exact ⟨_, runAnswers_cons hs hu hrs⟩

theorem decodesTo_nil (hs : Idle s) (herr : s.d.err = none) (hhs : s.d.hs = none) : DecodesTo s [] (.bytes []) := by
  have hfin : CommandAnswers .decFin s s.e ⟨Acc.empty, false, none, s.d.ig, none⟩ (okBytes []) :=
    fun q => exec_decFin_live (s := { s with inp := q }) herr hhs
  exact ⟨_, runAnswers_cons hs hfin (runAnswers_nil _), rfl⟩

theorem decodesTo_cons_ok (hs : Idle s) {d : DecChan} {bs : List Byte}
    (hu : CommandAnswers (.decUnit u) s s.e d (okBytes bs)) (hus : DecodesTo (answered s s.e d (okBytes bs)) us v) :
    DecodesTo s (u :: us) (prependBytes bs v) := by
  obtain ⟨rs, hrs, rfl⟩ := hus
  exact ⟨_, runAnswers_cons hs hu hrs, decodeValue_okBytes bs rs⟩

/-- A raise decides the value: what comes after it is refused. -/
theorem decodesTo_cons_raise (hs : Idle s) {c : ErrCode} {info : CodePoint}
    (hu : ∀ q, exec (.decUnit u) { s with inp := q } = raise c info { s with inp := q }) (us : List CodeUnit) :
    DecodesTo s (u :: us) (.failed (errStatus c) info) := by
  have hraise : CommandAnswers (.decUnit u) s s.e { s.d with err := some ⟨c, info⟩ } ⟨errStatus c, info, []⟩ := hu
  obtain ⟨rs, hrs⟩ := runAnswers_dead (hs.answered _ { s.d with err := some ⟨c, info⟩ } _) rfl us
  exact ⟨_, runAnswers_cons hs hraise hrs, decodeValue_failed (errStatus_ne_ok c) rs⟩

end DecodesTo

/-- An idle block in a decode session that holds no error, between two commands (R28 b); `hi` is the pending high
surrogate. -/
structure LiveSession (cfg : Config) (m : Memory) (ig term : Bool) (hi : Option CodeUnit) (s : State) : Prop where
  idle : Idle s
  cfg_eq : s.cfg = cfg
  mem_eq : s.mem = m
  channel : s.d = ⟨Acc.empty, term, hi, ig, none⟩

section LiveSession

variable {cfg : Config} {m : Memory} {ig term : Bool} {hi : Option CodeUnit} {s : State} {c : CodePoint} {u : CodeUnit}
  {us : List CodeUnit}

theorem LiveSession.answered (hs : LiveSession cfg m ig term hi s) {d : DecChan} {term' : Bool} {hi' : Option CodeUnit}
    (hd : d = ⟨Acc.empty, term', hi', ig, none⟩) (r : Response) :
    LiveSession cfg m ig term' hi' (answered s s.e d r) :=
  ⟨hs.idle.answered _ d r, hs.cfg_eq, hs.mem_eq, hd⟩

/-- A unit that completes a code point, followed by units whose value is that of `cs`: a case for each test of `DECODE_CP`
(R223, R227). -/
theorem decodesTo_completed (hs : LiveSession cfg m ig term hi s) (hcp : completedCp s.d u = some c) {cs : List CodePoint}
    (hus : ∀ {s' term'}, LiveSession cfg m ig term' none s' → DecodesTo s' us (decodedText cfg m ig term' cs)) :
    DecodesTo s (u :: us) (decodedText cfg m ig term (c :: cs)) := by
  have hs' := hs.idle
  have hok := hs'.config
  have hd := hs.channel
  obtain rfl := hs.cfg_eq
  obtain rfl := hs.mem_eq
  have herr : s.d.err = none := by rw [hd]
  have hba : s.d.ba = Acc.empty := by rw [hd]
  have hterm : s.d.term = term := by rw [hd]
  have hig : s.d.ig = ig := by rw [hd]
  rw [decodedText]
  split_ifs with hmiss higOn htermOn hw8
  · have hskip : CommandAnswers (.decUnit u) s s.e { s.d with hs := none } (okBytes []) := fun q =>
      exec_decUnit_miss_skipped (s := { s with inp := q }) herr hok hcp rfl hmiss (hig.trans higOn)
    rw [← prependBytes_nil (decodedText _ _ _ _ _)]
    exact decodesTo_cons_ok hs' hskip (hus (hs.answered (by rw [hd]) _))
  · exact decodesTo_cons_raise hs' (fun q =>
      exec_decUnit_miss_raises (s := { s with inp := q }) herr hok hcp rfl hmiss
        (hig.trans (Bool.eq_false_iff.2 higOn))) us
  · exact decodesTo_cons_raise hs' (fun q =>
      exec_decUnit_afterTerminal (s := { s with inp := q }) herr hok hcp rfl (Bool.eq_true_of_not_eq_false hmiss)
        (hterm.trans htermOn)) us
  · have hbytes : CommandAnswers (.decUnit u) s s.e { s.d with hs := none } (okBytes
        [(dwordVal (readDtab s.cfg s.mem c)).extractLsb' 8 8, (dwordVal (readDtab s.cfg s.mem c)).extractLsb' 0 8]) :=
      fun q => exec_decUnit_hit16 (s := { s with inp := q }) herr hok hcp rfl (Bool.eq_true_of_not_eq_false hmiss)
        (hterm.trans (Bool.eq_false_iff.2 htermOn)) hba hw8
    exact decodesTo_cons_ok hs' hbytes (hus (hs.answered (by rw [hd]) _))
  · have hbyte : CommandAnswers (.decUnit u) s s.e { s.d with hs := none, term := true }
        (okBytes [(dwordVal (readDtab s.cfg s.mem c)).extractLsb' 0 8]) :=
      fun q => exec_decUnit_hit8 (s := { s with inp := q }) herr hok hcp rfl (Bool.eq_true_of_not_eq_false hmiss)
        (hterm.trans (Bool.eq_false_iff.2 htermOn)) hba (Bool.eq_true_of_not_eq_false hw8)
    exact decodesTo_cons_ok hs' hbyte (hus (hs.answered (by rw [hd]) _))

/-- The units of a scalar value do what the unit that completes it does, since a high surrogate before it only waits (R195,
R222). -/
theorem decodesTo_utf16 (hs : LiveSession cfg m ig term none s) (hc : isScalar c = true) {cs : List CodePoint}
    (hus : ∀ {s' term'}, LiveSession cfg m ig term' none s' → DecodesTo s' us (decodedText cfg m ig term' cs)) :
    DecodesTo s (utf16 c ++ us) (decodedText cfg m ig term (c :: cs)) := by
  have herr : s.d.err = none := by rw [hs.channel]
  have hhs : s.d.hs = none := by rw [hs.channel]
  rcases utf16_cases hc with ⟨u, hunits, hhigh, hlow, hcp⟩ | ⟨hi, lo, hunits, hhigh, hlow, hcp⟩
  · rw [hunits]
    exact decodesTo_completed hs (by simp [completedCp, hhs, hhigh, hlow, hcp]) hus
  · have hwait : CommandAnswers (.decUnit hi) s s.e { s.d with hs := some hi } (okBytes []) := fun q =>
      exec_decUnit_high (s := { s with inp := q }) herr hhs hhigh
    rw [hunits, ← prependBytes_nil (decodedText _ _ _ _ _)]
    exact decodesTo_cons_ok hs.idle hwait
      (decodesTo_completed (hs.answered (by rw [hs.channel]) _) (by simp [answered, completedCp, hlow, hcp]) hus)

/-- The value of the units of a text of scalar values and the `DEC.FIN` after them (R227), by induction over the text. -/
theorem decodesTo_text (hs : LiveSession cfg m ig term none s) {cs : List CodePoint}
    (hcs : ∀ c ∈ cs, isScalar c = true) :
    DecodesTo s (cs.flatMap utf16) (decodedText cfg m ig term cs) := by
  induction cs generalizing s term with
  | nil => exact decodesTo_nil hs.idle (by rw [hs.channel]) (by rw [hs.channel])
  | cons c cs ih =>
    obtain ⟨hc, hcs⟩ := List.forall_mem_cons.1 hcs
    exact decodesTo_utf16 hs hc fun hs' => ih hs' hcs

end LiveSession

/-- Settles O55: `DEC.OPEN` starts a session that holds no error, whatever the channel held, and an induction over the text
(`decodesTo_text`) does the rest. -/
theorem decodeHasItsClosedForm : Obligations.DecodeHasItsClosedForm := by
  intro cs g s htab hready hinp hcs
  have hs : Idle s := ⟨htab.1, hready, hinp⟩
  have hopen : CommandAnswers (.decOpen g) s s.e (freshDec (g == 1#1) s.d) (okBytes []) := fun _ => rfl
  obtain ⟨rs, hrs, hvalue⟩ := decodesTo_text (s := answered s s.e (freshDec (g == 1#1) s.d) (okBytes []))
    ⟨hs.answered _ _ _, rfl, rfl, rfl⟩ hcs
  obtain ⟨e, d, hrun⟩ := runAnswers_cons hs hopen hrs
  refine ⟨_, hrun, ?_⟩
  rw [responsesSince, List.drop_left, decodeValue_okBytes, prependBytes_nil]
  exact hvalue

end Sys2Proof.Machine

/-! ### The text of an encode session (42_encoder R192 to R194, 44_streaming R266) -/

namespace Sys2Proof.Machine

/-- The line break that the next code point brings, if any (R194). -/
def lineBreak (cfg : Config) (e : EncChan) : List CodePoint :=
  if e.wrap ≠ 0#24 ∧ e.col + 1#24 = e.wrap then [cfg.wrapCp] else []

/-- The text that the built tables give for a stream of bytes and the `ENC.FIN` after it, from a channel that holds no byte:
the code points of the symbols, and the line breaks between them. -/
def encodedText (cfg : Config) : EncChan → List Byte → List CodePoint
  | _, [] => []
  | e, [a] => readEtab8 cfg Memory.built a :: lineBreak cfg e
  | e, a :: b :: bs =>
    let cp := readEtab16 cfg Memory.built (a ++ b)
    cp :: lineBreak cfg e ++ encodedText cfg (emitCp cfg cp e).1 bs

/-- What `EMITCP` gives is the text of the code point and its line break (R194). -/
theorem emitCp_units (cfg : Config) (cp : CodePoint) (e : EncChan) :
    (emitCp cfg cp e).2 = (cp :: lineBreak cfg e).flatMap utf16 := by
  rcases emitCp_cases cfg cp e with ⟨hoff, heq⟩ | ⟨hon, hfull, heq⟩ | ⟨-, hroom, heq⟩
  · simp [heq, lineBreak, hoff]
  · simp [heq, lineBreak, hon, hfull]
  · simp [heq, lineBreak, hroom]

theorem txtOf_okUnits (us : List CodeUnit) (rs : List Response) : txtOf (okUnits us :: rs) = us ++ txtOf rs := by
  simp [txtOf, okUnits, List.filterMap_map]

theorem noPend_eq {e : EncChan} (hp : e.pend = none) : { e with pend := none } = e := by
  rw [← hp]

/-- From `s` the bytes and the `ENC.FIN` after them run to their end, and the units of their responses are those of `cs`. -/
def EncodesTo (s : State) (bs : List Byte) (cs : List CodePoint) : Prop :=
  ∃ rs, RunAnswers (bs.map .encByte ++ [.encFin]) s rs ∧ txtOf rs = cs.flatMap utf16

/-- The block after it has taken the first byte of a pair (R192). -/
def holdingByte (s : State) (a : Byte) : State := answered s { s.e with pend := some a } s.d (okUnits [])

section EncodesTo

variable {s : State} (hs : Idle s) (hmem : s.mem = Memory.built) (hp : s.e.pend = none) (hba : s.e.ba = Acc.empty)
  (a b : Byte)

include hp in
theorem encByte_answers_first : CommandAnswers (.encByte a) s { s.e with pend := some a } s.d (okUnits []) :=
  fun q => exec_encByte_first (s := { s with inp := q }) hp a

include hs hmem hp hba

/-- The second byte of a pair gives the text of its symbol. -/
theorem encByte_answers_second :
    CommandAnswers (.encByte b) (holdingByte s a) (emitCp s.cfg (readEtab16 s.cfg Memory.built (a ++ b)) s.e).1 s.d
      (okUnits ((readEtab16 s.cfg Memory.built (a ++ b) :: lineBreak s.cfg s.e).flatMap utf16)) := by
  rw [← emitCp_units, ← noPend_eq hp, ← hmem]
  exact fun q => exec_encByte_second (s := { holdingByte s a with inp := q }) rfl hba hs.config b

/-- `ENC.FIN` gives the text of the terminal symbol. -/
theorem encFin_answers_pending :
    CommandAnswers .encFin (holdingByte s a) (freshEnc s.e.wrap s.e) s.d
      (okUnits ((readEtab8 s.cfg Memory.built a :: lineBreak s.cfg s.e).flatMap utf16)) := by
  rw [← emitCp_units, ← noPend_eq hp, ← hmem]
  exact fun q => exec_encFin_pending (s := { holdingByte s a with inp := q }) rfl hba hs.config

/-- An induction over the pairs of bytes: after each pair the channel holds no byte again (R192). -/
theorem encodesTo_encodedText (bs : List Byte) : EncodesTo s bs (encodedText s.cfg s.e bs) := by
  induction bs using encodeResponses.induct generalizing s with
  | case1 =>
    have hfin : CommandAnswers .encFin s (freshEnc s.e.wrap s.e) s.d (okUnits []) := fun q =>
      exec_encFin_empty (s := { s with inp := q }) hp
    exact ⟨_, runAnswers_cons hs hfin (runAnswers_nil _), rfl⟩
  | case2 a =>
    have hfirst := encByte_answers_first hp a
    have hfin := encFin_answers_pending hs hmem hp hba a
    refine ⟨_, runAnswers_cons hs hfirst (runAnswers_cons (hs.answered _ _ _) hfin (runAnswers_nil _)), ?_⟩
    rw [txtOf_okUnits, txtOf_okUnits, encodedText, List.nil_append]
    exact List.append_nil _
  | case3 a b bs ih =>
    have hfirst := encByte_answers_first hp a
    have hsecond := encByte_answers_second hs hmem hp hba a b
    have hidle : Idle (holdingByte s a) := hs.answered _ _ _
    obtain ⟨rs, hrs, htxt⟩ := ih
      (hidle.answered (emitCp s.cfg (readEtab16 s.cfg Memory.built (a ++ b)) s.e).1 s.d _) hmem
      ((emitCp_pend _ _ _).trans hp) ((emitCp_ba _ _ _).trans hba)
    refine ⟨_, runAnswers_cons hs hfirst (runAnswers_cons hidle hsecond hrs), ?_⟩
    rw [txtOf_okUnits, txtOf_okUnits, htxt, encodedText, List.flatMap_append, List.nil_append]
    rfl

end EncodesTo

end Sys2Proof.Machine

/-! ### Decoding what was encoded (43_decoder R228) -/

namespace Sys2Proof.Machine

section DecodedText

variable {cfg : Config} (hok : cfg.ok = true)
include hok

/-- The line break is a scalar value that no symbol has (R135 item 6, R266). -/
theorem wrapCp_is_garbage : isScalar cfg.wrapCp = true ∧ readDtab cfg Memory.built cfg.wrapCp = 0#18 := by
  obtain ⟨-, -, -, -, -, -, -, -, -, hwrap⟩ := (config_ok_iff cfg).1 hok
  simp only [wrapCpOk, Bool.and_eq_true, Bool.not_eq_true', decide_eq_true_eq, Bool.or_eq_true] at hwrap
  obtain ⟨⟨⟨hno16, hno8⟩, hlt⟩, hscalar⟩ := hwrap
  refine ⟨(isScalar_iff _).2 ⟨?_, hscalar⟩, builtDtab_miss hno16 hno8⟩
  exact (Nat.lt_trans hlt (by decide)).le

theorem isScalar_of_hit {c : CodePoint} (hhit : dwordHit (readDtab cfg Memory.built c) = true) : isScalar c = true := by
  by_contra hc
  rw [readDtab_of_not_scalar hok (Bool.eq_false_iff.2 hc)] at hhit
  cases hhit

theorem encodedText_scalar (e : EncChan) (bs : List Byte) : ∀ c ∈ encodedText cfg e bs, isScalar c = true := by
  have hbreak : ∀ e : EncChan, ∀ c ∈ lineBreak cfg e, isScalar c = true := fun e c hc => by
    unfold lineBreak at hc
    split_ifs at hc
    · obtain rfl := List.mem_singleton.1 hc
      exact (wrapCp_is_garbage hok).1
    · cases hc
  induction e, bs using encodedText.induct cfg with
  | case1 e => exact nofun
  | case2 e a =>
    have ha : isScalar (readEtab8 cfg Memory.built a) = true :=
      isScalar_of_hit hok (by rw [readDtab_readEtab8 hok, dwordHit_dword])
    exact List.forall_mem_cons.2 ⟨ha, hbreak e⟩
  | case3 e a b bs cp ih =>
    have hcp : isScalar cp = true := isScalar_of_hit hok (by rw [readDtab_readEtab16 hok, dwordHit_dword])
    exact List.forall_mem_append.2 ⟨List.forall_mem_cons.2 ⟨hcp, hbreak e⟩, ih⟩

/-- Where garbage is ignored, or wrapping is off, the line break of a code point decodes to nothing. -/
theorem decodedText_lineBreak {e : EncChan} {ig : Bool} (hig : e.wrap = 0#24 ∨ ig = true) (term : Bool)
    (cs : List CodePoint) :
    decodedText cfg Memory.built ig term (lineBreak cfg e ++ cs) = decodedText cfg Memory.built ig term cs := by
  unfold lineBreak
  split_ifs with hbreak
  · obtain rfl := hig.resolve_left hbreak.1
    simp [decodedText, (wrapCp_is_garbage hok).2, dwordHit]
  · rfl

theorem decodedText_pair (ig : Bool) (a b : Byte) (cs : List CodePoint) :
    decodedText cfg Memory.built ig false (readEtab16 cfg Memory.built (a ++ b) :: cs) =
      prependBytes [a, b] (decodedText cfg Memory.built ig false cs) := by
  have hhigh : (a ++ b).extractLsb' 8 8 = a := BitVec.eq_of_toNat_eq (by
    rw [toNat_extractLsb'_div, toNat_append_add]
    omega)
  have hlow : (a ++ b).extractLsb' 0 8 = b := BitVec.eq_of_toNat_eq (by
    rw [toNat_extractLsb'_div, toNat_append_add]
    omega)
  simp only [decodedText, readDtab_readEtab16 hok, dwordHit_dword, dwordW8_dword, dwordVal_dword, hhigh, hlow]
  rfl

theorem decodedText_terminal (ig : Bool) (a : Byte) (cs : List CodePoint) :
    decodedText cfg Memory.built ig false (readEtab8 cfg Memory.built a :: cs) =
      prependBytes [a] (decodedText cfg Memory.built ig true cs) := by
  simp only [decodedText, readDtab_readEtab8 hok, dwordHit_dword, dwordW8_dword, dwordVal_dword, extractLsb'_setWidth_byte]
  rfl

/-- The symbols decode to their bytes and the line breaks to nothing. -/
theorem decodedText_encodedText {e : EncChan} {ig : Bool} (hig : e.wrap = 0#24 ∨ ig = true) (bs : List Byte) :
    decodedText cfg Memory.built ig false (encodedText cfg e bs) = .bytes bs := by
  induction e, bs using encodedText.induct cfg with
  | case1 e => rfl
  | case2 e a =>
    have hrest := decodedText_lineBreak hok hig true []
    rw [List.append_nil] at hrest
    rw [encodedText, decodedText_terminal hok, hrest]
    rfl
  | case3 e a b bs cp ih =>
    have hrest := ih (by rwa [emitCp_wrap])
    rw [encodedText, List.cons_append, decodedText_pair hok, decodedText_lineBreak hok hig, hrest]
    rfl

end DecodedText

/-- Settles O56: the text of the encoding (`encodesTo_encodedText`) is one of scalar values, so the decoding of its units has
the closed form of R227, which is the bytes (`decodedText_encodedText`). -/
theorem decodeOfEncodedBytesIsTheBytes : Obligations.DecodeOfEncodedBytesIsTheBytes := by
  intro bs wrap g s htab hready hinp hig
  have hs : Idle s := ⟨htab.1, hready, hinp⟩
  have hopen : CommandAnswers (.encOpen wrap) s (freshEnc wrap s.e) s.d (okUnits []) := fun _ => rfl
  obtain ⟨rs, hrs, htxt⟩ := encodesTo_encodedText (hs.answered (freshEnc wrap s.e) s.d (okUnits [])) htab.2 rfl rfl bs
  obtain ⟨e, d, hrun⟩ := runAnswers_cons hs hopen hrs
  have hsince : responsesSince s { s with e := e, d := d, rsp := s.rsp ++ okUnits [] :: rs } = okUnits [] :: rs :=
    List.drop_left
  obtain ⟨u, hu, hvalue⟩ := decodeHasItsClosedForm (encodedText s.cfg (freshEnc wrap s.e) bs) g
    { s with e := e, d := d, rsp := s.rsp ++ okUnits [] :: rs } htab hready hinp (encodedText_scalar htab.1 _ bs)
  refine ⟨_, u, hrun, ?_, ?_⟩
  · rw [hsince, txtOf_okUnits, htxt]
    exact hu
  · rw [hvalue]
    show decodedText s.cfg s.mem _ _ _ = _
    rw [htab.2, decodedText_encodedText htab.1 (hig.imp_right fun h => by rw [h]; rfl)]

end Sys2Proof.Machine

/-! ### The transition table of the decoder (44_streaming R265) -/

namespace Sys2Proof.Machine

/-- From `s` the outcome is a next state with one more response; its phase, the status and the number of bytes are the
row's. -/
def AnswersRow (s : State) (o : Host.Outcome State Fault Refusal) (row : DecRow) : Prop :=
  ∃ t r, o = .next t ∧ t.rsp = s.rsp ++ [r] ∧ (decPhase t.d, r.status, r.out.length) = row

/-- The row of R265 for a completed code point, before or after the terminal symbol. -/
def completedRow (ig term : Bool) (h : Hit) : DecRow := if term then rowAfterEnd ig h else rowCompleted ig h

section Phases

variable {d : DecChan}

theorem decPhase_dead {er : DecError} (herr : d.err = some er) : decPhase d = .dead := by
  rw [decPhase, herr]
  rfl

theorem decPhase_noHs (herr : d.err = none) (hhs : d.hs = none) :
    decPhase d = if d.term then .ended else .run := by
  rw [decPhase, herr, hhs]
  rfl

theorem decPhase_halfRead (herr : d.err = none) {h : CodeUnit} (hhs : d.hs = some h) :
    decPhase d = if d.term then .endedHs else .runHs := by
  rw [decPhase, herr, hhs]
  rfl

end Phases

/-- A code point is completed by a unit that is no half, or by a low half after a high one (R222). -/
theorem completedCp_cases {d : DecChan} {u : CodeUnit} {cp : CodePoint} (hcp : completedCp d u = some cp) :
    (d.hs = none ∧ isHighSurrogate u = false ∧ isLowSurrogate u = false ∧ u.setWidth 21 = cp) ∨
      ∃ h, d.hs = some h ∧ isLowSurrogate u = true ∧ combineSurrogates h u = cp := by
  rcases hhs : d.hs with _ | h
  · simpa [completedCp, hhs, and_assoc] using hcp
  · simpa [completedCp, hhs] using hcp

section UnitInput

variable (cfg : Config) (m : Memory) {d : DecChan} {u : CodeUnit}

theorem unitInput_high (hhigh : isHighSurrogate u = true) : unitInput cfg m d u = .unitHigh := if_pos hhigh

theorem unitInput_other (hhigh : isHighSurrogate u = false) (hlow : isLowSurrogate u = false) :
    unitInput cfg m d u = .unitOther (hitOf (readDtab cfg m (u.setWidth 21))) := by
  rw [unitInput, hhigh, hlow]
  rfl

theorem unitInput_paired {h : CodeUnit} (hhs : d.hs = some h) (hlow : isLowSurrogate u = true) :
    unitInput cfg m d u = .unitLow (hitOf (readDtab cfg m (combineSurrogates h u))) := by
  rw [unitInput, isHighSurrogate_of_isLowSurrogate hlow, hlow, hhs]
  rfl

theorem unitInput_loneLow (hhs : d.hs = none) (hlow : isLowSurrogate u = true) :
    unitInput cfg m d u = .unitLow .miss := by
  rw [unitInput, isHighSurrogate_of_isLowSurrogate hlow, hlow, hhs]
  rfl

theorem unitInput_ne_opened (d : DecChan) (u : CodeUnit) : unitInput cfg m d u ≠ .opened := by
  unfold unitInput
  split_ifs <;> exact DecInput.noConfusion

end UnitInput

/-! The outcomes of a table read, and the rows of a completed code point. -/

section CompletedRows

variable {w : DWord}

theorem hitOf_miss (hmiss : dwordHit w = false) : hitOf w = .miss := by
  rw [hitOf, hmiss]
  rfl

theorem hitOf_hit16 (hhit : dwordHit w = true) (hw8 : dwordW8 w = false) : hitOf w = .hit16 := by
  rw [hitOf, hhit, hw8]
  rfl

theorem hitOf_hit8 (hhit : dwordHit w = true) (hw8 : dwordW8 w = true) : hitOf w = .hit8 := by
  rw [hitOf, hhit, hw8]
  rfl

theorem hitOf_ne_miss (hhit : dwordHit w = true) : hitOf w ≠ .miss := by
  rcases hw8 : dwordW8 w with _ | _
  · rw [hitOf_hit16 hhit hw8]
    exact Hit.noConfusion
  · rw [hitOf_hit8 hhit hw8]
    exact Hit.noConfusion

theorem completedRow_miss_raises (term : Bool) : completedRow false term .miss = (.dead, .invalidCodePoint, 0) := by
  cases term <;> rfl

theorem completedRow_miss_skipped (term : Bool) :
    completedRow true term .miss = (if term then .ended else .run, .ok, 0) := by cases term <;> rfl

theorem completedRow_hit16 (ig : Bool) : completedRow ig false .hit16 = (.run, .ok, 2) := rfl

theorem completedRow_hit8 (ig : Bool) : completedRow ig false .hit8 = (.ended, .ok, 1) := rfl

theorem completedRow_afterTerminal {h : Hit} (hh : h ≠ .miss) (ig : Bool) :
    completedRow ig true h = (.dead, .sequenceContinuedAfterFinalByte, 0) := by
  cases h with
  | hit16 | hit8 => rfl
  | miss => exact absurd rfl hh

end CompletedRows

/-! What the table says, by what the input does to the channel. -/

section TableRows

variable {ig : Bool} {d : DecChan} {cfg : Config} {m : Memory} {u : CodeUnit}

theorem decTable_opened (ig : Bool) (p : DecPhase) : decTable ig p .opened = (.run, .ok, 0) := by cases p <;> rfl

/-- A dead session refuses every input but `DEC.OPEN` (R298). -/
theorem decTable_dead {x : DecInput} (hx : x ≠ .opened) : decTable ig .dead x = (.dead, .sessionInError, 0) := by
  cases x with
  | opened => exact absurd rfl hx
  | unitHigh | unitLow _ | unitOther _ | fin => rfl

variable (herr : d.err = none)
include herr

theorem decTable_completed {cp : CodePoint} (hcp : completedCp d u = some cp) :
    decTable ig (decPhase d) (unitInput cfg m d u) = completedRow ig d.term (hitOf (readDtab cfg m cp)) := by
  rcases completedCp_cases hcp with ⟨hhs, hhigh, hlow, rfl⟩ | ⟨v, hhs, hlow, rfl⟩
  · rw [decPhase_noHs herr hhs, unitInput_other cfg m hhigh hlow]
    cases d.term <;> rfl
  · rw [decPhase_halfRead herr hhs, unitInput_paired cfg m hhs hlow]
    cases d.term <;> rfl

theorem decTable_high (hhs : d.hs = none) (hhigh : isHighSurrogate u = true) :
    decTable ig (decPhase d) (unitInput cfg m d u) = (decPhase { d with hs := some u }, .ok, 0) := by
  rw [decPhase_noHs herr hhs, unitInput_high cfg m hhigh, decPhase_halfRead (d := { d with hs := some u }) herr rfl]
  cases d.term <;> rfl

theorem decTable_loneLow (hhs : d.hs = none) (hlow : isLowSurrogate u = true) :
    decTable ig (decPhase d) (unitInput cfg m d u) = (.dead, .invalidSourceText, 0) := by
  rw [decPhase_noHs herr hhs, unitInput_loneLow cfg m hhs hlow]
  cases d.term <;> rfl

theorem decTable_unpairedHigh {h : CodeUnit} (hhs : d.hs = some h) (hlow : isLowSurrogate u = false) :
    decTable ig (decPhase d) (unitInput cfg m d u) = (.dead, .invalidSourceText, 0) := by
  rw [decPhase_halfRead herr hhs]
  rcases hhigh : isHighSurrogate u with _ | _
  · rw [unitInput_other cfg m hhigh hlow]
    cases d.term <;> rfl
  · rw [unitInput_high cfg m hhigh]
    cases d.term <;> rfl

theorem decTable_fin_live (hhs : d.hs = none) : decTable ig (decPhase d) .fin = (.run, .ok, 0) := by
  rw [decPhase_noHs herr hhs]
  cases d.term <;> rfl

theorem decTable_fin_halfRead {h : CodeUnit} (hhs : d.hs = some h) :
    decTable ig (decPhase d) .fin = (.dead, .invalidSourceText, 0) := by
  rw [decPhase_halfRead herr hhs]
  cases d.term <;> rfl

end TableRows

/-! What the commands do, as rows. -/

section CommandRows

variable {s : State} {u : CodeUnit}

theorem returnOk_answersRow (out : List Item) (d : DecChan) (s : State) :
    AnswersRow s (returnOk out { s with d := d }) (decPhase d, .ok, out.length) := ⟨_, _, rfl, rfl, rfl⟩

theorem raise_answersRow (c : ErrCode) (info : CodePoint) (s : State) :
    AnswersRow s (raise c info s) (.dead, errStatus c, 0) := ⟨_, _, rfl, rfl, rfl⟩

theorem refuseDead_answersRow {er : DecError} (herr : s.d.err = some er) :
    AnswersRow s (refuseDead er s) (.dead, .sessionInError, 0) := by
  rw [← decPhase_dead herr]
  exact ⟨_, _, rfl, rfl, rfl⟩

/-- A case for each test of `DECODE_CP` (R223). -/
theorem exec_decUnit_completed_answersRow (hok : s.cfg.ok = true) (hba : s.d.ba = Acc.empty) (herr : s.d.err = none)
    {cp : CodePoint} (hcp : completedCp s.d u = some cp) :
    AnswersRow s (exec (.decUnit u) s) (completedRow s.d.ig s.d.term (hitOf (readDtab s.cfg s.mem cp))) := by
  rcases hhit : dwordHit (readDtab s.cfg s.mem cp) with _ | _
  · rw [hitOf_miss hhit]
    rcases hig : s.d.ig with _ | _
    · rw [exec_decUnit_miss_raises herr hok hcp rfl hhit hig, completedRow_miss_raises]
      exact raise_answersRow _ _ s
    · rw [exec_decUnit_miss_skipped herr hok hcp rfl hhit hig, completedRow_miss_skipped,
        ← decPhase_noHs (d := { s.d with hs := none }) herr rfl]
      exact returnOk_answersRow _ _ s
  · rcases hterm : s.d.term with _ | _
    · rcases hw8 : dwordW8 (readDtab s.cfg s.mem cp) with _ | _
      · have hphase : decPhase { s.d with hs := none } = .run :=
          (decPhase_noHs (d := { s.d with hs := none }) herr rfl).trans (if_neg (Bool.eq_false_iff.1 hterm))
        rw [exec_decUnit_hit16 herr hok hcp rfl hhit hterm hba hw8, hitOf_hit16 hhit hw8, completedRow_hit16, ← hphase]
        exact returnOk_answersRow _ _ s
      · have hphase : decPhase { s.d with hs := none, term := true } = .ended := decPhase_noHs herr rfl
        rw [exec_decUnit_hit8 herr hok hcp rfl hhit hterm hba hw8, hitOf_hit8 hhit hw8, completedRow_hit8, ← hphase]
        exact returnOk_answersRow _ _ s
    · rw [exec_decUnit_afterTerminal herr hok hcp rfl hhit hterm, completedRow_afterTerminal (hitOf_ne_miss hhit)]
      exact raise_answersRow _ _ s

theorem exec_decUnit_answersRow (hok : s.cfg.ok = true) (hba : s.d.ba = Acc.empty) (u : CodeUnit) :
    AnswersRow s (exec (.decUnit u) s) (decTable s.d.ig (decPhase s.d) (unitInput s.cfg s.mem s.d u)) := by
  rcases herr : s.d.err with _ | er
  · rcases unit_cases u s.d with ⟨cp, hcp⟩ | ⟨hhs, hhigh⟩ | ⟨hhs, hlow⟩ | ⟨h, hhs, hlow⟩
    · rw [decTable_completed herr hcp]
      exact exec_decUnit_completed_answersRow hok hba herr hcp
    · rw [decTable_high herr hhs hhigh, exec_decUnit_high herr hhs hhigh]
      exact returnOk_answersRow _ _ s
    · rw [decTable_loneLow herr hhs hlow, exec_decUnit_loneLow herr hhs hlow]
      exact raise_answersRow _ _ s
    · rw [decTable_unpairedHigh herr hhs hlow, exec_decUnit_unpairedHigh herr hhs hlow]
      exact raise_answersRow _ _ s
  · rw [decPhase_dead herr, decTable_dead (unitInput_ne_opened _ _ _ _), exec_decUnit_dead herr]
    exact refuseDead_answersRow herr

theorem exec_decFin_answersRow (s : State) :
    AnswersRow s (exec .decFin s) (decTable s.d.ig (decPhase s.d) .fin) := by
  rcases herr : s.d.err with _ | er
  · rcases hhs : s.d.hs with _ | h
    · rw [decTable_fin_live herr hhs, exec_decFin_live herr hhs]
      exact returnOk_answersRow _ _ s
    · rw [decTable_fin_halfRead herr hhs, exec_decFin_halfRead herr hhs]
      exact raise_answersRow _ _ s
  · rw [decPhase_dead herr, decTable_dead DecInput.noConfusion, exec_decFin_dead herr]
    exact refuseDead_answersRow herr

end CommandRows

/-- Settles O33: each command's case and the table's row for it are the same (`exec_decUnit_answersRow`,
`exec_decFin_answersRow`), and `DEC.OPEN` leads to `RUN` from every phase. -/
theorem decoderFollowsItsTransitionTable : Obligations.DecoderFollowsItsTransitionTable := by
  intro s hs hready
  refine ⟨exec_decUnit_answersRow hs.config (hs.dec hready).1, exec_decFin_answersRow s, fun g => ?_⟩
  rw [decTable_opened]
  exact ⟨_, _, decOpenStartsFreshSession g s, rfl, rfl, rfl⟩

end Sys2Proof.Machine

/-! ### The transition table of the encoder (44_streaming R264) -/

namespace Sys2Proof.Machine

theorem encPhase_empty_iff (e : EncChan) : encPhase e = .empty ↔ e.pend = none := by
  rcases hp : e.pend with _ | a <;> simp [encPhase, hp]

theorem encPhase_hold {e : EncChan} {a : Byte} (hp : e.pend = some a) : encPhase e = .hold := by
  rw [encPhase, hp]
  rfl

/-- `EMITCP` does not read the pending byte (R194). -/
theorem emitCp_units_pend (cfg : Config) (cp : CodePoint) (e : EncChan) (p : Option Byte) :
    (emitCp cfg cp { e with pend := p }).2 = (emitCp cfg cp e).2 := by
  rw [emitCp_units, emitCp_units]
  rfl

/-- Under the invariant with `READY = 1` the tables are the built ones (R65, R331). -/
theorem Inv.tablesReady {s : State} (hs : Inv s) (hready : s.ready = true) : TablesReady s :=
  ⟨hs.config, hs.tables hready⟩

/-- Settles O21: the equation of each command in each state of the channel, with the built tables' code points. -/
theorem encoderFollowsItsTransitionTable : Obligations.EncoderFollowsItsTransitionTable := by
  intro s hs hready
  have htab := hs.tablesReady hready
  obtain ⟨hba, -⟩ := hs.enc hready
  refine ⟨fun hempty => ?_, fun a hp => ⟨encPhase_hold hp, fun b => ?_, ?_⟩, fun w => ?_⟩
  · have hp := (encPhase_empty_iff s.e).1 hempty
    exact ⟨fun b => ⟨_, exec_encByte_first hp b, rfl, rfl, rfl⟩, _, exec_encFin_empty hp, rfl, rfl⟩
  · refine ⟨_, exec_encByte_second hp hba hs.config b, (encPhase_empty_iff _).2 (emitCp_pend _ _ _), ?_⟩
    rw [respond_rsp, emitCp_units_pend, htab.readEtab16_pair]
  · refine ⟨_, exec_encFin_pending hp hba hs.config, rfl, ?_⟩
    rw [respond_rsp, emitCp_units_pend, htab.readEtab8_byte]
  · exact ⟨_, encOpenStartsFreshSession w s, rfl, rfl, rfl⟩

end Sys2Proof.Machine

/-! ### Chunks of a run of commands (44_streaming R262, R263) -/

namespace Sys2Proof.Machine

/-- The outcome with `q` waiting at the ports instead. -/
def offering (q : List Input) : Host.Outcome State Fault Refusal → Host.Outcome State Fault Refusal
  | .next t => .next { t with inp := q }
  | .fault f => .fault f
  | .refused r => .refused r

/-- Goes on from the state an outcome leaves; a fault or a refusal ends the run. -/
def andThen (o : Host.Outcome State Fault Refusal) (f : State → Host.Outcome State Fault Refusal) :
    Host.Outcome State Fault Refusal :=
  match o with
  | .next t => f t
  | .fault f => .fault f
  | .refused r => .refused r

section Offering

variable (q : List Input)

theorem decodeCp_offering (cp : CodePoint) (d : DecChan) (s : State) :
    decodeCp cp d { s with inp := q } = offering q (decodeCp cp d s) := by
  have hc2s : c2s { s with inp := q } cp = c2s s cp := rfl
  unfold decodeCp
  rw [hc2s]
  rcases c2s s cp with f | w
  · rfl
  · dsimp only
    split_ifs <;> rfl

theorem execEncByte_offering (b : Byte) (s : State) :
    execEncByte b { s with inp := q } = offering q (execEncByte b s) := by
  have hs2c : ∀ v, s2c16 { s with inp := q } v = s2c16 s v := fun _ => rfl
  unfold execEncByte
  dsimp only
  rcases s.e.pend with _ | a
  · rfl
  · dsimp only
    rcases (pushBits 16#5 8 (b.setWidth 16) (pushBits 16#5 8 (a.setWidth 16) s.e.ba).1).2 with _ | ⟨sym, _ | _⟩
    · rfl
    · dsimp only
      rw [hs2c]
      rcases s2c16 s sym with f | cp <;> rfl
    · rfl

theorem execEncFin_offering (s : State) : execEncFin { s with inp := q } = offering q (execEncFin s) := by
  have hs2c : ∀ v, s2c8 { s with inp := q } v = s2c8 s v := fun _ => rfl
  unfold execEncFin
  dsimp only
  rcases s.e.pend with _ | a
  · rfl
  · dsimp only
    split_ifs
    · rw [hs2c]
      rcases s2c8 s _ with f | cp <;> rfl
    · rfl

theorem execDecUnit_offering (u : CodeUnit) (s : State) :
    execDecUnit u { s with inp := q } = offering q (execDecUnit u s) := by
  unfold execDecUnit
  dsimp only
  rcases s.d.err with _ | er
  · rcases s.d.hs with _ | h
    · dsimp only
      split_ifs
      · rfl
      · rfl
      · exact decodeCp_offering q _ _ s
    · dsimp only
      split_ifs
      · exact decodeCp_offering q _ _ s
      · rfl
  · rfl

theorem execDecFin_offering (s : State) : execDecFin { s with inp := q } = offering q (execDecFin s) := by
  unfold execDecFin
  dsimp only
  rcases s.d.err with _ | er
  · rcases s.d.hs with _ | h <;> rfl
  · rfl

theorem execLkS2c16_offering (v : BitVec 16) (s : State) :
    execLkS2c16 v { s with inp := q } = offering q (execLkS2c16 v s) := by
  have hs2c : s2c16 { s with inp := q } v = s2c16 s v := rfl
  rw [execLkS2c16, execLkS2c16, hs2c]
  rcases s2c16 s v with f | cp <;> rfl

theorem execLkS2c8_offering (v : BitVec 8) (s : State) :
    execLkS2c8 v { s with inp := q } = offering q (execLkS2c8 v s) := by
  have hs2c : s2c8 { s with inp := q } v = s2c8 s v := rfl
  rw [execLkS2c8, execLkS2c8, hs2c]
  rcases s2c8 s v with f | cp <;> rfl

theorem execLkC2s_offering (cp : CodePoint) (s : State) :
    execLkC2s cp { s with inp := q } = offering q (execLkC2s cp s) := by
  have hc2s : c2s { s with inp := q } cp = c2s s cp := rfl
  rw [execLkC2s, execLkC2s, hc2s]
  rcases c2s s cp with f | w <;> rfl

/-- An instruction neither reads nor writes what waits at the ports (R91). -/
theorem exec_offering (i : Instr) (s : State) : exec i { s with inp := q } = offering q (exec i s) := by
  cases i with
  | encByte b => exact execEncByte_offering q b s
  | encFin => exact execEncFin_offering q s
  | decUnit u => exact execDecUnit_offering q u s
  | decFin => exact execDecFin_offering q s
  | encOpen _ | decOpen _ => rfl
  | lkS2c16 v => exact execLkS2c16_offering q v s
  | lkS2c8 v => exact execLkS2c8_offering q v s
  | lkC2s cp => exact execLkC2s_offering q cp s
  | baIdle ch _ | baPush ch _ | baEmit ch _ | baClear ch _ => cases ch <;> rfl

end Offering

section Chunks

variable {s t : State}

/-- An instruction leaves an idle block idle (R73, R107). -/
theorem Idle.after_exec (hs : Idle s) {i : Instr} (h : exec i s = .next t) : Idle t := by
  obtain ⟨hok, hready, hinp⟩ := hs
  rcases hc : isCommand i with _ | _
  · obtain ⟨ch, r, rfl⟩ := exec_uop_frame hc h
    cases ch <;> exact ⟨hok, hready, hinp⟩
  · rcases group_of_isCommand hc with henc | hdec | hlk
    · rw [exec_enc_frame henc h]
      exact ⟨hok, hready, hinp⟩
    · rw [exec_dec_frame hdec h]
      exact ⟨hok, hready, hinp⟩
    · rw [exec_lk_frame hlk h]
      exact ⟨hok, hready, hinp⟩

/-- The first step of a run is its first instruction; the others wait at the ports meanwhile (R91). -/
theorem runCommands_cons_eq_runSteps (hs : Idle s) (i : Instr) (is : List Instr) :
    runCommands (i :: is) s = andThen (offering ((is.map encode).map .word) (exec i s)) (runSteps is.length) := by
  have hoffered : (offerWords ((i :: is).map encode) s).inp = .word (encode i) :: (is.map encode).map .word := by
    rw [offerWords_inp, hs.waiting]
    rfl
  have hstep : step (offerWords ((i :: is).map encode) s) = exec i { s with inp := (is.map encode).map .word } :=
    step_decoded (s := offerWords ((i :: is).map encode) s) hs.config hs.ready hoffered
      (decodeOfEncodeIsTheInstruction i)
  rw [runCommands, List.length_cons, runSteps, hstep, exec_offering]
  rfl

/-- A run takes its first instruction, whatever that does, and goes on with the rest from the state it leaves (R91). -/
theorem runCommands_cons_eq_andThen (hs : Idle s) (i : Instr) (is : List Instr) :
    runCommands (i :: is) s = andThen (exec i s) (runCommands is) := by
  rw [runCommands_cons_eq_runSteps hs]
  rcases h : exec i s with t | f | r
  · show runSteps is.length { t with inp := (is.map encode).map .word } = runCommands is t
    rw [runCommands, offerWords, (hs.after_exec h).waiting, List.nil_append]
  · rfl
  · rfl

/-- A run of two lists is the run of the one, then of the other: an induction over the first. -/
theorem runCommands_append (hs : Idle s) (is js : List Instr) :
    runCommands (is ++ js) s = andThen (runCommands is s) (runCommands js) := by
  induction is generalizing s with
  | nil =>
    rw [runCommands_nil]
    rfl
  | cons i is ih =>
    rw [List.cons_append, runCommands_cons_eq_andThen hs, runCommands_cons_eq_andThen hs]
    rcases h : exec i s with t | f | r
    · exact ih (hs.after_exec h)
    · rfl
    · rfl

end Chunks

/-- Settles O53: each command leaves the block idle again, so a run may be cut after it. -/
theorem chunkBoundariesChangeNothing : Obligations.ChunkBoundariesChangeNothing :=
  fun is js _ hok hready hinp => runCommands_append ⟨hok, hready, hinp⟩ is js

end Sys2Proof.Machine

/-! ### The line break as the decoder reads it (44_streaming R266) -/

namespace Sys2Proof.Machine

/-- The line break is one unit, no half of a pair, and that unit completes it (R135 item 6, R195). -/
theorem wrapCp_is_one_unit {cfg : Config} (hok : cfg.ok = true) :
    utf16 cfg.wrapCp = [cfg.wrapCp.setWidth 16] ∧
      ∀ d : DecChan, d.hs = none → completedCp d (cfg.wrapCp.setWidth 16) = some cfg.wrapCp := by
  have hlen := utf16_wrapCp_length hok
  obtain ⟨hscalar, -⟩ := wrapCp_is_garbage hok
  rcases utf16_cases hscalar with ⟨u, hunits, hhigh, hlow, hcp⟩ | ⟨hi, lo, hunits, -⟩
  · have hu : cfg.wrapCp.setWidth 16 = u := by
      rw [← hcp, BitVec.setWidth_setWidth_of_le _ (by decide), BitVec.setWidth_eq]
    rw [hu]
    exact ⟨hunits, fun d hhs => by simp [completedCp, hhs, hhigh, hlow, hcp]⟩
  · rw [hunits] at hlen
    cases hlen

/-- Settles O57: the unit completes the line break, which misses in the built `DTAB`. -/
theorem lineBreakIsGarbageToTheDecoder : Obligations.LineBreakIsGarbageToTheDecoder := by
  intro s ⟨hok, hmem⟩ herr hhs
  obtain ⟨hunits, hcompletes⟩ := wrapCp_is_one_unit hok
  have hcp := hcompletes s.d hhs
  have hread : readDtab s.cfg s.mem s.cfg.wrapCp = 0#18 := by rw [hmem, (wrapCp_is_garbage hok).2]
  have hmiss : dwordHit 0#18 = false := by decide
  refine ⟨hunits, fun hig => exec_decUnit_miss_raises herr hok hcp hread hmiss hig, fun hig => ?_⟩
  rw [exec_decUnit_miss_skipped herr hok hcp hread hmiss hig, noHs_eq hhs]
  rfl

end Sys2Proof.Machine

/-! ### No command of the encoder raises (60_exceptions R307) -/

namespace Sys2Proof.Machine

/-- Settles O20: under the invariant each command has its equation, and the units of one code point with its line break are
at most three. -/
theorem encoderNeverFails : Obligations.EncoderNeverFails := by
  intro i s hs hready hi
  obtain ⟨hba, -⟩ := hs.enc hready
  cases i with
  | encOpen wrap => exact ⟨_, [], encOpenStartsFreshSession wrap s, rfl, Nat.zero_le 3⟩
  | encByte b =>
    rcases hp : s.e.pend with _ | a
    · exact ⟨_, [], exec_encByte_first hp b, rfl, Nat.zero_le 3⟩
    · exact ⟨_, _, exec_encByte_second hp hba hs.config b, rfl, emitCp_length_le hs.config _ _⟩
  | encFin =>
    rcases hp : s.e.pend with _ | a
    · exact ⟨_, [], exec_encFin_empty hp, rfl, Nat.zero_le 3⟩
    · exact ⟨_, _, exec_encFin_pending hp hba hs.config, rfl, emitCp_length_le hs.config _ _⟩
  | _ => cases hi

end Sys2Proof.Machine

/-! ### Decode errors (60_exceptions R292, R293, R296) -/

namespace Sys2Proof.Machine

/-- Settles O24: the two equations of a unit whose code point misses. -/
theorem decUnitMissRaisesOrSkips : Obligations.DecUnitMissRaisesOrSkips :=
  fun _ _ _ hok herr hcp hmiss =>
    ⟨exec_decUnit_miss_raises herr hok hcp rfl hmiss, exec_decUnit_miss_skipped herr hok hcp rfl hmiss⟩

/-- Settles O25: the equation of a hit after the terminal symbol, in which neither the width nor `D.IG` is read. -/
theorem decUnitAfterTerminalRaises : Obligations.DecUnitAfterTerminalRaises :=
  fun _ _ _ hok herr hcp hhit hterm => exec_decUnit_afterTerminal herr hok hcp rfl hhit hterm

theorem errStatus_injective : Function.Injective errStatus := by
  intro c c' h
  cases c <;> cases c' <;> simp [errStatus] at h ⊢

theorem errStatus_ne_sessionInError (c : ErrCode) : errStatus c ≠ .sessionInError := by cases c <;> decide

/-- From `s` to `t` an error was raised with `s` otherwise unchanged, or the response is none of the four decode errors. -/
def RaisedOrNoError (s t : State) : Prop :=
  (∃ c info, raise c info s = .next t) ∨ ∀ c, AnswersNot (errStatus c) s t

section RaisedOrNoError

variable {s t : State}

theorem raisedOrNoError_raise {c : ErrCode} {info : CodePoint} (h : raise c info s = .next t) : RaisedOrNoError s t :=
  .inl ⟨c, info, h⟩

theorem raisedOrNoError_ok {out : List Item} (ht : t.rsp = s.rsp) : RaisedOrNoError s (respond ⟨.ok, 0#21, out⟩ t) :=
  .inr fun c => answersNot_respond (errStatus_ne_ok c).symm ht

theorem raisedOrNoError_refuseDead {er : DecError} (h : refuseDead er s = .next t) : RaisedOrNoError s t :=
  .inr fun c => answersNot_refuseDead (errStatus_ne_sessionInError c).symm h

/-- An error that `DECODE_CP` answers is raised from the state at the start of the command, whatever the command has made of
the channel by then (R296). -/
theorem decodeCp_raisedOrNoError {cp : CodePoint} {d : DecChan} (h : decodeCp cp d s = .next t) : RaisedOrNoError s t := by
  obtain ⟨-, w, -, hw⟩ := decodeCp_next h
  rcases hw with ⟨-, -, rfl⟩ | ⟨-, -, hr⟩ | ⟨-, -, hr⟩ | ⟨-, -, -, rfl⟩ | ⟨-, -, -, -, rfl⟩ | ⟨-, -, -, -, hr⟩
  · exact raisedOrNoError_ok rfl
  · exact raisedOrNoError_raise hr
  · exact raisedOrNoError_raise hr
  · exact raisedOrNoError_ok rfl
  · exact raisedOrNoError_ok rfl
  · exact raisedOrNoError_raise hr

theorem exec_dec_raisedOrNoError {i : Instr} (hi : isDec i = true) (h : exec i s = .next t) : RaisedOrNoError s t := by
  cases i with
  | decOpen ig =>
    obtain rfl := execDecOpen_next h
    exact raisedOrNoError_ok rfl
  | decUnit u =>
    rcases execDecUnit_next h with ⟨er, -, hr⟩ | ⟨-, ⟨v, -, -, hr⟩ | ⟨v, -, -, hr⟩ | ⟨-, -, rfl⟩ | ⟨-, -, -, hr⟩ |
      ⟨-, -, -, hr⟩⟩
    · exact raisedOrNoError_refuseDead hr
    · exact decodeCp_raisedOrNoError hr
    · exact raisedOrNoError_raise hr
    · exact raisedOrNoError_ok rfl
    · exact raisedOrNoError_raise hr
    · exact decodeCp_raisedOrNoError hr
  | decFin =>
    rcases execDecFin_next h with ⟨er, -, hr⟩ | ⟨-, ⟨v, -, hr⟩ | ⟨-, rfl⟩⟩
    · exact raisedOrNoError_refuseDead hr
    · exact raisedOrNoError_raise hr
    · exact raisedOrNoError_ok rfl
  | _ => cases hi

end RaisedOrNoError

/-- Settles O29: a decode command that answers an error has raised it, and the status of the response says which one. -/
theorem raiseDiscardsEveryOtherWrite : Obligations.RaiseDiscardsEveryOtherWrite := by
  intro i s t r c hi h hr hst
  rcases exec_dec_raisedOrNoError hi h with ⟨c', info, hraise⟩ | hnot
  · obtain rfl := (raise_next_iff _ _ _ _).1 hraise
    obtain rfl : _ = r := by simpa using hr
    obtain rfl := errStatus_injective hst
    exact ⟨rfl, rfl⟩
  · exact absurd hst ((hnot c).status_ne hr)

end Sys2Proof.Machine

/-! ### A dead session (60_exceptions R298) -/

namespace Sys2Proof.Machine

/-- What keeps to channel E does the same whatever channel D holds, and leaves that as it is. -/
theorem KeepsToEnc.with_dec {f : State → Host.Outcome State Fault Refusal} {s t : State} (hf : KeepsToEnc f s)
    (h : f s = .next t) (d : DecChan) : f { s with d := d } = .next { t with d := d } := by
  obtain ⟨e, r, hf⟩ := hf
  obtain rfl := Host.Outcome.next.inj (h.symm.trans (hf s.d s.rsp))
  exact hf d s.rsp

section NoDec

variable {i : Instr} {s t : State} (hi : isEnc i = true ∨ isLk i = true) (h : exec i s = .next t)
include hi h

theorem exec_keepsToEnc : KeepsToEnc (exec i) s := by
  rcases hi with henc | hlk
  · exact exec_enc_keepsToEnc henc h
  · exact exec_lk_keepsToEnc hlk h

/-- The encode and lookup groups leave channel D alone (R73). -/
theorem exec_keeps_dec : t.d = s.d := by
  rcases hi with henc | hlk
  · rw [exec_enc_frame henc h]
  · rw [exec_lk_frame hlk h]

end NoDec

/-- Settles O28: the refusal is the equation of a dead session, `DEC.OPEN` does not read the channel, and the other two groups
keep to channel E. -/
theorem deadSessionRefusesUnitsAndFin : Obligations.DeadSessionRefusesUnitsAndFin := by
  refine ⟨⟨rfl, rfl, rfl, rfl⟩, fun er s herr =>
    ⟨exec_decUnit_dead herr, exec_decFin_dead herr, fun _ => rfl, fun i t hi h => ?_⟩⟩
  have hdead : ({ t.d with err := some er } : DecChan) = s.d := by rw [exec_keeps_dec hi h, ← herr]
  rw [hdead]
  exact (exec_keepsToEnc hi h).with_dec h s.d

end Sys2Proof.Machine

/-! ### From any contents to the reset values (70_reset_and_hazards R330, R331; 10_state R30) -/

namespace Sys2Proof.Machine

/-- A fresh session without wrapping is the encode channel after reset, whatever the channel held (R30, R191). -/
theorem freshEnc_eq_atReset (e : EncChan) : freshEnc 0#24 e = EncChan.atReset := rfl

/-- A fresh session that does not ignore garbage is the decode channel after reset, whatever the channel held (R30, R221). -/
theorem freshDec_eq_atReset (d : DecChan) : freshDec false d = DecChan.atReset := rfl

/-- What the reset sequence leaves does not depend on what the RAMs and the channels held (R331). -/
theorem resetSequence_forgets {s : State} (hok : s.cfg.ok = true) (hmem : s.mem.wf s.cfg = true) :
    resetSequence s =
      .next { s with mem := Memory.built, e := EncChan.atReset, d := DecChan.atReset, ready := true } := by
  rw [resetSequence_eq hok, build_eq_built hok hmem, freshEnc_eq_atReset, freshDec_eq_atReset]

/-- Settles O42: taking the request clears `READY` and leaves the RAMs as they were, so that the next step is the reset sequence
from canonical RAMs. -/
theorem resetFromAnyStateReachesTheResetState : Obligations.ResetFromAnyStateReachesTheResetState := by
  intro s rest hok hmem hinp hrest
  have hrequest : step s = .next (assertReset { s with inp := rest }) := step_resetRequest hok hinp
  have hrelease : step (assertReset { s with inp := rest }) = resetSequence (assertReset { s with inp := rest }) :=
    step_notReady hok rfl hrest
  exact ⟨_, hrequest, rfl, rfl, hrelease.trans (resetSequence_forgets hok hmem)⟩

end Sys2Proof.Machine
